-- ==== Sys2Proof/Word.lean ====
section
/-! DEFINITION. The word and byte types of the codec. Byte order and bit fields stand in `Decode.lean`. -/

namespace Sys2Proof

/-- A byte (00_scope.md R14). -/
abbrev Byte := BitVec 8

/-- The value of a host register or a bus data word: 32 bits (00_scope.md R12). -/
abbrev Word := BitVec 32

/-- A byte string (00_scope.md R15). -/
abbrev Bytes := List Byte

/-- A byte register of `n` bytes: SALT, AKEY and the others of 10_state.md R30 to R39. -/
abbrev ByteReg (n : Nat) := Vector Byte n

/-- The byte register with the first `n` bytes of `bs` (zeros where `bs` is shorter; the stages check
the length before they use it). -/
def ByteReg.ofBytes (n : Nat) (bs : Bytes) : ByteReg n :=
  ⟨⟨(bs ++ List.replicate n 0).take n⟩, by simp⟩

/-- All bytes 0x00. -/
def ByteReg.zero (n : Nat) : ByteReg n := ⟨⟨List.replicate n 0⟩, by simp⟩

end Sys2Proof
end

