-- ==== Sys2Proof/Syntax.lean ====
section
/-! DEFINITION. The instructions: one constructor per row of spec/opcode_table.json. -/

namespace Sys2Proof

/-- One row of the opcode table each. The command words (30_encoding.md R90) carry the ignored bits 31:8
as `junk`, and a reserved row that covers several codes carries the code `op` (R92). The four container
records (R111) are fixed words. -/
inductive Instr where
  /-- OP 0x00 (44_host_access.md R248). -/
  | nop (junk : BitVec 24)
  /-- OP 0x01 (42_encode.md R170). -/
  | encode (junk : BitVec 24)
  /-- OP 0x02 (43_decode.md R200). -/
  | decode (junk : BitVec 24)
  /-- OP 0x03 (44_host_access.md R247). -/
  | reserved03 (junk : BitVec 24)
  /-- OP 0x04 to 0x07 (R247). -/
  | reserved04To07 (op : Byte) (junk : BitVec 24)
  /-- OP 0x08 to 0x0F (R247). -/
  | reserved08To0F (op : Byte) (junk : BitVec 24)
  /-- OP 0x10 to 0x1F (R247). -/
  | reserved10To1F (op : Byte) (junk : BitVec 24)
  /-- OP 0x20 to 0x3F (R247). -/
  | reserved20To3F (op : Byte) (junk : BitVec 24)
  /-- OP 0x40 to 0x7F (R247). -/
  | reserved40To7F (op : Byte) (junk : BitVec 24)
  /-- OP 0x80 to 0xFF (R247). -/
  | reserved80ToFF (op : Byte) (junk : BitVec 24)
  /-- The local file header, signature 0x04034B50 (30_encoding.md R95). -/
  | lfh
  /-- The central file header, signature 0x02014B50 (R101). -/
  | cfh
  /-- The end-of-central-directory record, signature 0x06054B50 (R103). -/
  | eocd
  /-- The AE extra field, header id 0x9901 (R99). -/
  | aeExtra
  deriving DecidableEq, Repr

/-- Where a word is read: a 32-bit write to CMD (30_encoding.md R90), the first four bytes of a container
record, or the first two bytes of an extra field (R111). The same bits mean different rows in different places. -/
inductive Place where
  | command
  | record
  | extra
  deriving DecidableEq, Repr

/-- The place a row's word is read at. -/
def Instr.place : Instr → Place
  | .nop _ => .command
  | .encode _ => .command
  | .decode _ => .command
  | .reserved03 _ => .command
  | .reserved04To07 _ _ => .command
  | .reserved08To0F _ _ => .command
  | .reserved10To1F _ _ => .command
  | .reserved20To3F _ _ => .command
  | .reserved40To7F _ _ => .command
  | .reserved80ToFF _ _ => .command
  | .lfh => .record
  | .cfh => .record
  | .eocd => .record
  | .aeExtra => .extra

end Sys2Proof
end

