-- ==== Sys2Proof/WellFormed.lean ====
section
/-! DEFINITION. Which instructions the table has: the code of a reserved row lies in the row's range
(30_encoding.md R92). Every other field takes every value of its type. -/

namespace Sys2Proof

/-- The row covers the code. -/
def Instr.wellFormed : Instr → Bool
  | .nop _ => true
  | .encode _ => true
  | .decode _ => true
  | .reserved03 _ => true
  | .reserved04To07 op _ => decide (0x04 ≤ op.toNat ∧ op.toNat ≤ 0x07)
  | .reserved08To0F op _ => decide (0x08 ≤ op.toNat ∧ op.toNat ≤ 0x0F)
  | .reserved10To1F op _ => decide (0x10 ≤ op.toNat ∧ op.toNat ≤ 0x1F)
  | .reserved20To3F op _ => decide (0x20 ≤ op.toNat ∧ op.toNat ≤ 0x3F)
  | .reserved40To7F op _ => decide (0x40 ≤ op.toNat ∧ op.toNat ≤ 0x7F)
  | .reserved80ToFF op _ => decide (0x80 ≤ op.toNat)
  | .lfh => true
  | .cfh => true
  | .eocd => true
  | .aeExtra => true

/-- The instruction is one the table has. -/
abbrev Instr.WellFormed (i : Instr) : Prop := i.wellFormed = true

end Sys2Proof
end

