-- ==== Sys2Proof/Decode.lean ====
section
/-! DEFINITION. Byte order, the decoder (total, rejecting by name) and the encoder.
Command words: 30_encoding.md R90 to R92. Records: R111. -/

namespace Sys2Proof

/-- Byte `i` of a value: bits 8i+7 down to 8i (00_scope.md R16). -/
def byteOf {w : Nat} (v : BitVec w) (i : Nat) : Byte := v.extractLsb' (8 * i) 8

/-- `le16` of 00_scope.md R16. -/
def le16 (v : BitVec 16) : Bytes := [byteOf v 0, byteOf v 1]

/-- `le32` of 00_scope.md R16. -/
def le32 (v : BitVec 32) : Bytes := [byteOf v 0, byteOf v 1, byteOf v 2, byteOf v 3]

/-- `le64` of 00_scope.md R16. -/
def le64 (v : BitVec 64) : Bytes :=
  [byteOf v 0, byteOf v 1, byteOf v 2, byteOf v 3, byteOf v 4, byteOf v 5, byteOf v 6, byteOf v 7]

/-- Byte `i` of a byte string (0x00 past its end; the callers read inside it). -/
def byteAt (bs : Bytes) (i : Nat) : Byte := bs.getD i 0

/-- `rd16(B, o)` of 00_scope.md R16. -/
def rd16 (bs : Bytes) (o : Nat) : BitVec 16 := byteAt bs (o + 1) ++ byteAt bs o

/-- `rd32(B, o)` of 00_scope.md R16. -/
def rd32 (bs : Bytes) (o : Nat) : BitVec 32 :=
  byteAt bs (o + 3) ++ byteAt bs (o + 2) ++ byteAt bs (o + 1) ++ byteAt bs o

/-- `rd64(B, o)` of 00_scope.md R16. -/
def rd64 (bs : Bytes) (o : Nat) : BitVec 64 := rd32 bs (o + 4) ++ rd32 bs o

/-- `zext_N(v)` of 00_scope.md R14. -/
def zext (n : Nat) {w : Nat} (v : BitVec w) : BitVec n := v.zeroExtend n

/-- `sext_N(v)` of 00_scope.md R14 (defined for completeness there; no rule uses it). -/
def sext (n : Nat) {w : Nat} (v : BitVec w) : BitVec n := v.signExtend n

/-- OP = v[7:0] (30_encoding.md R90). -/
def opOf (v : Word) : Byte := v.extractLsb' 0 8

/-- Bits 31:8 of a command word, accepted and ignored (30_encoding.md R90, R92). -/
def junkOf (v : Word) : BitVec 24 := v.extractLsb' 8 24

/-- The command map of 30_encoding.md R91 and R92: every 32-bit word written to CMD is a command. -/
def decodeCommand (v : Word) : Instr :=
  let op := opOf v
  let junk := junkOf v
  if op.toNat = 0x00 then .nop junk
  else if op.toNat = 0x01 then .encode junk
  else if op.toNat = 0x02 then .decode junk
  else if op.toNat = 0x03 then .reserved03 junk
  else if op.toNat ≤ 0x07 then .reserved04To07 op junk
  else if op.toNat ≤ 0x0F then .reserved08To0F op junk
  else if op.toNat ≤ 0x1F then .reserved10To1F op junk
  else if op.toNat ≤ 0x3F then .reserved20To3F op junk
  else if op.toNat ≤ 0x7F then .reserved40To7F op junk
  else .reserved80ToFF op junk

/-- Local file header signature (30_encoding.md R95, R111). -/
def sigLfh : BitVec 32 := 0x04034B50#32

/-- Central file header signature (30_encoding.md R101, R111). -/
def sigCfh : BitVec 32 := 0x02014B50#32

/-- End-of-central-directory signature (30_encoding.md R103, R111). -/
def sigEocd : BitVec 32 := 0x06054B50#32

/-- AE extra header id (30_encoding.md R99, R111). -/
def idAeExtra : BitVec 16 := 0x9901#16

/-- The record whose signature this is, if it is one (30_encoding.md R111). -/
def decodeSignature (v : BitVec 32) : Option Instr :=
  if v = sigLfh then some .lfh
  else if v = sigCfh then some .cfh
  else if v = sigEocd then some .eocd
  else none

/-- The extra field whose header id this is, if it is the AE one (30_encoding.md R111). -/
def decodeExtraId (v : BitVec 16) : Option Instr :=
  if v = idAeExtra then some .aeExtra else none

/-- Why the decoder rejects bytes. -/
inductive Reject where
  /-- Fewer bytes than the word at this place has. -/
  | tooShort
  /-- Four bytes that are no record signature of 30_encoding.md R111. -/
  | noRecordSignature
  /-- Two bytes that are not the AE extra header id. -/
  | noExtraId
  deriving DecidableEq, Repr

/-- The decoder: the instruction at the head of the bytes, and the bytes after it. -/
def decode : Place → Bytes → Except Reject (Instr × Bytes)
  | .command, b0 :: b1 :: b2 :: b3 :: rest => .ok (decodeCommand (rd32 [b0, b1, b2, b3] 0), rest)
  | .record, b0 :: b1 :: b2 :: b3 :: rest =>
    match decodeSignature (rd32 [b0, b1, b2, b3] 0) with
    | some i => .ok (i, rest)
    | none => .error .noRecordSignature
  | .extra, b0 :: b1 :: rest =>
    match decodeExtraId (rd16 [b0, b1] 0) with
    | some i => .ok (i, rest)
    | none => .error .noExtraId
  | _, _ => .error .tooShort

/-- The command word with this code and these ignored bits (30_encoding.md R90). -/
def commandWord (op : Byte) (junk : BitVec 24) : Word := junk ++ op

/-- The bytes of an instruction, first byte first: a command word little-endian (20_memory.md R66), a
record's first bytes (30_encoding.md R111). -/
def encode : Instr → Bytes
  | .nop junk => le32 (commandWord 0x00 junk)
  | .encode junk => le32 (commandWord 0x01 junk)
  | .decode junk => le32 (commandWord 0x02 junk)
  | .reserved03 junk => le32 (commandWord 0x03 junk)
  | .reserved04To07 op junk => le32 (commandWord op junk)
  | .reserved08To0F op junk => le32 (commandWord op junk)
  | .reserved10To1F op junk => le32 (commandWord op junk)
  | .reserved20To3F op junk => le32 (commandWord op junk)
  | .reserved40To7F op junk => le32 (commandWord op junk)
  | .reserved80ToFF op junk => le32 (commandWord op junk)
  | .lfh => le32 sigLfh
  | .cfh => le32 sigCfh
  | .eocd => le32 sigEocd
  | .aeExtra => le16 idAeExtra

/-- The place at which a word of the opcode table with `nbits` bits is read: a 32-bit record signature
and the 16-bit AE extra id fix every bit of their word, so they are looked for first; every other word is a command.
DESIGN CHOICE: log 13. -/
def tablePlace (nbits w : Nat) : Place :=
  if nbits = 32 ∧ (decodeSignature (BitVec.ofNat 32 w)).isSome then .record
  else if nbits = 16 ∧ (decodeExtraId (BitVec.ofNat 16 w)).isSome then .extra
  else .command

/-- The instruction the decoder reads from a word of the opcode table (the bits above `nbits` are 0). -/
def decodeTableWord (nbits w : Nat) : Option Instr :=
  if nbits ≤ 32 ∧ w < 2 ^ 32 then
    match decode (tablePlace nbits w) (le32 (BitVec.ofNat 32 w)) with
    | .ok (i, _) => some i
    | .error _ => none
  else none

end Sys2Proof
end

