-- ==== Sys2Proof/Config.lean ====
section
/-! DEFINITION. What one codec instance fixes (00_scope.md R11), the provider ports (R13) and the free values
(10_state.md R50; 92_eei_decisions.md D18, D29). Everything here is an argument of the model. -/

namespace Sys2Proof

/-- The parameters and the provider ports of one instance. The stages take a `Platform` as an argument;
the machine `step` runs with `Config.platform`. -/
structure Platform where
  /-- IBUF_SIZE (R11). -/
  ibufSize : Nat
  /-- PBUF_SIZE (R11). -/
  pbufSize : Nat
  /-- CBUF_SIZE (R11). -/
  cbufSize : Nat
  /-- OBUF_SIZE (R11). -/
  obufSize : Nat
  /-- DEFLATE_SLACK (R11, D32): no rule reads it. -/
  deflateSlack : Nat
  /-- TEST_HOOK (R11, R34). -/
  testHook : Bool
  /-- P_LABEL, the 4 bytes of the file name (R11, R98). -/
  label : ByteReg 4
  /-- P_MTIME (R11, R97). -/
  mtime : BitVec 16
  /-- P_MDATE (R11, R97). -/
  mdate : BitVec 16
  /-- PROV_KDF: DeriveKey(password, salt, iterations, outputLen) (R13). Its length is checked by the block. -/
  kdf : Bytes → Bytes → Nat → Nat → Bytes
  /-- PROV_AES: EncryptBlock(key, block) (R13). -/
  aes : Bytes → Bytes → ByteReg 16
  /-- PROV_HMAC: Hmac(key, data) (R13). Its length is checked by the block. -/
  hmac : Bytes → Bytes → Bytes
  /-- PROV_CRC: Crc32(data) (R13), a total function. -/
  crc : Bytes → BitVec 32
  /-- PROV_DEFLATE: which raw DEFLATE stream it answers is not fixed (R13), so it may depend on the draw. -/
  deflate : Nat → Bytes → Bytes
  /-- PROV_INFLATE: Inflate(data, expectedLen) (R13). -/
  inflate : Bytes → Nat → Bytes
  /-- PROV_RNG: RandomBytes(n), a free draw per call (R13). -/
  rng : Nat → Nat → Bytes
  /-- Whether the provider call made at this draw answers with its error outcome (R13, D18). -/
  fails : Nat → Bool
  /-- What an engine or host read of a buffer byte that nothing has written since reset gives at this draw (R50). -/
  freeByte : Nat → Byte

/-- The bounds of R11 on the buffer sizes. -/
structure Platform.Bounded (p : Platform) : Prop where
  ibuf_pos : 1 ≤ p.ibufSize
  ibuf_le : p.ibufSize ≤ 0x1000000
  pbuf_pos : 1 ≤ p.pbufSize
  pbuf_le : p.pbufSize ≤ 0x1000
  cbuf_ge : p.ibufSize ≤ p.cbufSize
  obuf_ge : p.cbufSize + 156 ≤ p.obufSize
  obuf_le : p.obufSize ≤ 0x1000000

/-- The law R13 lets a model assume of the DEFLATE and INFLATE providers. -/
def Platform.InflatesWhatItDeflates (p : Platform) : Prop :=
  ∀ (d : Nat) (plain : Bytes), p.inflate (p.deflate d plain) plain.length = plain

namespace Config

/-- The free numbers the buffer sizes are made from; `ibufSize` to `obufSize` take every value R11 allows. -/
opaque ibufSeed : Nat
/-- See `ibufSeed`. -/
opaque pbufSeed : Nat
/-- See `ibufSeed`. -/
opaque cbufSeed : Nat
/-- See `ibufSeed`. -/
opaque obufSeed : Nat
/-- DEFLATE_SLACK is OPEN (R11, D32). -/
opaque deflateSlack : Nat
/-- TEST_HOOK is OPEN (R11, D21). -/
opaque testHook : Bool
/-- P_LABEL is OPEN (R11, D12). -/
opaque label : ByteReg 4
/-- P_MTIME is OPEN (R11, D11). -/
opaque mtime : BitVec 16
/-- P_MDATE is OPEN (R11, D11). -/
opaque mdate : BitVec 16
/-- PROV_KDF (R13). -/
opaque kdf : Bytes → Bytes → Nat → Nat → Bytes
/-- PROV_AES (R13). -/
opaque aes : Bytes → Bytes → ByteReg 16
/-- PROV_HMAC (R13). -/
opaque hmac : Bytes → Bytes → Bytes
/-- PROV_CRC (R13). -/
opaque crc : Bytes → BitVec 32
/-- PROV_DEFLATE (R13, 93 I7). -/
opaque deflate : Nat → Bytes → Bytes
/-- PROV_INFLATE (R13). -/
opaque inflate : Bytes → Nat → Bytes
/-- PROV_RNG (R13, 93 I6). -/
opaque rng : Nat → Nat → Bytes
/-- The failure draws (D18, 93 I5). -/
opaque fails : Nat → Bool
/-- The draws for unwritten buffer bytes (R50, D29, 93 I2). -/
opaque freeByte : Nat → Byte

/-- IBUF_SIZE: any value with 1 ≤ IBUF_SIZE and IBUF_SIZE + 156 ≤ 2^24, which is what the bounds of R11 leave. -/
def ibufSize : Nat := 1 + ibufSeed % (0x1000000 - 156)

/-- PBUF_SIZE: any value with 1 ≤ PBUF_SIZE ≤ 2^12 (R11). -/
def pbufSize : Nat := 1 + pbufSeed % 0x1000

/-- CBUF_SIZE: any value with IBUF_SIZE ≤ CBUF_SIZE and CBUF_SIZE + 156 ≤ 2^24 (R11). -/
def cbufSize : Nat := ibufSize + cbufSeed % (0x1000000 - 156 - ibufSize + 1)

/-- OBUF_SIZE: any value with CBUF_SIZE + 156 ≤ OBUF_SIZE ≤ 2^24 (R11). -/
def obufSize : Nat := cbufSize + 156 + obufSeed % (0x1000000 - 156 - cbufSize + 1)

/-- The instance the machine `step` runs: every parameter and provider is open. -/
def platform : Platform :=
  { ibufSize, pbufSize, cbufSize, obufSize, deflateSlack, testHook, label, mtime, mdate,
    kdf, aes, hmac, crc, deflate, inflate, rng, fails, freeByte }

end Config

end Sys2Proof
end

