-- ==== Sys2Proof/Machine/State.lean ====
section
/-! DEFINITION. The machine's state: everything 10_state.md gives the block, the bus port's last answer, and the inputs
from outside (the host's operations, the interleaving, the free draws) as plain data. -/

namespace Sys2Proof.Machine

/-- The error kinds of 60_exceptions.md R260. -/
inductive ErrKind where
  | params
  | salt
  | keyDerivation
  | compression
  | cipher
  | hmac
  | badFormat
  | wrongPassword
  | tamper
  | integrity
  | badCommand
  deriving DecidableEq, Repr

/-- The stages of the sequencer (10_state.md R40). -/
inductive Stage where
  | idle
  | eCheck
  | eCrc
  | eDeflate
  | eSalt
  | eKdf
  | eCipher
  | eHmac
  | eEmit
  | dCheck
  | dFormat
  | dKdf
  | dPvv
  | dTag
  | dCipher
  | dInflate
  | dCrc
  | dCommit
  | finish
  deriving DecidableEq, Repr

/-- A host bus operation `MemRead(a, n)` or `MemWrite(a, n, v)` (44_host_access.md R240). A width other than
1, 2 or 4 can be asked for and gets BUSERR (20_memory.md R67). -/
inductive BusOp where
  | read (addr : Word) (size : Nat)
  | write (addr : Word) (size : Nat) (data : Word)
  deriving DecidableEq, Repr

/-- What the host does next: one bus operation, or the `poll` of 30_encoding.md R114, which reads the word at `addr`
again and again until `(t AND mask) = val`. -/
inductive HostOp where
  | bus (op : BusOp)
  | poll (addr mask val : Word)
  deriving DecidableEq, Repr

/-- What happens in a step (20_memory.md R71, R73: one total order of host accesses and engine steps). -/
inductive Turn where
  /-- The host performs its next operation. -/
  | host
  /-- The engine performs the stage STAGE names. -/
  | engine
  /-- The engine waits for a provider's answer (70_reset_and_hazards.md R300); nothing changes. -/
  | stall
  /-- The reset input is asserted; with `withAccess` the host's next access falls in the same step and has no
  effect (70_reset_and_hazards.md R290, R292). -/
  | reset (withAccess : Bool)
  deriving DecidableEq, Repr

/-- The slave port's answer to one access: OKAY or BUSERR, and the read data (44_host_access.md R240). -/
structure Access where
  op : BusOp
  okay : Bool
  data : Word
  deriving DecidableEq, Repr

/-- Bytes at addresses, strictly rising. What an unlisted address reads as is said in `Ops.lean`. -/
abbrev Memory := List Host.Cell

/-- The state of the codec. The comments name the rule that gives the field. -/
@[ext]
structure State where
  /-- CTRL.TBYP (10_state.md R23, R34). -/
  tbyp : Bool
  /-- CTRL.IE (R23, R33). -/
  ie : Bool
  /-- STATUS.BUSY (R24). -/
  busy : Bool
  /-- STATUS.DONE (R25). -/
  done : Bool
  /-- ERR.CODE (R26). -/
  err : BitVec 4
  /-- ILEN (R27). -/
  ilen : Word
  /-- PWLEN (R28). -/
  pwlen : Word
  /-- OLEN (R29). -/
  olen : Word
  /-- STAGE (R40). -/
  stage : BitVec 5
  /-- The kind K a stage raised, which FINISH(K) reports (60_exceptions.md R262). DESIGN CHOICE: log 8. -/
  raised : Option ErrKind
  /-- SALT (R30). -/
  salt : ByteReg 16
  /-- AKEY (R30). -/
  akey : ByteReg 32
  /-- HKEY (R30). -/
  hkey : ByteReg 32
  /-- PVV (R30). -/
  pvv : ByteReg 2
  /-- DK (R31). -/
  dk : ByteReg 66
  /-- CRCR (R35). -/
  crcr : BitVec 32
  /-- USZ (R35). -/
  usz : Word
  /-- CBUF (R36); an unlisted byte is 0x00. -/
  cbuf : Memory
  /-- CLEN (R36). -/
  clen : Word
  /-- XBUF (R37); an unlisted byte is 0x00. -/
  xbuf : Memory
  /-- HMD (R38). -/
  hmd : ByteReg 20
  /-- TAGC (R38). -/
  tagc : ByteReg 10
  /-- CTR (R39, 41_ctr_cipher.md R150). -/
  ctr : BitVec 64
  /-- KS (R39). -/
  ks : ByteReg 16
  /-- BIDX (R39). -/
  bidx : Word
  /-- PBUF, IBUF and OBUF (R42 to R44) by host address; an unlisted byte has not been written since reset (R50). -/
  mem : Memory
  /-- The answer to the last bus access (44_host_access.md R240). DESIGN CHOICE: log 7. -/
  last : Option Access
  /-- The host's operations still to come (the model's own field: the input from outside). DESIGN CHOICE: log 6. -/
  host : List HostOp
  /-- Who moves in the coming steps (the model's own field: the interleaving the rules leave open, R73). DESIGN CHOICE: log 6. -/
  turns : List Turn
  /-- Free draws made so far (the model's own field; R50, D18). DESIGN CHOICE: log 3. -/
  draws : Nat
  deriving DecidableEq, Repr

/-- The values of 10_state.md R49; no buffer byte written (R50); nothing asked of the block yet. -/
def State.reset : State :=
  { tbyp := false, ie := false, busy := false, done := false, err := 0, ilen := 0, pwlen := 0, olen := 0
    stage := 0, raised := none
    salt := ByteReg.zero 16, akey := ByteReg.zero 32, hkey := ByteReg.zero 32, pvv := ByteReg.zero 2
    dk := ByteReg.zero 66, crcr := 0, usz := 0, cbuf := [], clen := 0, xbuf := []
    hmd := ByteReg.zero 20, tagc := ByteReg.zero 10, ctr := 0, ks := ByteReg.zero 16, bidx := 0
    mem := [], last := none, host := [], turns := [], draws := 0 }

/-- Why the machine stops with a fault: the two cases 93_implementation_defined.md gives the treatment `fault`.
Both are safe: no state that a run reaches takes one. -/
inductive Fault where
  /-- Raised by an engine step at a STAGE value of 19 to 31, which is never taken (10_state.md R40, 93 I16). Safe. -/
  | stageNeverTaken
  /-- Raised by a host read of ERR holding 12 to 15, which are never written (60_exceptions.md R261, 93 I15). Safe. -/
  | errCodeNeverWritten
  deriving DecidableEq, Repr

/-- Why the machine refuses a step. -/
inductive Refusal where
  /-- Answered by an arm of `exec` whose instruction has no meaning yet. Safe. -/
  | notModelled (mnemonic : String)
  /-- Answered by CTR_BLOCK at CTR = 2^64 − 1: the counter's wrap is outside the spec and a model refuses it
  (41_ctr_cipher.md R160, D34, 93 I1). Safe: no state that a run reaches takes it. -/
  | counterWrap
  deriving DecidableEq, Repr

/-- What a step or a meaning answers. -/
abbrev Result := Host.Outcome State Fault Refusal

end Sys2Proof.Machine
end

