-- ==== Sys2Proof/Machine/Ops.lean ====
section
/-! DEFINITION. The operations every instruction and stage is made of: memory, the free draws, the sequencer, ending a
command (`raise`, FINISH, WIPE: the block's "trap entry", 60_exceptions.md R262, R265), starting one (dispatch), reset. -/

namespace Sys2Proof.Machine

/-! ### Memory -/

/-- PBUF, IBUF and OBUF: an unlisted byte has not been written since reset and has no value of its own
(10_state.md R50). -/
def hostBlank : Option Byte := none

/-- CBUF and XBUF: an unlisted byte is 0x00, as reset and WIPE leave it (10_state.md R49). -/
def innerBlank : Option Byte := some 0

/-- The byte listed at an address. -/
def Memory.read? : Memory → Nat → Option Byte
  | [], _ => none
  | (b, v) :: rest, a => if b = a then some v else Memory.read? rest a

/-- Store one byte and keep the canonical form: rising addresses, no entry equal to `blank`. -/
def Memory.put (blank : Option Byte) : Memory → Nat → Byte → Memory
  | [], a, v => if blank = some v then [] else [(a, v)]
  | (b, w) :: rest, a, v =>
    if a < b then (if blank = some v then (b, w) :: rest else (a, v) :: (b, w) :: rest)
    else if a = b then (if blank = some v then rest else (a, v) :: rest)
    else (b, w) :: Memory.put blank rest a v

/-- Store a byte string from address `a` up. -/
def Memory.putBytes (blank : Option Byte) (m : Memory) (a : Nat) : Bytes → Memory
  | [] => m
  | v :: vs => Memory.putBytes blank (m.put blank a v) (a + 1) vs

/-- The canonical form: addresses strictly rising, no entry equal to `blank`. -/
def Memory.wf (blank : Option Byte) : Memory → Bool
  | [] => true
  | (a, v) :: rest =>
    decide (blank ≠ some v) && (match rest with | [] => true | (b, _) :: _ => decide (a < b)) && Memory.wf blank rest

/-- Byte `a` of CBUF or XBUF. -/
def Memory.inner (m : Memory) (a : Nat) : Byte := (m.read? a).getD 0

/-- `BUF[a..a+n)` of CBUF or XBUF. -/
def Memory.innerBytes (m : Memory) (a n : Nat) : Bytes := (List.range n).map fun k => m.inner (a + k)

/-! ### The host buffers -/

/-- Base of PBUF (20_memory.md R61). -/
def pbufBase : Nat := 0x1000
/-- Base of IBUF (20_memory.md R61). -/
def ibufBase : Nat := 0x1000000
/-- Base of OBUF (20_memory.md R61). -/
def obufBase : Nat := 0x2000000

/-- Byte `k` of a read at address `a + k` of the host buffers: the byte last written there, or a free draw
where nothing has been written since reset (10_state.md R50). -/
def State.byteRead (p : Platform) (s : State) (a k : Nat) : Byte :=
  (s.mem.read? (a + k)).getD (p.freeByte (s.draws + k))

/-- The `n` bytes a read of the host buffers at address `a` gives. -/
def State.bytesAt (p : Platform) (s : State) (a n : Nat) : Bytes := (List.range n).map (s.byteRead p a)

/-- `n` more free draws made: two reads of an unwritten byte need not agree (10_state.md R50). -/
def State.drew (s : State) (n : Nat) : State := { s with draws := s.draws + n }

/-- Store bytes into the host buffers. -/
def State.putHost (s : State) (a : Nat) (bs : Bytes) : State := { s with mem := s.mem.putBytes hostBlank a bs }

/-- Store bytes into CBUF. -/
def State.putCbuf (s : State) (a : Nat) (bs : Bytes) : State := { s with cbuf := s.cbuf.putBytes innerBlank a bs }

/-- Store bytes into XBUF. -/
def State.putXbuf (s : State) (a : Nat) (bs : Bytes) : State := { s with xbuf := s.xbuf.putBytes innerBlank a bs }

/-! ### Writing one register -/

/-- `SALT <- bs` (10_state.md R30). -/
def State.setSalt (s : State) (bs : Bytes) : State := { s with salt := ByteReg.ofBytes 16 bs }

/-- `CRCR <- v` (10_state.md R35). -/
def State.setCrcr (s : State) (v : BitVec 32) : State := { s with crcr := v }

/-- `CBUF[0..|r|) <- r ; CLEN <- |r|` (10_state.md R36, 42_encode.md R173). -/
def State.storePacked (s : State) (r : Bytes) : State :=
  { s with cbuf := s.cbuf.putBytes innerBlank 0 r, clen := BitVec.ofNat 32 r.length }

/-- `CLEN <- n ; CRCR <- crc ; USZ <- usz` (43_decode.md R204). -/
def State.setParsed (s : State) (n : Nat) (crc : BitVec 32) (usz : Word) : State :=
  { s with clen := BitVec.ofNat 32 n, crcr := crc, usz := usz }

/-- `OLEN <- v` (10_state.md R29). -/
def State.setOlen (s : State) (v : Word) : State := { s with olen := v }

/-- `CTR <- c` (41_ctr_cipher.md R150). -/
def State.setCtr (s : State) (c : BitVec 64) : State := { s with ctr := c }

/-- `ILEN <- v` (10_state.md R27). -/
def State.setIlen (s : State) (v : Word) : State := { s with ilen := v }

/-- `PWLEN <- v` (10_state.md R28). -/
def State.setPwlen (s : State) (v : Word) : State := { s with pwlen := v }

/-- `STATUS.DONE <- 0` (10_state.md R25). -/
def State.clearDone (s : State) : State := { s with done := false }

/-- The host's operations still to come. -/
def State.setHost (s : State) (hs : List HostOp) : State := { s with host := hs }

/-- The turns still to come. -/
def State.setTurns (s : State) (ts : List Turn) : State := { s with turns := ts }

/-! ### The sequencer -/

/-- The encoding of STAGE (10_state.md R40). -/
def Stage.code : Stage → BitVec 5
  | .idle => 0
  | .eCheck => 1
  | .eCrc => 2
  | .eDeflate => 3
  | .eSalt => 4
  | .eKdf => 5
  | .eCipher => 6
  | .eHmac => 7
  | .eEmit => 8
  | .dCheck => 9
  | .dFormat => 10
  | .dKdf => 11
  | .dPvv => 12
  | .dTag => 13
  | .dCipher => 14
  | .dInflate => 15
  | .dCrc => 16
  | .dCommit => 17
  | .finish => 18

/-- The stage a STAGE value names; 19 to 31 name none (10_state.md R40). -/
def Stage.ofCode? (c : BitVec 5) : Option Stage :=
  match c.toNat with
  | 0 => some .idle
  | 1 => some .eCheck
  | 2 => some .eCrc
  | 3 => some .eDeflate
  | 4 => some .eSalt
  | 5 => some .eKdf
  | 6 => some .eCipher
  | 7 => some .eHmac
  | 8 => some .eEmit
  | 9 => some .dCheck
  | 10 => some .dFormat
  | 11 => some .dKdf
  | 12 => some .dPvv
  | 13 => some .dTag
  | 14 => some .dCipher
  | 15 => some .dInflate
  | 16 => some .dCrc
  | 17 => some .dCommit
  | 18 => some .finish
  | _ => none

/-- `STAGE <- target` (00_scope.md R17). -/
def State.goto (s : State) (st : Stage) : State := { s with stage := st.code }

/-- CTR_INIT (41_ctr_cipher.md R151). -/
def State.ctrInit (s : State) : State := { s with ctr := 0, bidx := 0 }

/-- Enter E_CIPHER or D_CIPHER: CTR_INIT is performed on entry, before the first block (41_ctr_cipher.md R151).
DEDUCED: log 10. -/
def State.enterCipher (s : State) (st : Stage) : State := (s.ctrInit).goto st

/-! ### Ending a command -/

/-- The codes of 60_exceptions.md R260. -/
def ErrKind.code : ErrKind → BitVec 4
  | .params => 1
  | .salt => 2
  | .keyDerivation => 3
  | .compression => 4
  | .cipher => 5
  | .hmac => 6
  | .badFormat => 7
  | .wrongPassword => 8
  | .tamper => 9
  | .integrity => 10
  | .badCommand => 11

/-- `raise K`: no later stage runs, FINISH(K) comes next (00_scope.md R18, 60_exceptions.md R262). -/
def State.raise (s : State) (k : ErrKind) : State := { s with raised := some k, stage := Stage.finish.code }

/-- The end of E_EMIT or D_COMMIT: FINISH with success comes next (60_exceptions.md R262). -/
def State.succeed (s : State) : State := { s with raised := none, stage := Stage.finish.code }

/-- WIPE (60_exceptions.md R265). -/
def State.wipe (s : State) : State :=
  { s with
    salt := ByteReg.zero 16, akey := ByteReg.zero 32, hkey := ByteReg.zero 32, pvv := ByteReg.zero 2
    dk := ByteReg.zero 66, hmd := ByteReg.zero 20, tagc := ByteReg.zero 10, ks := ByteReg.zero 16
    cbuf := [], xbuf := [], ctr := 0, bidx := 0, crcr := 0, usz := 0, clen := 0 }

/-- The code FINISH(K) writes to ERR (60_exceptions.md R262). -/
def finishCode : Option ErrKind → BitVec 4
  | none => 0
  | some k => k.code

/-- The length FINISH(K) leaves in OLEN (60_exceptions.md R262). -/
def finishOlen (olen : Word) : Option ErrKind → Word
  | none => olen
  | some _ => 0

/-- FINISH(K) (60_exceptions.md R262): ERR, OLEN, WIPE, BUSY, DONE, STAGE. -/
def State.finish (s : State) : State :=
  { s.wipe with
    err := finishCode s.raised, olen := finishOlen s.olen s.raised
    busy := false, done := true, stage := Stage.idle.code, raised := none }

/-! ### Starting a command, and reset -/

/-- The dispatch of ENCODE or DECODE (44_host_access.md R246). -/
def State.startCommand (s : State) (first : Stage) : State :=
  { s with done := false, err := 0, olen := 0, busy := true, stage := first.code }

/-- The dispatch of a reserved code: it ends at once with BadCommand (44_host_access.md R246, R247). -/
def State.endBadCommand (s : State) : State := { s with done := true, err := ErrKind.badCommand.code, olen := 0 }

/-- The reset input (70_reset_and_hazards.md R290 to R293): every register and internal state takes its reset value, and
the host buffers are unspecified, so no byte counts as written. What is outside the block goes on: the host's
operations, the interleaving, the free draws. DEDUCED: logs 14, 15. -/
def State.resetBlock (s : State) : State :=
  { State.reset with host := s.host, turns := s.turns, draws := s.draws }

end Sys2Proof.Machine
end

