-- ==== Sys2Proof/Machine/Flags.lean ====
section
/-! DEFINITION. The register words the host reads, the bits it writes, and the irq line (10_state.md R20 to R29, R33, R34). -/

namespace Sys2Proof.Machine

/-- A flag as a bit. -/
def bit (b : Bool) : Word := if b then 1 else 0

/-- The effective CTRL.TBYP: hardwired to 0 without the test hook (10_state.md R34). -/
def State.bypass (p : Platform) (s : State) : Bool := p.testHook && s.tbyp

/-- CTRL as read: TBYP in bit 0, IE in bit 1, reserved bits 0 (10_state.md R21, R23). -/
def State.ctrlWord (p : Platform) (s : State) : Word := bit (s.bypass p) ||| (bit s.ie <<< 1)

/-- STATUS as read: BUSY in bit 0, DONE in bit 1, reserved bits 0 (10_state.md R21, R24, R25). -/
def State.statusWord (s : State) : Word := bit s.busy ||| (bit s.done <<< 1)

/-- ERR as read: CODE in bits 3:0, reserved bits 0 (10_state.md R21, R26). -/
def State.errWord (s : State) : Word := zext 32 s.err

/-- OLEN as read: 0 while a command runs (70_reset_and_hazards.md R297), the output length after it (10_state.md R29).
DEDUCED, unsafe: log 9. -/
def State.olenWord (s : State) : Word := if s.busy then 0 else s.olen

/-- The interrupt line: irq = STATUS.DONE AND CTRL.IE (10_state.md R33, 60_exceptions.md R269). -/
def State.irq (s : State) : Bool := s.done && s.ie

/-- A write to CTRL: IE always, TBYP only with the test hook, reserved bits ignored (44_host_access.md R242). -/
def State.writeCtrl (p : Platform) (s : State) (v : Word) : State :=
  { s with ie := v.getLsbD 1, tbyp := if p.testHook then v.getLsbD 0 else s.tbyp }

/-- A write to STATUS: bit 1 set clears DONE, nothing else (44_host_access.md R242, R249). -/
def State.writeStatus (s : State) (v : Word) : State := if v.getLsbD 1 then s.clearDone else s

end Sys2Proof.Machine
end

