-- ==== Sys2Proof/Machine/Operands.lean ====
section
/-! DEFINITION. The operands of ENCODE and DECODE (30_encoding.md R93): lengths, the plaintext, the password, and the fields
of a container in IBUF. -/

namespace Sys2Proof.Machine

/-- The operands of either command are in order: neither empty nor longer than its buffer
(42_encode.md R171, 43_decode.md R201). -/
def State.operandsOk (p : Platform) (s : State) : Bool :=
  decide (s.ilen ≠ 0) && decide (s.pwlen ≠ 0) && decide (s.ilen.toNat ≤ p.ibufSize) &&
    decide (s.pwlen.toNat ≤ p.pbufSize)

/-- `IBUF[0..ILEN)`, the plaintext of ENCODE (42_encode.md R170). -/
def State.plaintext (p : Platform) (s : State) : Bytes := s.bytesAt p ibufBase s.ilen.toNat

/-- `PBUF[0..PWLEN)`, the password, unchanged (10_state.md R42). -/
def State.password (p : Platform) (s : State) : Bytes := s.bytesAt p pbufBase s.pwlen.toNat

/-- `Z[o..o+n)` of the container Z = IBUF[0..ILEN) (43_decode.md R200). -/
def State.container (p : Platform) (s : State) (o n : Nat) : Bytes := s.bytesAt p (ibufBase + o) n

/-- `CBUF[0..CLEN)` (10_state.md R36). -/
def State.payload (s : State) : Bytes := s.cbuf.innerBytes 0 s.clen.toNat

/-- `XBUF[0..USZ)` (10_state.md R37). -/
def State.inflated (s : State) : Bytes := s.xbuf.innerBytes 0 s.usz.toNat

end Sys2Proof.Machine
end

