-- ==== Sys2Proof/Machine/Bus.lean ====
section
/-! DEFINITION. The host bus slave port (20_memory.md R60 to R70, 44_host_access.md R240 to R245): which accesses get BUSERR, what
reads return, what writes store. A write to CMD is run by `Step.lean` through `exec`. -/

namespace Sys2Proof.Machine

/-- The resources of the address map (20_memory.md R61). -/
inductive Resource where
  | registers
  | pbuf
  | ibuf
  | obuf
  deriving DecidableEq, Repr

/-- The resource that holds all `n` bytes from address `a`, if one does; none is a hole. Of the register
window only the registers at 0x00 to 0x1B exist (20_memory.md R61, R62, R67). -/
def resourceOf (p : Platform) (a n : Nat) : Option Resource :=
  if a + n ≤ 0x1C then some .registers
  else if pbufBase ≤ a ∧ a + n ≤ pbufBase + p.pbufSize then some .pbuf
  else if ibufBase ≤ a ∧ a + n ≤ ibufBase + p.ibufSize then some .ibuf
  else if obufBase ≤ a ∧ a + n ≤ obufBase + p.obufSize then some .obuf
  else none

/-- The address of an access. -/
def BusOp.addr : BusOp → Word
  | .read a _ => a
  | .write a _ _ => a

/-- The width of an access in bytes. -/
def BusOp.size : BusOp → Nat
  | .read _ n => n
  | .write _ n _ => n

/-- The access is a write. -/
def BusOp.isWrite : BusOp → Bool
  | .read _ _ => false
  | .write _ _ _ => true

/-- The widths the bus has (20_memory.md R67). -/
def legalWidth (n : Nat) : Bool := n == 1 || n == 2 || n == 4

/-- Whether an access of this width and direction is answered OKAY by a resource (44_host_access.md R240):
registers take 4 bytes and no write while BUSY; buffers take no access while BUSY, and OBUF no write. -/
def Resource.accepts (busy : Bool) (n : Nat) (isWrite : Bool) : Resource → Bool
  | .registers => n == 4 && !(busy && isWrite)
  | .pbuf => !busy
  | .ibuf => !busy
  | .obuf => !busy && !isWrite

/-- The access gets BUSERR (44_host_access.md R240). -/
def State.busErr (p : Platform) (s : State) (op : BusOp) : Bool :=
  match resourceOf p op.addr.toNat op.size with
  | none => true
  | some r =>
    !(legalWidth op.size && decide (op.addr.toNat % op.size = 0) && r.accepts s.busy op.size op.isWrite)

/-- The slave port's answer. -/
def State.respond (s : State) (op : BusOp) (okay : Bool) (data : Word) : State :=
  { s with last := some { op := op, okay := okay, data := data } }

/-- What a register read returns (44_host_access.md R241; 10_state.md R22 to R29). CMD reads 0. -/
def State.readRegister (p : Platform) (s : State) (a : Nat) : Word :=
  if a = 0x04 then s.ctrlWord p
  else if a = 0x08 then s.statusWord
  else if a = 0x0C then s.errWord
  else if a = 0x10 then s.ilen
  else if a = 0x14 then s.pwlen
  else if a = 0x18 then s.olenWord
  else 0

/-- What a register write other than to CMD does (44_host_access.md R242): ERR and OLEN ignore it. -/
def State.writeRegister (p : Platform) (s : State) (a : Nat) (v : Word) : State :=
  if a = 0x04 then s.writeCtrl p v
  else if a = 0x08 then s.writeStatus v
  else if a = 0x10 then s.setIlen v
  else if a = 0x14 then s.setPwlen v
  else s

/-- The data word of bytes read at rising addresses, zero-extended (44_host_access.md R244, 20_memory.md R66). -/
def wordOfBytes (bs : Bytes) : Word := rd32 bs 0

/-- The `n` low bytes of a data word, lowest address first (44_host_access.md R243). -/
def bytesOfWord (v : Word) (n : Nat) : Bytes := (le32 v).take n

/-- A buffer read with no BUSERR (44_host_access.md R244). -/
def State.readBuffer (p : Platform) (s : State) (op : BusOp) : State :=
  (s.drew op.size).respond op true (wordOfBytes (s.bytesAt p op.addr.toNat op.size))

/-- A buffer write with no BUSERR (44_host_access.md R243). -/
def State.writeBuffer (s : State) (op : BusOp) (v : Word) : State :=
  (s.putHost op.addr.toNat (bytesOfWord v op.size)).respond op true 0

/-- A read with no BUSERR. Codes 12 to 15 in ERR are never written; reading one is a fault (60_exceptions.md R261). -/
def State.busRead (p : Platform) (s : State) (op : BusOp) : Result :=
  match resourceOf p op.addr.toNat op.size with
  | some .registers =>
    if op.addr.toNat = 0x0C ∧ 12 ≤ s.err.toNat then .fault .errCodeNeverWritten
    else .next (s.respond op true (s.readRegister p op.addr.toNat))
  | _ => .next (s.readBuffer p op)

/-- A write with no BUSERR to any address but CMD's. -/
def State.busWrite (p : Platform) (s : State) (op : BusOp) (v : Word) : State :=
  match resourceOf p op.addr.toNat op.size with
  | some .registers => (s.writeRegister p op.addr.toNat v).respond op true 0
  | _ => s.writeBuffer op v

end Sys2Proof.Machine
end

