-- ==== Sys2Proof/Machine/Commands.lean ====
section
/-! DEFINITION. The meanings of the command rows: the dispatch of a CMD write (44_host_access.md R246 to R248). A CMD write while
BUSY = 1 gets BUSERR and dispatches nothing (20_memory.md R69), in every meaning. -/

namespace Sys2Proof.Machine

/-- The dispatch, unless a command runs (44_host_access.md R246, 20_memory.md R69). -/
def State.dispatch (s : State) (start : State → State) : Result := .next (if s.busy then s else start s)

/-- NOP (44_host_access.md R248): no state changes. -/
def execNop (_junk : BitVec 24) (s : State) : Result := s.dispatch fun s => s

/-- ENCODE (44_host_access.md R246, 42_encode.md R170): the engine's next step is E_CHECK. -/
def execEncode (_junk : BitVec 24) (s : State) : Result := s.dispatch fun s => s.startCommand .eCheck

/-- DECODE (44_host_access.md R246, 43_decode.md R200): the engine's next step is D_CHECK. -/
def execDecode (_junk : BitVec 24) (s : State) : Result := s.dispatch fun s => s.startCommand .dCheck

/-- RESERVED_03 (44_host_access.md R247). -/
def execReserved03 (_junk : BitVec 24) (s : State) : Result := s.dispatch State.endBadCommand

/-- RESERVED_04_07 (44_host_access.md R247). -/
def execReserved04To07 (_op : Byte) (_junk : BitVec 24) (s : State) : Result := s.dispatch State.endBadCommand

/-- RESERVED_08_0F (44_host_access.md R247). -/
def execReserved08To0F (_op : Byte) (_junk : BitVec 24) (s : State) : Result := s.dispatch State.endBadCommand

/-- RESERVED_10_1F (44_host_access.md R247). -/
def execReserved10To1F (_op : Byte) (_junk : BitVec 24) (s : State) : Result := s.dispatch State.endBadCommand

/-- RESERVED_20_3F (44_host_access.md R247). -/
def execReserved20To3F (_op : Byte) (_junk : BitVec 24) (s : State) : Result := s.dispatch State.endBadCommand

/-- RESERVED_40_7F (44_host_access.md R247). -/
def execReserved40To7F (_op : Byte) (_junk : BitVec 24) (s : State) : Result := s.dispatch State.endBadCommand

/-- RESERVED_80_FF (44_host_access.md R247). -/
def execReserved80ToFF (_op : Byte) (_junk : BitVec 24) (s : State) : Result := s.dispatch State.endBadCommand

end Sys2Proof.Machine
end

