-- ==== Sys2Proof/Machine/Records.lean ====
section
/-! DEFINITION. The container's records (30_encoding.md R94 to R111): their bytes, writing them into OBUF (E_EMIT,
42_encode.md R178), checking them in IBUF (D_FORMAT, 43_decode.md R202 to R204), and the meaning of each record row. -/

namespace Sys2Proof.Machine

/-! ### The bytes of each record -/

/-- Version needed, and version made by (30_encoding.md R95, R101, R102). -/
def versionNeeded : BitVec 16 := 0x0033
/-- The general purpose bit flag: bit 0, encrypted (30_encoding.md R96). -/
def purposeFlag : BitVec 16 := 0x0001
/-- The compression-method marker 99 (30_encoding.md R95). -/
def methodMarker : BitVec 16 := 99
/-- The filename length (30_encoding.md R95). -/
def nameLength : BitVec 16 := 4
/-- The extra field length (30_encoding.md R95). -/
def extraLength : BitVec 16 := 11
/-- The AE extra data size (30_encoding.md R99). -/
def aeDataSize : BitVec 16 := 7
/-- The AE version, AE-1 (30_encoding.md R99). -/
def aeVersion : BitVec 16 := 1
/-- The vendor id "AE" (30_encoding.md R99). -/
def vendorId : Bytes := [0x41, 0x45]
/-- The AES strength byte, 256 bits (30_encoding.md R99). -/
def aesStrength : Byte := 3
/-- The actual compression method, DEFLATE (30_encoding.md R99). -/
def deflateMethod : BitVec 16 := 8

/-- The fields both headers have, from the general purpose bit flag to the extra field length, 24 bytes, for a payload of `n`
bytes and a plaintext of `usize` bytes with CRC-32 `crc` (30_encoding.md R95, R96, R97, R101, R105). -/
def sharedFields (p : Platform) (crc : BitVec 32) (n usize : Nat) : Bytes :=
  le16 purposeFlag ++ le16 methodMarker ++ le16 p.mtime ++ le16 p.mdate ++ le32 crc ++
    le32 (BitVec.ofNat 32 (n + 28)) ++ le32 (BitVec.ofNat 32 usize) ++ le16 nameLength ++ le16 extraLength

/-- The local file header's fixed part, 30 bytes (30_encoding.md R95). -/
def lfhBytes (p : Platform) (crc : BitVec 32) (n usize : Nat) : Bytes :=
  le32 sigLfh ++ le16 versionNeeded ++ sharedFields p crc n usize

/-- The AE extra field, 11 bytes (30_encoding.md R99). -/
def aeExtraBytes : Bytes :=
  le16 idAeExtra ++ le16 aeDataSize ++ le16 aeVersion ++ vendorId ++ [aesStrength] ++ le16 deflateMethod

/-- The central file header with its file name and its AE extra field, 61 bytes (30_encoding.md R101, R102). -/
def cfhBytes (p : Platform) (crc : BitVec 32) (n usize : Nat) : Bytes :=
  le32 sigCfh ++ le16 versionNeeded ++ le16 versionNeeded ++ sharedFields p crc n usize ++
    le16 0 ++ le16 0 ++ le16 0 ++ le32 0 ++ le32 0 ++ p.label.toList ++ aeExtraBytes

/-- The end-of-central-directory record, 22 bytes (30_encoding.md R103, R104). -/
def eocdBytes (n : Nat) : Bytes :=
  le32 sigEocd ++ le16 0 ++ le16 0 ++ le16 1 ++ le16 1 ++ le32 61 ++ le32 (BitVec.ofNat 32 (n + 73)) ++ le16 0

/-- The whole container (30_encoding.md R94): the reference the engine's E_EMIT is held to. -/
def containerBytes (p : Platform) (crc : BitVec 32) (usize : Nat) (salt pvv cipher tag : Bytes) : Bytes :=
  lfhBytes p crc cipher.length usize ++ p.label.toList ++ aeExtraBytes ++ salt ++ pvv ++ cipher ++ tag ++
    cfhBytes p crc cipher.length usize ++ eocdBytes cipher.length

/-! ### Writing them (E_EMIT) -/

/-- Write bytes at container offset `o` of OBUF. -/
def State.emit (s : State) (o : Nat) (bs : Bytes) : State := s.putHost (obufBase + o) bs

/-- The local file header at container offset 0 (30_encoding.md R95). -/
def State.emitLfh (p : Platform) (s : State) : State := s.emit 0 (lfhBytes p s.crcr s.clen.toNat s.ilen.toNat)

/-- The file name at container offset 30 (30_encoding.md R98). -/
def State.emitName (p : Platform) (s : State) : State := s.emit 30 p.label.toList

/-- The AE extra field: the local copy at container offset 34 and the central copy at central offset 50
(30_encoding.md R99, R101). -/
def State.emitAeExtra (s : State) : State :=
  (s.emit 34 aeExtraBytes).emit (73 + s.clen.toNat + 50) aeExtraBytes

/-- The payload: salt, verification value, ciphertext, tag (30_encoding.md R100). -/
def State.emitPayload (s : State) : State :=
  (((s.emit 45 s.salt.toList).emit 61 s.pvv.toList).emit 63 s.payload).emit (63 + s.clen.toNat) s.tagc.toList

/-- The central file header, with its name and extra field, at container offset 73 + N (30_encoding.md R101). -/
def State.emitCfh (p : Platform) (s : State) : State :=
  s.emit (73 + s.clen.toNat) (cfhBytes p s.crcr s.clen.toNat s.ilen.toNat)

/-- The end-of-central-directory record at container offset 134 + N (30_encoding.md R103). -/
def State.emitEocd (s : State) : State := s.emit (134 + s.clen.toNat) (eocdBytes s.clen.toNat)

/-! ### Checking them (D_FORMAT) -/

/-- The payload bounds of D_FORMAT (43_decode.md R204): CS, N, and what the stage writes. -/
def State.checkBounds (p : Platform) (s : State) : State :=
  let z := s.container p 14 12
  let s1 := s.drew 12
  let cs := (rd32 z 4).toNat
  if cs < 28 then s1.raise .badFormat
  else if s.ilen.toNat < 73 + (cs - 28) then s1.raise .badFormat
  else (s1.setParsed (cs - 28) (rd32 z 0) (rd32 z 8)).goto .dKdf

/-- D_FORMAT from the AE extra field on, its header id at container offset 34 being the AE one: data size, version, vendor
and strength (30_encoding.md R109, 43_decode.md R203), then the payload bounds. -/
def State.checkAeExtra (p : Platform) (s : State) : State :=
  let z := s.container p 36 7
  let s1 := s.drew 7
  if rd16 z 0 = aeDataSize ∧ rd16 z 2 = aeVersion ∧ [byteAt z 4, byteAt z 5] = vendorId ∧ byteAt z 6 = aesStrength
  then s1.checkBounds p
  else s1.raise .badFormat

/-- D_FORMAT from the local file header on, its signature at container offset 0 being the right one: method marker, extra field
length, and the extra header id at offset 34 (30_encoding.md R109, 43_decode.md R203), then the AE extra field. -/
def State.checkLfh (p : Platform) (s : State) : State :=
  let method := rd16 (s.container p 8 2) 0
  let s1 := s.drew 2
  let extra := rd16 (s1.container p 28 2) 0
  let s2 := s1.drew 2
  let id := rd16 (s2.container p 34 2) 0
  let s3 := s2.drew 2
  if method = methodMarker ∧ extra = extraLength ∧ decodeExtraId id = some .aeExtra then s3.checkAeExtra p
  else s3.raise .badFormat

/-! ### The record rows -/

/-- A record row acts where the engine handles records (30_encoding.md R111): at E_EMIT it is written, at D_FORMAT
it is checked, and at every other stage no record is touched. DESIGN CHOICE: log 12. -/
def State.onRecord (s : State) (write check : State → State) : State :=
  if s.stage = Stage.eEmit.code then write s
  else if s.stage = Stage.dFormat.code then check s
  else s

/-- LFH (30_encoding.md R95, R109, R111). -/
def State.runLfh (p : Platform) (s : State) : State := s.onRecord (State.emitLfh p) (State.checkLfh p)

/-- CFH (30_encoding.md R101, R111): DECODE never reads it, and a container that begins with it is no container
(43_decode.md R203). -/
def State.runCfh (p : Platform) (s : State) : State := s.onRecord (State.emitCfh p) (fun s => s.raise .badFormat)

/-- EOCD (30_encoding.md R103, R111): as CFH. -/
def State.runEocd (s : State) : State := s.onRecord State.emitEocd (fun s => s.raise .badFormat)

/-- AE_EXTRA (30_encoding.md R99, R109, R111). -/
def State.runAeExtra (p : Platform) (s : State) : State := s.onRecord State.emitAeExtra (State.checkAeExtra p)

/-- The record the engine reads at the head of the container (43_decode.md R202, R203): at D_FORMAT, when the stream
has the 73 bytes of the local part, the word at container offset 0. -/
def State.fetchRecord (p : Platform) (s : State) : Option (Instr × State) :=
  if s.stage = Stage.dFormat.code ∧ 73 ≤ s.ilen.toNat then
    match decode .record (s.container p 0 4) with
    | .ok (i, _) => some (i, s.drew 4)
    | .error _ => none
  else none

/-- The record rows as the engine runs them. No command word is ever read as a record. -/
def State.runRecord (p : Platform) (i : Instr) (s : State) : State :=
  match i with
  | .lfh => s.runLfh p
  | .cfh => s.runCfh p
  | .eocd => s.runEocd
  | .aeExtra => s.runAeExtra p
  | .nop _ => s
  | .encode _ => s
  | .decode _ => s
  | .reserved03 _ => s
  | .reserved04To07 _ _ => s
  | .reserved08To0F _ _ => s
  | .reserved10To1F _ _ => s
  | .reserved20To3F _ _ => s
  | .reserved40To7F _ _ => s
  | .reserved80ToFF _ _ => s

/-- The meaning of the row LFH. -/
def execLfh (s : State) : Result := .next (s.runLfh Config.platform)

/-- The meaning of the row CFH. -/
def execCfh (s : State) : Result := .next (s.runCfh Config.platform)

/-- The meaning of the row EOCD. -/
def execEocd (s : State) : Result := .next s.runEocd

/-- The meaning of the row AE_EXTRA. -/
def execAeExtra (s : State) : Result := .next (s.runAeExtra Config.platform)

end Sys2Proof.Machine
end

