-- ==== Sys2Proof/Machine/Dispatch.lean ====
section
/-! DEFINITION. One arm per row of the opcode table. -/

namespace Sys2Proof.Machine

def exec (i : Instr) (s : State) : Host.Outcome State Fault Refusal :=
  match i with
  | .nop junk => Sys2Proof.Machine.execNop junk s
  | .encode junk => Sys2Proof.Machine.execEncode junk s
  | .decode junk => Sys2Proof.Machine.execDecode junk s
  | .reserved03 junk => Sys2Proof.Machine.execReserved03 junk s
  | .reserved04To07 op junk => Sys2Proof.Machine.execReserved04To07 op junk s
  | .reserved08To0F op junk => Sys2Proof.Machine.execReserved08To0F op junk s
  | .reserved10To1F op junk => Sys2Proof.Machine.execReserved10To1F op junk s
  | .reserved20To3F op junk => Sys2Proof.Machine.execReserved20To3F op junk s
  | .reserved40To7F op junk => Sys2Proof.Machine.execReserved40To7F op junk s
  | .reserved80ToFF op junk => Sys2Proof.Machine.execReserved80ToFF op junk s
  | .lfh => Sys2Proof.Machine.execLfh s
  | .cfh => Sys2Proof.Machine.execCfh s
  | .eocd => Sys2Proof.Machine.execEocd s
  | .aeExtra => Sys2Proof.Machine.execAeExtra s

end Sys2Proof.Machine
end

