-- ==== Sys2Proof/Machine/Cipher.lean ====
section
/-! DEFINITION. The counter-mode cipher (41_ctr_cipher.md): CTR_BLOCK over CBUF[0..CLEN) with the key AKEY. -/

namespace Sys2Proof.Machine

/-- The counter block CB(c): le64(c) and eight zero bytes (41_ctr_cipher.md R152). -/
def counterBlock (c : BitVec 64) : Bytes := le64 c ++ List.replicate 8 0

/-- The number of lanes written, min(16, n − base) (41_ctr_cipher.md R153, R156). -/
def laneCount (base n : Nat) : Nat := min 16 (n - base)

/-- The XOR mux: the new bytes of lanes 0 to m − 1 (41_ctr_cipher.md R156). -/
def xorLanes (buf : Memory) (base m : Nat) (ks : ByteReg 16) : Bytes :=
  (List.range m).map fun i => buf.inner (base + i) ^^^ byteAt ks.toList i

/-- The number of blocks of `n` bytes, ⌈n/16⌉ (41_ctr_cipher.md R157). -/
def blockCount (n : Nat) : Nat := (n + 15) / 16

/-- The engine steps the cipher stage takes for `n` bytes: one a block, and one for no block (41_ctr_cipher.md R157). -/
def cipherSteps (n : Nat) : Nat := max 1 (blockCount n)

/-- Byte `k` of the keystream: lane k mod 16 of AES(K, CB(⌊k/16⌋ + 1)) (41_ctr_cipher.md R154, R155). -/
def keystreamByte (p : Platform) (key : Bytes) (k : Nat) : Byte :=
  byteAt (p.aes key (counterBlock (BitVec.ofNat 64 (k / 16 + 1)))).toList (k % 16)

/-- A byte string XORed with the keystream: the reference the engine's block by block form is held to
(41_ctr_cipher.md R150, R158). -/
def cipherBytes (p : Platform) (key : Bytes) (bs : Bytes) : Bytes :=
  (List.range bs.length).map fun k => byteAt bs k ^^^ keystreamByte p key k

/-- The keystream block the next block takes, AES(AKEY, CB(CTR + 1)) (41_ctr_cipher.md R154, R155). -/
def State.nextKeystream (p : Platform) (s : State) : ByteReg 16 := p.aes s.akey.toList (counterBlock (s.ctr + 1))

/-- The first byte of the next block (41_ctr_cipher.md R153). -/
def State.blockBase (s : State) : Nat := 16 * s.bidx.toNat

/-- The state after one block: CTR, KS, the lanes of CBUF, BIDX (41_ctr_cipher.md R153). -/
def State.afterBlock (p : Platform) (s : State) : State :=
  { s with
    draws := s.draws + 1, ctr := s.ctr + 1, ks := s.nextKeystream p, bidx := s.bidx + 1
    cbuf := s.cbuf.putBytes innerBlank s.blockBase
      (xorLanes s.cbuf s.blockBase (laneCount s.blockBase s.clen.toNat) (s.nextKeystream p)) }

/-- One engine step of E_CIPHER or D_CIPHER: CTR_BLOCK, and on to `next` after the last block; with nothing left
to do (n = 0) on to `next` without a call (41_ctr_cipher.md R153 to R157). The counter's wrap is refused (R160, D34): log 16. -/
def State.ctrBlock (p : Platform) (next : Stage) (s : State) : Result :=
  if s.clen.toNat ≤ s.blockBase then .next (s.goto next)
  else if s.ctr = BitVec.allOnes 64 then .refused .counterWrap
  else if p.fails s.draws = true then .next (((s.drew 1).setCtr (s.ctr + 1)).raise .cipher)
  else if s.clen.toNat ≤ s.blockBase + 16 then .next ((s.afterBlock p).goto next)
  else .next (s.afterBlock p)

end Sys2Proof.Machine
end

