-- ==== Sys2Proof/Machine/Kdf.lean ====
section
/-! DEFINITION. The key-derivation micro-operation (40_key_derivation.md). -/

namespace Sys2Proof.Machine

/-- KDF_ITER (00_scope.md R10, 40_key_derivation.md R141). -/
def kdfIterations : Nat := 1000

/-- KDF_OUT_LEN (00_scope.md R10, 40_key_derivation.md R141). -/
def kdfOutLen : Nat := 66

/-- DK and its slices: AKEY = DK[0..32), HKEY = DK[32..64), PVV = DK[64..66) (40_key_derivation.md R140, R142). -/
def State.sliceKeys (s : State) (dk : Bytes) : State :=
  { s with
    dk := ByteReg.ofBytes 66 dk
    akey := ByteReg.ofBytes 32 (dk.take 32)
    hkey := ByteReg.ofBytes 32 ((dk.drop 32).take 32)
    pvv := ByteReg.ofBytes 2 ((dk.drop 64).take 2) }

/-- KDF(PBUF[0..PWLEN), SALT), then `after` (the command's next stage); KeyDerivation when the provider fails or
does not answer 66 bytes (40_key_derivation.md R140, R144). -/
def State.kdf (p : Platform) (after : State → State) (s : State) : State :=
  let r := p.kdf (s.password p) s.salt.toList kdfIterations kdfOutLen
  let s1 := s.drew s.pwlen.toNat
  let s2 := s1.drew 1
  if p.fails s1.draws = true ∨ r.length ≠ kdfOutLen then s2.raise .keyDerivation
  else after (s2.sliceKeys r)

end Sys2Proof.Machine
end

