-- ==== Sys2Proof/Machine/Encode.lean ====
section
/-! DEFINITION. The stages of ENCODE (42_encode.md R170 to R178). -/

namespace Sys2Proof.Machine

/-- E_CHECK (42_encode.md R171). -/
def State.eCheck (p : Platform) (s : State) : State :=
  if s.operandsOk p then s.goto .eCrc else s.raise .params

/-- E_CRC (42_encode.md R172). -/
def State.eCrc (p : Platform) (s : State) : State :=
  ((s.drew s.ilen.toNat).setCrcr (p.crc (s.plaintext p))).goto .eDeflate

/-- E_DEFLATE (42_encode.md R173). -/
def State.eDeflate (p : Platform) (s : State) : State :=
  let s1 := s.drew s.ilen.toNat
  let r := p.deflate s1.draws (s.plaintext p)
  let s2 := s1.drew 1
  if p.fails s1.draws = true ∨ p.cbufSize < r.length then s2.raise .compression
  else (s2.storePacked r).goto .eSalt

/-- E_SALT (42_encode.md R174). -/
def State.eSalt (p : Platform) (s : State) : State :=
  let r := p.rng s.draws 16
  let s1 := s.drew 1
  if p.fails s.draws = true ∨ r.length ≠ 16 then s1.raise .salt
  else (s1.setSalt r).goto .eKdf

/-- E_KDF (42_encode.md R175). -/
def State.eKdf (p : Platform) (s : State) : State := s.kdf p fun s => s.enterCipher .eCipher

/-- E_CIPHER, one block (42_encode.md R176). -/
def State.eCipher (p : Platform) (s : State) : Result := s.ctrBlock p .eHmac

/-- The digest and the tag: `HMD <- r ; TAGC <- HMD[0..10)` (42_encode.md R177, 43_decode.md R207). -/
def State.keepDigest (s : State) (r : Bytes) : State :=
  { s with hmd := ByteReg.ofBytes 20 r, tagc := ByteReg.ofBytes 10 (r.take 10) }

/-- E_HMAC (42_encode.md R177). -/
def State.eHmac (p : Platform) (s : State) : State :=
  let r := p.hmac s.hkey.toList s.payload
  let s1 := s.drew 1
  if p.fails s.draws = true ∨ r.length ≠ 20 then s1.raise .hmac
  else (s1.keepDigest r).goto .eEmit

/-- All the records of the container into OBUF (42_encode.md R178, 30_encoding.md R94). -/
def State.emitAll (p : Platform) (s : State) : State :=
  (((((s.emitLfh p).emitName p).emitAeExtra).emitPayload).emitCfh p).emitEocd

/-- E_EMIT (42_encode.md R178). -/
def State.eEmit (p : Platform) (s : State) : State :=
  ((s.emitAll p).setOlen (BitVec.ofNat 32 (s.clen.toNat + 156))).succeed

end Sys2Proof.Machine
end

