-- ==== Sys2Proof/Machine/Unpack.lean ====
section
/-! DEFINITION. The stages of DECODE (43_decode.md R200 to R212). -/

namespace Sys2Proof.Machine

/-- D_CHECK (43_decode.md R201). -/
def State.dCheck (p : Platform) (s : State) : State :=
  if s.operandsOk p then s.goto .dFormat else s.raise .params

/-- D_FORMAT (43_decode.md R202 to R204): the length floor, the record at the container's head, and with it every other check. -/
def State.dFormat (p : Platform) (s : State) : State :=
  if s.ilen.toNat < 73 then s.raise .badFormat
  else
    match s.fetchRecord p with
    | some (i, s1) => s1.runRecord p i
    | none => (s.drew 4).raise .badFormat

/-- D_KDF (43_decode.md R205). -/
def State.dKdf (p : Platform) (s : State) : State :=
  ((s.drew 16).setSalt (s.container p 45 16)).kdf p fun s => s.goto .dPvv

/-- D_PVV (43_decode.md R206). -/
def State.dPvv (p : Platform) (s : State) : State :=
  let s1 := s.drew 2
  if s.container p 61 2 = s.pvv.toList then s1.goto .dTag else s1.raise .wrongPassword

/-- D_TAG (43_decode.md R207). -/
def State.dTag (p : Platform) (s : State) : State :=
  if s.bypass p then s.enterCipher .dCipher
  else
    let n := s.clen.toNat
    let r := p.hmac s.hkey.toList (s.container p 63 n)
    let s1 := s.drew n
    let s2 := s1.drew 1
    if p.fails s1.draws = true ∨ r.length ≠ 20 then s2.raise .hmac
    else
      let s3 := s2.keepDigest r
      let s4 := s3.drew 10
      if s3.tagc.toList = s3.container p (63 + n) 10 then s4.enterCipher .dCipher else s4.raise .tamper

/-- D_CIPHER's copy `CBUF[0..N) <- Z[63..63+N)`, made before the first block (43_decode.md R208). DEDUCED: log 11. -/
def State.loadCiphertext (p : Platform) (s : State) : State :=
  (s.drew s.clen.toNat).putCbuf 0 (s.container p 63 s.clen.toNat)

/-- D_CIPHER, one block; the first one (BIDX = 0) comes after the copy (43_decode.md R208). -/
def State.dCipher (p : Platform) (s : State) : Result :=
  (if s.bidx = 0 then s.loadCiphertext p else s).ctrBlock p .dInflate

/-- D_INFLATE (43_decode.md R209, R210). -/
def State.dInflate (p : Platform) (s : State) : State :=
  if p.obufSize < s.usz.toNat then s.raise .compression
  else
    let r := p.inflate s.payload s.usz.toNat
    let s1 := s.drew 1
    if p.fails s.draws = true ∨ r.length ≠ s.usz.toNat then s1.raise .compression
    else (s1.putXbuf 0 r).goto .dCrc

/-- D_CRC (43_decode.md R211). -/
def State.dCrc (p : Platform) (s : State) : State :=
  if p.crc s.inflated = s.crcr then s.goto .dCommit else s.raise .integrity

/-- D_COMMIT (43_decode.md R212). -/
def State.dCommit (s : State) : State := ((s.putHost obufBase s.inflated).setOlen s.usz).succeed

end Sys2Proof.Machine
end

