-- ==== Sys2Proof/Machine/Engine.lean ====
section
/-! DEFINITION. One engine step: the stage that STAGE names (10_state.md R41). -/

namespace Sys2Proof.Machine

/-- The engine step at each stage. At IDLE the engine makes no step (60_exceptions.md R280). -/
def State.runStage (p : Platform) (s : State) : Stage → Result
  | .idle => .next s
  | .eCheck => .next (s.eCheck p)
  | .eCrc => .next (s.eCrc p)
  | .eDeflate => .next (s.eDeflate p)
  | .eSalt => .next (s.eSalt p)
  | .eKdf => .next (s.eKdf p)
  | .eCipher => s.eCipher p
  | .eHmac => .next (s.eHmac p)
  | .eEmit => .next (s.eEmit p)
  | .dCheck => .next (s.dCheck p)
  | .dFormat => .next (s.dFormat p)
  | .dKdf => .next (s.dKdf p)
  | .dPvv => .next (s.dPvv p)
  | .dTag => .next (s.dTag p)
  | .dCipher => s.dCipher p
  | .dInflate => .next (s.dInflate p)
  | .dCrc => .next (s.dCrc p)
  | .dCommit => .next s.dCommit
  | .finish => .next s.finish

/-- One engine step (10_state.md R41). STAGE values 19 to 31 are never taken; reaching one is a fault (93 I16). -/
def State.engine (p : Platform) (s : State) : Result :=
  match Stage.ofCode? s.stage with
  | some st => s.runStage p st
  | none => .fault .stageNeverTaken

/-- `k` engine steps, the host waiting. -/
def State.engineSteps (p : Platform) : Nat → State → Result
  | 0, s => .next s
  | k + 1, s =>
    match s.engine p with
    | .next s' => s'.engineSteps p k
    | .fault r => .fault r
    | .refused r => .refused r

end Sys2Proof.Machine
end

