-- ==== Sys2Proof/Machine/Turns.lean ====
section
/-! DEFINITION. What one turn does: a host access, an engine step, a stall or a reset (20_memory.md R71, R73); and the bytes of an
instruction word where the engine finds it. -/

namespace Sys2Proof.Machine

/-- One host access (44_host_access.md R240 to R246). A write to CMD runs the command word it carries. -/
def State.access (s : State) (op : BusOp) : Result :=
  if s.busErr Config.platform op then .next (s.respond op false 0)
  else
    match op with
    | .read a n => s.busRead Config.platform (.read a n)
    | .write a n v =>
      if a.toNat = 0x00 then exec (decodeCommand v) (s.respond (.write a n v) true 0)
      else .next (s.busWrite Config.platform (.write a n v) v)

/-- The data the last access returned. -/
def State.lastData (s : State) : Word :=
  match s.last with
  | some x => x.data
  | none => 0

/-- The host moves: its next bus operation; a `poll` stays until its read gives the value (30_encoding.md R114);
with nothing left to issue nothing happens. -/
def State.hostTurn (s : State) : Result :=
  match s.host with
  | [] => .next s
  | .bus op :: rest => (s.setHost rest).access op
  | .poll a mask val :: rest =>
    match s.access (.read a 4) with
    | .next s' => .next (if s'.lastData &&& mask = val then s'.setHost rest else s')
    | .fault r => .fault r
    | .refused r => .refused r

/-- The engine moves. At D_FORMAT it runs the record it reads at the container's head; every other stage is
`State.engine`. -/
def State.engineTurn (s : State) : Result :=
  match s.fetchRecord Config.platform with
  | some (i, s1) => exec i s1
  | none => s.engine Config.platform

/-- The host access that falls in the same step as a reset has no effect (70_reset_and_hazards.md R292). A `poll` goes on
reading afterwards. -/
def dropAccess : List HostOp → List HostOp
  | .bus _ :: rest => rest
  | hs => hs

/-- One turn. -/
def State.turn (s : State) : Turn → Result
  | .host => s.hostTurn
  | .engine => s.engineTurn
  | .stall => .next s
  | .reset false => .next s.resetBlock
  | .reset true => .next (s.resetBlock.setHost (dropAccess s.host))

/-- A container prefix of 73 bytes: the bytes given, then zeros. -/
def paddedPrefix (bs : Bytes) : Bytes := bs ++ List.replicate (73 - bs.length) 0

/-- A local file header with the constants D_FORMAT checks before the extra field (30_encoding.md R109), and zeros in its other
fields and in the file name. -/
def plainLfh : Bytes :=
  le32 sigLfh ++ List.replicate 4 0 ++ le16 methodMarker ++ List.replicate 18 0 ++ le16 extraLength ++ List.replicate 4 0

/-- The bytes the engine finds in IBUF when the word is a record's: at the container's head, or as the extra field behind a
local file header (30_encoding.md R109, R111). -/
def fetchBytes (nbits w : Nat) : Bytes :=
  match tablePlace nbits w with
  | .extra => paddedPrefix (plainLfh ++ le16 (BitVec.ofNat 16 w))
  | _ => paddedPrefix (le32 (BitVec.ofNat 32 w))

end Sys2Proof.Machine
end

