-- ==== Sys2Proof/Machine/Step.lean ====
section
/-! DEFINITION. One step of the whole machine, in the one total order of 20_memory.md R71 and R73. -/

namespace Sys2Proof.Machine

/-- One step: the turn that `turns` names; where it names none, the engine while a command runs and else the host. -/
def step (s : State) : Host.Outcome State Fault Refusal :=
  match s.turns with
  | t :: rest => (s.setTurns rest).turn t
  | [] => if s.busy then s.engineTurn else s.hostTurn

/-- The state in which the next step fetches and runs this word: a command word is the data of the host's next CMD write, to an
idle block; a record's word stands in IBUF where D_FORMAT, the engine's next step, reads it. -/
def State.withFetchWord (s : State) (nbits w : Nat) : State :=
  match tablePlace nbits w with
  | .command =>
    { s with
      busy := false, stage := Stage.idle.code, turns := .host :: s.turns
      host := .bus (.write 0 4 (BitVec.ofNat 32 w)) :: s.host }
  | _ =>
    { s.putHost ibufBase (fetchBytes nbits w) with
      busy := true, stage := Stage.dFormat.code, turns := .engine :: s.turns, ilen := 73 }

end Sys2Proof.Machine
end

