-- ==== Sys2Proof/Machine/HostNotation.lean ====
section
/-! DEFINITION. The host's notation (30_encoding.md R112 to R114): the six mnemonics, the pseudo-instructions and their
expansions, and the transaction record of a bus operation. -/

namespace Sys2Proof.Machine

/-! ### Named addresses and mnemonics (30_encoding.md R112) -/

/-- CMD = 0x00. -/
def addrCMD : Word := 0x00
/-- CTRL = 0x04. -/
def addrCTRL : Word := 0x04
/-- STATUS = 0x08. -/
def addrSTATUS : Word := 0x08
/-- ERR = 0x0C. -/
def addrERR : Word := 0x0C
/-- ILEN = 0x10. -/
def addrILEN : Word := 0x10
/-- PWLEN = 0x14. -/
def addrPWLEN : Word := 0x14
/-- OLEN = 0x18. -/
def addrOLEN : Word := 0x18
/-- PBUF = 0x1000. -/
def addrPBUF : Word := 0x1000
/-- IBUF = 0x0100_0000. -/
def addrIBUF : Word := 0x01000000
/-- OBUF = 0x0200_0000. -/
def addrOBUF : Word := 0x02000000

/-- `sw addr, value`. -/
def sw (a v : Word) : HostOp := .bus (.write a 4 v)
/-- `sh addr, value`. -/
def sh (a v : Word) : HostOp := .bus (.write a 2 v)
/-- `sb addr, value`. -/
def sb (a v : Word) : HostOp := .bus (.write a 1 v)
/-- `lw addr`. -/
def lw (a : Word) : HostOp := .bus (.read a 4)
/-- `lh addr`. -/
def lh (a : Word) : HostOp := .bus (.read a 2)
/-- `lb addr`. -/
def lb (a : Word) : HostOp := .bus (.read a 1)

/-! ### Pseudo-instructions (30_encoding.md R114) -/

/-- `issue OP`. -/
def issue (op : Byte) : List HostOp := [sw addrCMD (zext 32 op)]
/-- `wbytes addr, b0 b1 … bk`. -/
def wbytes (a : Word) : Bytes → List HostOp
  | [] => []
  | b :: bs => sb a (zext 32 b) :: wbytes (a + 1) bs
/-- `rbytes addr, n`. -/
def rbytes (a : Word) : Nat → List HostOp
  | 0 => []
  | n + 1 => lb a :: rbytes (a + 1) n
/-- `poll addr, mask, val`. -/
def poll (a mask val : Word) : List HostOp := [.poll a mask val]
/-- `wait_done`. -/
def waitDone : List HostOp := poll addrSTATUS 0x3 0x2
/-- `clear_done`. -/
def clearDone : List HostOp := [sw addrSTATUS 0x2]

/-! ### Transaction records (30_encoding.md R113) -/

/-- A hexadecimal digit, capitals as in the spec's records. -/
def hexDigit (n : BitVec 4) : Char :=
  match n.toNat with
  | 0 => '0' | 1 => '1' | 2 => '2' | 3 => '3' | 4 => '4' | 5 => '5' | 6 => '6' | 7 => '7'
  | 8 => '8' | 9 => '9' | 10 => 'A' | 11 => 'B' | 12 => 'C' | 13 => 'D' | 14 => 'E' | _ => 'F'

/-- Eight hexadecimal digits, most significant first. -/
def hexWord (v : Word) : List Char :=
  [hexDigit (v.extractLsb' 28 4), hexDigit (v.extractLsb' 24 4), hexDigit (v.extractLsb' 20 4),
   hexDigit (v.extractLsb' 16 4), hexDigit (v.extractLsb' 12 4), hexDigit (v.extractLsb' 8 4),
   hexDigit (v.extractLsb' 4 4), hexDigit (v.extractLsb' 0 4)]

/-- S, the width in bytes; only 1, 2 and 4 have a record. -/
def sizeDigit (n : Nat) : Char := hexDigit (BitVec.ofNat 4 n)

/-- The data word of an access's record: for a read the data returned, for a write the data written (30_encoding.md R113). -/
def Access.carried (x : Access) : Word :=
  match x.op with
  | .read _ _ => x.data
  | .write _ _ v => v

/-- The record `D S AAAAAAAA DDDDDDDD` of an access: for a read the data is what was returned (30_encoding.md R113). -/
def Access.record (x : Access) : List Char :=
  match x.op with
  | .read a n => 'R' :: ' ' :: sizeDigit n :: ' ' :: (hexWord a ++ ' ' :: hexWord x.data)
  | .write a n v => 'W' :: ' ' :: sizeDigit n :: ' ' :: (hexWord a ++ ' ' :: hexWord v)

end Sys2Proof.Machine
end

