-- ==== Sys2Proof/Machine/Transcript.lean ====
section
/-! DEFINITION. The encoding of a program: the list of the transaction records of its accesses, in order (30_encoding.md R113). -/

namespace Sys2Proof.Machine

/-- The encoding of a list of accesses (30_encoding.md R113). -/
def encodeProgram (xs : List Access) : List (List Char) := xs.map Access.record

/-- In this step the host performs an access: it moves, and it has something to issue. Every read of a `poll` is one access
(30_encoding.md R114); an access that a reset overrides has no effect and no answer (70_reset_and_hazards.md R292). -/
def State.issues (s : State) : Bool :=
  match s.turns with
  | .host :: _ => !s.host.isEmpty
  | .engine :: _ => false
  | .stall :: _ => false
  | .reset _ :: _ => false
  | [] => !s.busy && !s.host.isEmpty

/-- The accesses the host performs in the next `k` steps, in order, each with the port's answer; those with BUSERR too. -/
def State.transactions : Nat → State → List Access
  | 0, _ => []
  | k + 1, s =>
    match step s with
    | .next t => if s.issues then t.last.toList ++ t.transactions k else t.transactions k
    | .fault _ => []
    | .refused _ => []

/-- The encoding of what the host does in the next `k` steps (30_encoding.md R113). -/
def State.programEncoding (k : Nat) (s : State) : List (List Char) := encodeProgram (s.transactions k)

end Sys2Proof.Machine
end

