-- ==== Sys2Proof/Safety.lean ====
section
/-! DEFINITION. What a good state is: the invariant every step keeps, and the words statements use for it. -/

namespace Sys2Proof.Machine

/-- Every internal register is zero and CBUF and XBUF hold zeros: what WIPE leaves (60_exceptions.md R265). -/
def State.Wiped (s : State) : Prop := s.wipe = s

/-- A host address of PBUF, IBUF or OBUF (20_memory.md R61). -/
def inBuffers (p : Platform) (a : Nat) : Prop :=
  (pbufBase ≤ a ∧ a < pbufBase + p.pbufSize) ∨ (ibufBase ≤ a ∧ a < ibufBase + p.ibufSize) ∨
    (obufBase ≤ a ∧ a < obufBase + p.obufSize)

/-- The stages at which the operands have been checked (42_encode.md R171, 43_decode.md R201). -/
def operandStages : List Stage :=
  [.eCrc, .eDeflate, .eSalt, .eKdf, .eCipher, .eHmac, .eEmit, .dFormat, .dKdf, .dPvv, .dTag, .dCipher, .dInflate, .dCrc,
    .dCommit]

/-- The stages before CTR_INIT (41_ctr_cipher.md R151). -/
def beforeCipherStages : List Stage :=
  [.eCheck, .eCrc, .eDeflate, .eSalt, .eKdf, .dCheck, .dFormat, .dKdf, .dPvv, .dTag]

/-- The stages of ENCODE at which CLEN is the payload's length (42_encode.md R173). -/
def packedStages : List Stage := [.eSalt, .eKdf, .eCipher, .eHmac, .eEmit]

/-- The stages of DECODE at which CLEN is the payload's length (43_decode.md R204). -/
def parsedStages : List Stage := [.dKdf, .dPvv, .dTag, .dCipher, .dInflate, .dCrc, .dCommit]

/-- STAGE names one of these stages. -/
def State.stageIn (s : State) (l : List Stage) : Prop := ∃ st ∈ l, s.stage = st.code

/-- What holds after reset and after every step. -/
structure State.Inv (p : Platform) (s : State) : Prop where
  /-- The host buffers' memory is in canonical form. -/
  memWf : s.mem.wf hostBlank = true
  /-- Only bytes of PBUF, IBUF and OBUF are ever written (20_memory.md R62, R72). -/
  memIn : ∀ a v, s.mem.read? a = some v → inBuffers p a
  /-- CBUF is in canonical form. -/
  cbufWf : s.cbuf.wf innerBlank = true
  /-- CBUF has CBUF_SIZE bytes (10_state.md R36). -/
  cbufIn : ∀ a v, s.cbuf.read? a = some v → a < p.cbufSize
  /-- XBUF is in canonical form. -/
  xbufWf : s.xbuf.wf innerBlank = true
  /-- XBUF has OBUF_SIZE bytes (10_state.md R37). -/
  xbufIn : ∀ a v, s.xbuf.read? a = some v → a < p.obufSize
  /-- STAGE never exceeds 18 (10_state.md R40, R41). -/
  stageLegal : s.stage.toNat ≤ 18
  /-- BUSY is 1 exactly while STAGE is not IDLE (10_state.md R24, R40). -/
  busyStage : s.busy = decide (s.stage ≠ Stage.idle.code)
  /-- DONE is 0 while a command runs (10_state.md R25). -/
  doneIdle : s.done = true → s.busy = false
  /-- ERR.CODE 12 to 15 are never written (60_exceptions.md R261). -/
  errLegal : s.err.toNat ≤ 11
  /-- ERR is 0 while a command runs (10_state.md R26). -/
  errBusy : s.busy = true → s.err = 0
  /-- Without the test hook TBYP stays 0 (10_state.md R34). -/
  hookOff : p.testHook = false → s.tbyp = false
  /-- No key material or intermediate data outside a command (10_state.md R32, 60_exceptions.md R267). -/
  idleWiped : s.busy = false → s.Wiped
  /-- Only FINISH has a kind to report. -/
  raisedAtFinish : s.stage ≠ Stage.finish.code → s.raised = none
  /-- No stage raises BadCommand (60_exceptions.md R260). -/
  raisedKind : s.raised ≠ some .badCommand
  /-- OLEN is 0 until a command succeeds (10_state.md R29). -/
  olenBusy : s.busy = true → s.stage ≠ Stage.finish.code ∨ s.raised ≠ none → s.olen = 0
  /-- The output fits OBUF (10_state.md R44). -/
  olenFits : s.olen.toNat ≤ p.obufSize
  /-- The operands were checked before every later stage. -/
  operands : s.stageIn operandStages → s.operandsOk p = true
  /-- The counter is 0 before the cipher starts (41_ctr_cipher.md R151). -/
  cipherFresh : s.stageIn beforeCipherStages → s.ctr = 0 ∧ s.bidx = 0
  /-- Block j uses counter j + 1 (41_ctr_cipher.md R154), and the cipher stays in its stage only while blocks are left. -/
  cipherRuns : s.stageIn [.eCipher, .dCipher] →
    s.ctr.toNat = s.bidx.toNat ∧ (s.bidx = 0 ∨ 16 * s.bidx.toNat < s.clen.toNat)
  /-- CTR never exceeds ⌈CBUF_SIZE/16⌉ (41_ctr_cipher.md R160). -/
  ctrBound : 16 * s.ctr.toNat ≤ p.cbufSize + 15
  /-- The compressed payload fits CBUF (42_encode.md R173). -/
  packedFits : s.stageIn packedStages → s.clen.toNat ≤ p.cbufSize
  /-- The container's local part lies inside the input (43_decode.md R204). -/
  parsedFits : s.stageIn parsedStages → 73 + s.clen.toNat ≤ s.ilen.toNat
  /-- The declared size fits XBUF and OBUF (43_decode.md R209). -/
  uszFits : s.stageIn [.dCrc, .dCommit] → s.usz.toNat ≤ p.obufSize

/-- No step is taken from here on: no command runs, the host has nothing to issue, and no turn is prescribed
(60_exceptions.md R280). -/
def State.Quiescent (s : State) : Prop := s.busy = false ∧ s.host = [] ∧ s.turns = []

/-- The host moves in this step, and `ts` are the turns left after it (20_memory.md R73). -/
def State.HostMoves (s : State) (ts : List Turn) : Prop :=
  s.turns = .host :: ts ∨ (s.turns = [] ∧ ts = [] ∧ s.busy = false)

/-- The engine moves in this step, and `ts` are the turns left after it (20_memory.md R73). -/
def State.EngineMoves (s : State) (ts : List Turn) : Prop :=
  s.turns = .engine :: ts ∨ (s.turns = [] ∧ ts = [] ∧ s.busy = true)

/-- A result is a next state (neither a fault nor a refusal). -/
def Proceeds (r : Result) : Prop := ∃ t, r = .next t

/-- The host buffers hold the byte string `bs` from address `a` up, every byte written since reset. -/
def State.Holds (s : State) (a : Nat) (bs : Bytes) : Prop :=
  ∀ k, k < bs.length → s.mem.read? (a + k) = some (byteAt bs k)

/-- Two states agree on everything a host access can depend on: the registers and flags, the host buffers, the free draws, and
the inputs. The internal state of 10_state.md R48 other than STAGE may differ. -/
def State.SameOutside (s t : State) : Prop :=
  s.tbyp = t.tbyp ∧ s.ie = t.ie ∧ s.busy = t.busy ∧ s.done = t.done ∧ s.err = t.err ∧ s.ilen = t.ilen ∧
    s.pwlen = t.pwlen ∧ s.olen = t.olen ∧ s.mem = t.mem ∧ s.last = t.last ∧ s.host = t.host ∧ s.turns = t.turns ∧
    s.draws = t.draws

end Sys2Proof.Machine
end

