-- ==== Sys2Proof/Certificates/Slice0/Obligations.lean ====
section
/-! DEFINITION. The statements for the provers. `Config.platform` is the instance `step` runs; statements about stages hold for
every instance `p`. -/

open Sys2Proof Sys2Proof.Machine

/-! ### Encodings -/

/-- Decoding an encoded well-formed instruction, at the place its word is read, gives it back and leaves the rest
(30_encoding.md R90 to R92, R111). -/
def Obligations.DecodeReadsBackEveryEncoding : Prop :=
  ∀ (i : Instr) (rest : Bytes), i.WellFormed → decode i.place (encode i ++ rest) = .ok (i, rest)

/-- Every 32-bit word is one well-formed command whose encoding is that word (30_encoding.md R91, R92). -/
def Obligations.EveryWordIsExactlyOneCommand : Prop :=
  ∀ v : Word, (decodeCommand v).place = .command ∧ (decodeCommand v).WellFormed ∧ encode (decodeCommand v) = le32 v

/-- Words written out from the spec's encodings decode to the instructions they stand for (30_encoding.md R91, R111). -/
def Obligations.WrittenOutWordsDecode : Prop :=
  decode .command [0x00, 0x01, 0x00, 0x00] = .ok (.nop 1, []) ∧
  decode .command [0x01, 0x00, 0x00, 0x00] = .ok (.encode 0, []) ∧
  decode .command [0x02, 0x00, 0x00, 0x80] = .ok (.decode 0x800000, []) ∧
  decode .command [0x7F, 0x00, 0x00, 0x00] = .ok (.reserved40To7F 0x7F 0, []) ∧
  decode .record [0x50, 0x4B, 0x03, 0x04] = .ok (.lfh, []) ∧
  decode .record [0x50, 0x4B, 0x01, 0x02] = .ok (.cfh, []) ∧
  decode .record [0x50, 0x4B, 0x05, 0x06] = .ok (.eocd, []) ∧
  decode .extra [0x01, 0x99] = .ok (.aeExtra, []) ∧
  decode .record [0x51, 0x4B, 0x03, 0x04] = .error .noRecordSignature ∧
  decode .extra [0x02, 0x99] = .error .noExtraId

/-- A transaction record determines the operation (direction, width, address) and its data, not the response: two accesses of legal
width with the same record agree in them, and two lists of such accesses with the same encoding have the same length and agree in
them item by item (30_encoding.md R113). The encoding of what the host does puts the record of each access it performs, BUSERR or
not, in front of the encoding of the rest, each read of a `poll` included (R114). That a step in which it performs none adds nothing,
an access that a reset overrides among them (70_reset_and_hazards.md R292 gives it no effect), is the model's reading (log 33). -/
def Obligations.TransactionRecordsAreUnambiguous : Prop :=
  (∀ x y : Access, legalWidth x.op.size = true → legalWidth y.op.size = true → x.record = y.record →
    x.op.isWrite = y.op.isWrite ∧ x.op.size = y.op.size ∧ x.op.addr = y.op.addr ∧
      (x.op.isWrite = false → x.data = y.data) ∧
      (∀ a n v b m w, x.op = .write a n v → y.op = .write b m w → v = w)) ∧
  Access.record { op := .write 0x0 4 0x1, okay := true, data := 0 } =
    ['W', ' ', '4', ' ', '0', '0', '0', '0', '0', '0', '0', '0', ' ', '0', '0', '0', '0', '0', '0', '0', '1'] ∧
  (∀ xs ys : List Access, (∀ x ∈ xs, legalWidth x.op.size = true) → (∀ y ∈ ys, legalWidth y.op.size = true) →
    encodeProgram xs = encodeProgram ys →
    xs.length = ys.length ∧ ∀ (i : Nat) (x y : Access), xs[i]? = some x → ys[i]? = some y →
      x.op.isWrite = y.op.isWrite ∧ x.op.size = y.op.size ∧ x.op.addr = y.op.addr ∧ x.carried = y.carried) ∧
  (∀ (s t : State) (ts : List Turn) (op : BusOp) (rest : List HostOp) (k : Nat),
    s.HostMoves ts → s.host = .bus op :: rest → step s = .next t →
    ∃ x, t.last = some x ∧ x.op = op ∧ s.programEncoding (k + 1) = x.record :: t.programEncoding k) ∧
  (∀ (s t : State) (ts : List Turn) (a mask val : Word) (rest : List HostOp) (k : Nat),
    s.HostMoves ts → s.host = .poll a mask val :: rest → step s = .next t →
    ∃ x, t.last = some x ∧ x.op = .read a 4 ∧ s.programEncoding (k + 1) = x.record :: t.programEncoding k) ∧
  (∀ (s t : State) (ts : List Turn) (b : Bool) (k : Nat),
    s.EngineMoves ts ∨ s.turns = .stall :: ts ∨ s.turns = .reset b :: ts ∨ (s.HostMoves ts ∧ s.host = []) →
    step s = .next t → s.programEncoding (k + 1) = t.programEncoding k)

/-! ### Commands -/

/-- NOP changes no state, whatever the ignored bits, and 0x0000_0100 is a NOP (44_host_access.md R248). -/
def Obligations.NopChangesNothing : Prop :=
  (∀ (junk : BitVec 24) (s : State), exec (.nop junk) s = .next s) ∧ decodeCommand 0x00000100 = .nop 1

/-- ENCODE's dispatch on an idle block: DONE, ERR and OLEN cleared, BUSY set, STAGE at E_CHECK, nothing else changed
(44_host_access.md R246). -/
def Obligations.EncodeDispatchStartsAtECheck : Prop :=
  ∀ (junk : BitVec 24) (s : State), s.busy = false →
    exec (.encode junk) s =
      .next { s with done := false, err := 0, olen := 0, busy := true, stage := Stage.eCheck.code }

/-- DECODE's dispatch on an idle block: DONE, ERR and OLEN cleared, BUSY set, STAGE at D_CHECK, nothing else changed
(44_host_access.md R246). -/
def Obligations.DecodeDispatchStartsAtDCheck : Prop :=
  ∀ (junk : BitVec 24) (s : State), s.busy = false →
    exec (.decode junk) s =
      .next { s with done := false, err := 0, olen := 0, busy := true, stage := Stage.dCheck.code }

/-- Every reserved command ends at once with BadCommand: DONE = 1, ERR = 11, OLEN = 0, nothing else changed, no free
draw made; STATUS then reads 0x2 and ERR 0xB (44_host_access.md R247). -/
def Obligations.ReservedCommandsEndAtOnce : Prop :=
  ∀ (op : Byte) (junk : BitVec 24) (s : State), s.busy = false →
    let t := { s with done := true, err := 11, olen := 0 }
    exec (.reserved03 junk) s = .next t ∧ exec (.reserved04To07 op junk) s = .next t ∧
    exec (.reserved08To0F op junk) s = .next t ∧ exec (.reserved10To1F op junk) s = .next t ∧
    exec (.reserved20To3F op junk) s = .next t ∧ exec (.reserved40To7F op junk) s = .next t ∧
    exec (.reserved80ToFF op junk) s = .next t ∧ t.statusWord = 0x2 ∧ t.errWord = 0xB

/-- While a command runs, exec of a command word changes nothing. The model's choice (log 23, DEDUCED): the spec drops such a CMD write
before any dispatch, and `exec` has to say something there; the spec's own form is the busy clause of
`CmdWriteDispatchesByItsCode`. -/
def Obligations.NoCommandStartsInsideAnother : Prop :=
  ∀ (i : Instr) (s : State), i.place = .command → s.busy = true → exec i s = .next s

/-- The whole dispatch, as one step of the machine in which the host writes CMD: by the code of bits 7:0 alone on an idle block,
BUSERR and nothing else while a command runs; no engine step and no free draw in the same step (44_host_access.md R246). -/
def Obligations.CmdWriteDispatchesByItsCode : Prop :=
  ∀ (s : State) (ts : List Turn) (v : Word) (rest : List HostOp),
    s.HostMoves ts → s.host = .bus (.write 0 4 v) :: rest →
    (s.busy = false →
      let u := { s with turns := ts, host := rest, last := some { op := .write 0 4 v, okay := true, data := 0 } }
      step s = .next
        (if opOf v = 0x00 then u
         else if opOf v = 0x01 then
           { u with done := false, err := 0, olen := 0, busy := true, stage := Stage.eCheck.code }
         else if opOf v = 0x02 then
           { u with done := false, err := 0, olen := 0, busy := true, stage := Stage.dCheck.code }
         else { u with done := true, err := 11, olen := 0 })) ∧
    (s.busy = true →
      step s = .next
        { s with turns := ts, host := rest, last := some { op := .write 0 4 v, okay := false, data := 0 } })

/-! ### A step runs the decoded instruction -/

/-- When the host's next access is a CMD write to an idle block, the step is `exec` of the decoded command word, after the host's
operation and the turn are used up and the port has answered OKAY. -/
def Obligations.StepRunsTheCommandWritten : Prop :=
  ∀ (s : State) (ts : List Turn) (v : Word) (rest : List HostOp) (i : Instr),
    s.HostMoves ts → s.busy = false → s.host = .bus (.write 0 4 v) :: rest →
    decode .command (le32 v) = .ok (i, []) →
    step s = exec i
      { s with turns := ts, host := rest, last := some { op := .write 0 4 v, okay := true, data := 0 } }

/-- When the engine moves at D_FORMAT with the 73 bytes of the local part and the container's first four bytes decode to a record,
the step is `exec` of that record's row, after the turn and the four bytes' draws are used up. That D_FORMAT runs a row at all is
the model's choice (log 12); what the stage does as a whole is `FormatStageChecksTheContainer`. -/
def Obligations.StepRunsTheRecordAtTheHead : Prop :=
  ∀ (s : State) (ts : List Turn) (i : Instr) (r : Bytes),
    s.EngineMoves ts → s.stage = Stage.dFormat.code → 73 ≤ s.ilen.toNat →
    decode .record (s.container Config.platform 0 4) = .ok (i, r) →
    step s = exec i { s with turns := ts, draws := s.draws + 4 }

/-- At D_FORMAT, exec of LFH with the right method marker and extra field length, behind which an extra field's two bytes decode to
AE_EXTRA, is exec of AE_EXTRA. That one row runs another is the model's choice (log 12). -/
def Obligations.LfhRunsTheExtraFieldBehindIt : Prop :=
  ∀ (s : State) (i : Instr) (r : Bytes),
    s.stage = Stage.dFormat.code → s.Holds (ibufBase + 8) [0x63, 0x00] → s.Holds (ibufBase + 28) [0x0B, 0x00] →
    decode .extra ((s.drew 4).container Config.platform 34 2) = .ok (i, r) →
    exec .lfh s = exec i { s with draws := s.draws + 6 }

/-- When the engine moves, the step is the stage that STAGE names (10_state.md R41). -/
def Obligations.StepOfTheEngineIsTheStage : Prop :=
  ∀ (s : State) (ts : List Turn), s.EngineMoves ts →
    step s = State.engine Config.platform { s with turns := ts }

/-! ### The record rows -/

/-- Exec of LFH at E_EMIT writes the 30 bytes of the local file header's fixed part at container offset 0 of OBUF and nothing else.
That the row LFH writes just these bytes is the model's choice (log 12); the bytes are those of the spec's table. -/
def Obligations.LfhIsWrittenAtEmit : Prop :=
  ∀ s : State, s.stage = Stage.eEmit.code → ∃ t : State, exec .lfh s = .next t ∧ t = { s with mem := t.mem } ∧
    t.Holds (obufBase + 0) [0x50, 0x4B, 0x03, 0x04] ∧ t.Holds (obufBase + 4) [0x33, 0x00] ∧
    t.Holds (obufBase + 6) [0x01, 0x00] ∧ t.Holds (obufBase + 8) [0x63, 0x00] ∧
    t.Holds (obufBase + 10) (le16 Config.platform.mtime) ∧ t.Holds (obufBase + 12) (le16 Config.platform.mdate) ∧
    t.Holds (obufBase + 14) (le32 s.crcr) ∧ t.Holds (obufBase + 18) (le32 (s.clen + 28)) ∧
    t.Holds (obufBase + 22) (le32 s.ilen) ∧ t.Holds (obufBase + 26) [0x04, 0x00] ∧
    t.Holds (obufBase + 28) [0x0B, 0x00] ∧
    ∀ a, a < obufBase ∨ obufBase + 30 ≤ a → t.mem.read? a = s.mem.read? a

/-- Exec of AE_EXTRA at E_EMIT writes the 11 bytes of the AE extra field at container offset 34 and at central offset 50, and nothing
else. That the row writes, and writes both copies, is the model's choice (logs 12 and 28); the bytes are those of the spec's
table. -/
def Obligations.AeExtraIsWrittenAtEmit : Prop :=
  ∀ s : State, s.stage = Stage.eEmit.code →
    let field : Bytes := [0x01, 0x99, 0x07, 0x00, 0x01, 0x00, 0x41, 0x45, 0x03, 0x08, 0x00]
    let central := obufBase + (73 + s.clen.toNat + 50)
    ∃ t : State, exec .aeExtra s = .next t ∧ t = { s with mem := t.mem } ∧
      t.Holds (obufBase + 34) field ∧ t.Holds central field ∧
      ∀ a, ¬(obufBase + 34 ≤ a ∧ a < obufBase + 45) → ¬(central ≤ a ∧ a < central + 11) →
        t.mem.read? a = s.mem.read? a

/-- Exec of CFH at E_EMIT writes the 61 bytes of the central file header, its name and extra field included, at container offset
73 + N and nothing else. That the row CFH writes just these bytes is the model's choice (logs 12 and 28); the bytes are those of
the spec's table. -/
def Obligations.CfhIsWrittenAtEmit : Prop :=
  ∀ s : State, s.stage = Stage.eEmit.code →
    let c := obufBase + (73 + s.clen.toNat)
    ∃ t : State, exec .cfh s = .next t ∧ t = { s with mem := t.mem } ∧
      t.Holds c [0x50, 0x4B, 0x01, 0x02] ∧ t.Holds (c + 4) [0x33, 0x00] ∧ t.Holds (c + 6) [0x33, 0x00] ∧
      t.Holds (c + 8) [0x01, 0x00] ∧ t.Holds (c + 10) [0x63, 0x00] ∧
      t.Holds (c + 12) (le16 Config.platform.mtime) ∧ t.Holds (c + 14) (le16 Config.platform.mdate) ∧
      t.Holds (c + 16) (le32 s.crcr) ∧ t.Holds (c + 20) (le32 (s.clen + 28)) ∧ t.Holds (c + 24) (le32 s.ilen) ∧
      t.Holds (c + 28) [0x04, 0x00] ∧ t.Holds (c + 30) [0x0B, 0x00] ∧ t.Holds (c + 32) [0x00, 0x00] ∧
      t.Holds (c + 34) [0x00, 0x00] ∧ t.Holds (c + 36) [0x00, 0x00] ∧ t.Holds (c + 38) [0x00, 0x00, 0x00, 0x00] ∧
      t.Holds (c + 42) [0x00, 0x00, 0x00, 0x00] ∧ t.Holds (c + 46) Config.platform.label.toList ∧
      t.Holds (c + 50) [0x01, 0x99, 0x07, 0x00, 0x01, 0x00, 0x41, 0x45, 0x03, 0x08, 0x00] ∧
      ∀ a, a < c ∨ c + 61 ≤ a → t.mem.read? a = s.mem.read? a

/-- Exec of EOCD at E_EMIT writes the 22 bytes of the end-of-central-directory record at container offset 134 + N and nothing else.
That the row EOCD writes just these bytes is the model's choice (log 12); the bytes are those of the spec's table. -/
def Obligations.EocdIsWrittenAtEmit : Prop :=
  ∀ s : State, s.stage = Stage.eEmit.code →
    let e := obufBase + (134 + s.clen.toNat)
    ∃ t : State, exec .eocd s = .next t ∧ t = { s with mem := t.mem } ∧
      t.Holds e [0x50, 0x4B, 0x05, 0x06] ∧ t.Holds (e + 4) [0x00, 0x00] ∧ t.Holds (e + 6) [0x00, 0x00] ∧
      t.Holds (e + 8) [0x01, 0x00] ∧ t.Holds (e + 10) [0x01, 0x00] ∧ t.Holds (e + 12) [0x3D, 0x00, 0x00, 0x00] ∧
      t.Holds (e + 16) (le32 (s.clen + 73)) ∧ t.Holds (e + 20) [0x00, 0x00] ∧
      ∀ a, a < e ∨ e + 22 ≤ a → t.mem.read? a = s.mem.read? a

/-- Exec of the row CFH or EOCD at D_FORMAT raises BadFormat and changes nothing else. The model's choice of what such a row means
there (log 12): the stage finds a signature at the container's head that is not the local file header's. -/
def Obligations.OtherRecordsAtTheHeadAreBadFormat : Prop :=
  ∀ s : State, s.stage = Stage.dFormat.code →
    exec .cfh s = .next { s with raised := some .badFormat, stage := Stage.finish.code } ∧
    exec .eocd s = .next { s with raised := some .badFormat, stage := Stage.finish.code }

/-- At every stage but E_EMIT and D_FORMAT a record row changes nothing: no record is written or read there. The model's choice
(log 12). -/
def Obligations.RecordsAreTouchedAtTwoStagesOnly : Prop :=
  ∀ (i : Instr) (s : State), i.place ≠ .command → s.stage ≠ Stage.eEmit.code → s.stage ≠ Stage.dFormat.code →
    exec i s = .next s

/-! ### The stages of ENCODE -/

/-- E_CHECK and D_CHECK: Params when an operand is empty or longer than its buffer, else on to the next stage
(42_encode.md R171, 43_decode.md R201). -/
def Obligations.FirstStageChecksTheOperands : Prop :=
  ∀ (p : Platform) (s : State) (first next : Stage),
    (first = .eCheck ∧ next = .eCrc) ∨ (first = .dCheck ∧ next = .dFormat) → s.stage = first.code →
    s.engine p = .next
      (if s.ilen = 0 ∨ s.pwlen = 0 ∨ p.ibufSize < s.ilen.toNat ∨ p.pbufSize < s.pwlen.toNat
       then { s with raised := some .params, stage := Stage.finish.code }
       else { s with stage := next.code })

/-- E_CRC: CRCR takes the CRC-32 of the plaintext; the stage never raises (42_encode.md R172). -/
def Obligations.CrcIsTakenOverThePlaintext : Prop :=
  ∀ (p : Platform) (s : State) (plain : Bytes), s.stage = Stage.eCrc.code → plain.length = s.ilen.toNat →
    s.Holds ibufBase plain →
    s.engine p = .next
      { s with crcr := p.crc plain, stage := Stage.eDeflate.code, draws := s.draws + plain.length }

/-- E_DEFLATE: Compression when the provider fails or its answer does not fit CBUF, else the answer in CBUF and its length in
CLEN, and nothing else (42_encode.md R173). -/
def Obligations.DeflateFillsCbufOrRaises : Prop :=
  ∀ (p : Platform) (s : State) (plain : Bytes), p.Bounded → s.cbuf.wf innerBlank = true →
    s.stage = Stage.eDeflate.code → plain.length = s.ilen.toNat → s.Holds ibufBase plain →
    let d := s.draws + plain.length
    let r := p.deflate d plain
    (p.fails d = true ∨ p.cbufSize < r.length →
      s.engine p = .next
        { s with raised := some .compression, stage := Stage.finish.code, draws := d + 1 }) ∧
    (p.fails d = false → r.length ≤ p.cbufSize →
      ∃ t : State, s.engine p = .next t ∧
        t = { s with cbuf := t.cbuf, clen := t.clen, stage := Stage.eSalt.code, draws := d + 1 } ∧
        t.clen.toNat = r.length ∧ t.payload = r ∧ ∀ k, r.length ≤ k → t.cbuf.inner k = s.cbuf.inner k)

/-- E_SALT: Salt when the random source fails or answers other than 16 bytes, else the bytes in SALT (42_encode.md R174). -/
def Obligations.SaltIsDrawnOrRaises : Prop :=
  ∀ (p : Platform) (s : State), s.stage = Stage.eSalt.code →
    let r := p.rng s.draws 16
    (p.fails s.draws = true ∨ r.length ≠ 16 →
      s.engine p = .next
        { s with raised := some .salt, stage := Stage.finish.code, draws := s.draws + 1 }) ∧
    (p.fails s.draws = false → r.length = 16 →
      ∃ t : State, s.engine p = .next t ∧
        t = { s with salt := t.salt, stage := Stage.eKdf.code, draws := s.draws + 1 } ∧ t.salt.toList = r)

/-- E_KDF: PBKDF2 with 1000 iterations for 66 bytes over the password and SALT; KeyDerivation when it fails or answers another length;
else DK and its slices AKEY, HKEY, PVV (40_key_derivation.md R140 to R144). CTR and BIDX are cleared at the end of this same
step: the moment is the model's reading of CTR_INIT on entry to E_CIPHER (log 10). -/
def Obligations.EncodeDerivesItsKeys : Prop :=
  ∀ (p : Platform) (s : State) (pw : Bytes), s.stage = Stage.eKdf.code → pw.length = s.pwlen.toNat →
    s.Holds pbufBase pw →
    let d := s.draws + pw.length
    let r := p.kdf pw s.salt.toList 1000 66
    (p.fails d = true ∨ r.length ≠ 66 →
      s.engine p = .next
        { s with raised := some .keyDerivation, stage := Stage.finish.code, draws := d + 1 }) ∧
    (p.fails d = false → r.length = 66 →
      ∃ t : State, s.engine p = .next t ∧
        t = { s with
              dk := t.dk, akey := t.akey, hkey := t.hkey, pvv := t.pvv, ctr := 0, bidx := 0,
              stage := Stage.eCipher.code, draws := d + 1 } ∧
        t.dk.toList = r ∧ t.akey.toList = r.take 32 ∧ t.hkey.toList = (r.drop 32).take 32 ∧ t.pvv.toList = r.drop 64)

/-- D_KDF: SALT takes the container's bytes 45 to 60, then the same derivation (43_decode.md R205). -/
def Obligations.DecodeDerivesItsKeys : Prop :=
  ∀ (p : Platform) (s : State) (salt pw : Bytes), s.stage = Stage.dKdf.code → salt.length = 16 →
    s.Holds (ibufBase + 45) salt → pw.length = s.pwlen.toNat → s.Holds pbufBase pw →
    let d := s.draws + 16 + pw.length
    let r := p.kdf pw salt 1000 66
    ∃ t : State, s.engine p = .next t ∧ t.salt.toList = salt ∧
      (p.fails d = true ∨ r.length ≠ 66 →
        t = { s with
              salt := t.salt, raised := some .keyDerivation, stage := Stage.finish.code, draws := d + 1 }) ∧
      (p.fails d = false → r.length = 66 →
        t = { s with
              salt := t.salt, dk := t.dk, akey := t.akey, hkey := t.hkey, pvv := t.pvv,
              stage := Stage.dPvv.code, draws := d + 1 } ∧
        t.dk.toList = r ∧ t.akey.toList = r.take 32 ∧ t.hkey.toList = (r.drop 32).take 32 ∧ t.pvv.toList = r.drop 64)

/-! ### The counter-mode cipher -/

/-- The counter block: the counter little-endian in bytes 0 to 7, zeros in bytes 8 to 15 (41_ctr_cipher.md R152). -/
def Obligations.CounterBlockIsLittleEndian : Prop :=
  (∀ c : BitVec 64, (counterBlock c).length = 16 ∧
    (∀ i, i < 8 → byteAt (counterBlock c) i = BitVec.ofNat 8 (c.toNat / 2 ^ (8 * i))) ∧
    (∀ i, 8 ≤ i → i < 16 → byteAt (counterBlock c) i = 0)) ∧
  counterBlock 0x0102030405060708 = [8, 7, 6, 5, 4, 3, 2, 1, 0, 0, 0, 0, 0, 0, 0, 0]

/-- CTR_BLOCK, one engine step with blocks left: the counter goes up first; a failed AES call raises Cipher; else the lanes that hold
data are XORed with AES(AKEY, CB(CTR)), BIDX goes up, and the stage is left after the last block (41_ctr_cipher.md R153 to R156).
That a failed call leaves CTR at the incremented value is the model's reading (log 21). -/
def Obligations.OneBlockOfTheCipher : Prop :=
  ∀ (p : Platform) (s : State) (here next : Stage),
    (here = .eCipher ∧ next = .eHmac) ∨ (here = .dCipher ∧ next = .dInflate ∧ s.bidx ≠ 0) → s.stage = here.code →
    s.cbuf.wf innerBlank = true → 16 * s.bidx.toNat < s.clen.toNat → s.ctr ≠ BitVec.allOnes 64 →
    let c := s.ctr + 1
    let base := 16 * s.bidx.toNat
    let ks := p.aes s.akey.toList (counterBlock c)
    (p.fails s.draws = true →
      s.engine p = .next
        { s with ctr := c, raised := some .cipher, stage := Stage.finish.code, draws := s.draws + 1 }) ∧
    (p.fails s.draws = false →
      ∃ t : State, s.engine p = .next t ∧
        t = { s with
              ctr := c, ks := ks, bidx := s.bidx + 1, cbuf := t.cbuf, draws := s.draws + 1,
              stage := if s.clen.toNat ≤ base + 16 then next.code else here.code } ∧
        ∀ k, t.cbuf.inner k =
          if base ≤ k ∧ k < base + 16 ∧ k < s.clen.toNat then s.cbuf.inner k ^^^ byteAt ks.toList (k - base)
          else s.cbuf.inner k)

/-- The cipher stage of ENCODE as a whole, when no AES call fails: ⌈n/16⌉ engine steps (one for n = 0), the stage kept until the
last, CTR = BIDX = ⌈n/16⌉ after it, byte k XORed with lane k mod 16 of AES(AKEY, CB(⌊k/16⌋ + 1)), nothing else in CBUF
changed (41_ctr_cipher.md R154 to R158). -/
def Obligations.CipherStageXorsTheKeystream : Prop :=
  ∀ (p : Platform) (s : State), s.stage = Stage.eCipher.code → s.ctr = 0 → s.bidx = 0 →
    s.cbuf.wf innerBlank = true →
    (∀ j, j < blockCount s.clen.toNat → p.fails (s.draws + j) = false) →
    let n := s.clen.toNat
    (∀ j, j < cipherSteps n → ∃ u, s.engineSteps p j = .next u ∧ u.stage = Stage.eCipher.code) ∧
    ∃ t : State, s.engineSteps p (cipherSteps n) = .next t ∧
      t = { s with
            ctr := t.ctr, ks := t.ks, bidx := t.bidx, cbuf := t.cbuf, stage := Stage.eHmac.code,
            draws := s.draws + blockCount n } ∧
      t.ctr.toNat = (n + 15) / 16 ∧ t.bidx.toNat = (n + 15) / 16 ∧ t.payload = cipherBytes p s.akey.toList s.payload ∧
      ∀ k, n ≤ k → t.cbuf.inner k = s.cbuf.inner k

/-- Encryption and decryption are the same operation: what E_CIPHER made of a payload, D_CIPHER with the same key turns back
into the payload (41_ctr_cipher.md R159). -/
def Obligations.DecryptionUndoesEncryption : Prop :=
  ∀ (p : Platform) (s t s' : State), (∀ d, p.fails d = false) →
    s.stage = Stage.eCipher.code → s.ctr = 0 → s.bidx = 0 → s.cbuf.wf innerBlank = true →
    s.engineSteps p (cipherSteps s.clen.toNat) = .next t →
    s'.stage = Stage.dCipher.code → s'.ctr = 0 → s'.bidx = 0 → s'.cbuf.wf innerBlank = true →
    s'.akey = s.akey → s'.clen = s.clen → s'.Holds (ibufBase + 63) t.payload →
    ∃ u : State, s'.engineSteps p (cipherSteps s.clen.toNat) = .next u ∧ u.stage = Stage.dInflate.code ∧
      u.payload = s.payload

/-! ### The tag and the container -/

/-- E_HMAC: the HMAC over the ciphertext; Hmac when the provider fails or answers other than 20 bytes, else HMD and its first
ten bytes in TAGC (42_encode.md R177). -/
def Obligations.TagIsTakenOverTheCiphertext : Prop :=
  ∀ (p : Platform) (s : State), s.stage = Stage.eHmac.code →
    let r := p.hmac s.hkey.toList s.payload
    (p.fails s.draws = true ∨ r.length ≠ 20 →
      s.engine p = .next { s with raised := some .hmac, stage := Stage.finish.code, draws := s.draws + 1 }) ∧
    (p.fails s.draws = false → r.length = 20 →
      ∃ t : State, s.engine p = .next t ∧
        t = { s with hmd := t.hmd, tagc := t.tagc, stage := Stage.eEmit.code, draws := s.draws + 1 } ∧
        t.hmd.toList = r ∧ t.tagc.toList = r.take 10)

/-- E_EMIT: OBUF[0..N+156) holds the container, no other byte changes, OLEN is N + 156, and the command goes to FINISH with
success (42_encode.md R178, 30_encoding.md R94). -/
def Obligations.EmitWritesTheContainer : Prop :=
  ∀ (p : Platform) (s : State), p.Bounded → s.stage = Stage.eEmit.code → s.clen.toNat ≤ p.cbufSize →
    ∃ t : State, s.engine p = .next t ∧
      t = { s with mem := t.mem, olen := t.olen, raised := none, stage := Stage.finish.code } ∧
      t.olen.toNat = s.clen.toNat + 156 ∧
      t.Holds obufBase
        (containerBytes p s.crcr s.ilen.toNat s.salt.toList s.pvv.toList s.payload s.tagc.toList) ∧
      ∀ a, a < obufBase ∨ obufBase + (s.clen.toNat + 156) ≤ a → t.mem.read? a = s.mem.read? a

/-- Where every record and field of a container stands, for any payload of N bytes (30_encoding.md R94, R95, R99 to R104). -/
def Obligations.ContainerLayout : Prop :=
  ∀ (p : Platform) (crc : BitVec 32) (usize : Nat) (salt pvv cipher tag : Bytes),
    salt.length = 16 → pvv.length = 2 → tag.length = 10 →
    let z := containerBytes p crc usize salt pvv cipher tag
    let n := cipher.length
    z.length = n + 156 ∧
    rd32 z 0 = 0x04034B50 ∧ rd16 z 4 = 0x0033 ∧ rd16 z 6 = 0x0001 ∧ rd16 z 8 = 99 ∧ rd16 z 10 = p.mtime ∧
    rd16 z 12 = p.mdate ∧ rd32 z 14 = crc ∧ rd32 z 18 = BitVec.ofNat 32 (n + 28) ∧
    rd32 z 22 = BitVec.ofNat 32 usize ∧ rd16 z 26 = 4 ∧ rd16 z 28 = 11 ∧
    (z.drop 30).take 4 = p.label.toList ∧
    (z.drop 34).take 11 = [0x01, 0x99, 0x07, 0x00, 0x01, 0x00, 0x41, 0x45, 0x03, 0x08, 0x00] ∧
    (z.drop 45).take 16 = salt ∧ (z.drop 61).take 2 = pvv ∧ (z.drop 63).take n = cipher ∧
    (z.drop (63 + n)).take 10 = tag ∧
    rd32 z (73 + n) = 0x02014B50 ∧ rd16 z (77 + n) = 0x0033 ∧ rd16 z (79 + n) = 0x0033 ∧ rd16 z (81 + n) = 0x0001 ∧
    rd16 z (83 + n) = 99 ∧ rd16 z (85 + n) = p.mtime ∧ rd16 z (87 + n) = p.mdate ∧ rd32 z (89 + n) = crc ∧
    rd32 z (93 + n) = BitVec.ofNat 32 (n + 28) ∧ rd32 z (97 + n) = BitVec.ofNat 32 usize ∧ rd16 z (101 + n) = 4 ∧
    rd16 z (103 + n) = 11 ∧ rd16 z (105 + n) = 0 ∧ rd16 z (107 + n) = 0 ∧ rd16 z (109 + n) = 0 ∧
    rd32 z (111 + n) = 0 ∧ rd32 z (115 + n) = 0 ∧ (z.drop (119 + n)).take 4 = p.label.toList ∧
    (z.drop (123 + n)).take 11 = (z.drop 34).take 11 ∧
    rd32 z (134 + n) = 0x06054B50 ∧ rd16 z (138 + n) = 0 ∧ rd16 z (140 + n) = 0 ∧ rd16 z (142 + n) = 1 ∧
    rd16 z (144 + n) = 1 ∧ rd32 z (146 + n) = 61 ∧ rd32 z (150 + n) = BitVec.ofNat 32 (n + 73) ∧ rd16 z (154 + n) = 0

/-! ### The stages of DECODE -/

/-- D_FORMAT: BadFormat unless the stream has the local part, the eight structural constants hold and the payload lies inside
it; else CLEN, CRCR and USZ from their fields (43_decode.md R202 to R204, 30_encoding.md R109). -/
def Obligations.FormatStageChecksTheContainer : Prop :=
  ∀ (p : Platform) (s : State) (z : Bytes), s.stage = Stage.dFormat.code → z.length = s.ilen.toNat →
    s.Holds ibufBase z →
    let cs := (rd32 z 18).toNat
    ∃ t : State, s.engine p = .next t ∧
      t = (if 73 ≤ z.length ∧ rd32 z 0 = 0x04034B50 ∧ rd16 z 8 = 99 ∧ rd16 z 28 = 11 ∧ rd16 z 34 = 0x9901 ∧
              rd16 z 36 = 7 ∧ rd16 z 38 = 1 ∧ byteAt z 40 = 0x41 ∧ byteAt z 41 = 0x45 ∧ byteAt z 42 = 3 ∧
              28 ≤ cs ∧ 73 + (cs - 28) ≤ z.length
           then { s with
                  clen := BitVec.ofNat 32 (cs - 28), crcr := rd32 z 14, usz := rd32 z 22,
                  stage := Stage.dKdf.code, draws := t.draws }
           else { s with raised := some .badFormat, stage := Stage.finish.code, draws := t.draws })

/-- D_PVV: WrongPassword unless the container's bytes 61 and 62 are PVV (43_decode.md R206). -/
def Obligations.WrongPasswordIsRaisedOnMismatch : Prop :=
  ∀ (p : Platform) (s : State) (v : Bytes), s.stage = Stage.dPvv.code → v.length = 2 →
    s.Holds (ibufBase + 61) v →
    s.engine p = .next
      (if v = s.pvv.toList then { s with stage := Stage.dTag.code, draws := s.draws + 2 }
       else { s with raised := some .wrongPassword, stage := Stage.finish.code, draws := s.draws + 2 })

/-- D_TAG with the check on: Hmac when the provider fails or answers other than 20 bytes, Tamper when the first ten bytes of the HMAC
over the stored ciphertext are not the stored tag, else on to the cipher. With the test hook's bypass: on to the cipher, nothing
checked (43_decode.md R207). CTR and BIDX are cleared at the end of the step that goes on, bypassed or not: the moment is the
model's reading of CTR_INIT on entry to D_CIPHER (log 10). -/
def Obligations.TagIsVerifiedUnlessBypassed : Prop :=
  ∀ (p : Platform) (s : State) (c tag : Bytes), s.stage = Stage.dTag.code → c.length = s.clen.toNat →
    tag.length = 10 → s.Holds (ibufBase + 63) c → s.Holds (ibufBase + (63 + c.length)) tag →
    let r := p.hmac s.hkey.toList c
    let d := s.draws + c.length
    ((p.testHook = true ∧ s.tbyp = true) →
      s.engine p = .next { s with ctr := 0, bidx := 0, stage := Stage.dCipher.code }) ∧
    (¬(p.testHook = true ∧ s.tbyp = true) → p.fails d = true ∨ r.length ≠ 20 →
      s.engine p = .next { s with raised := some .hmac, stage := Stage.finish.code, draws := d + 1 }) ∧
    (¬(p.testHook = true ∧ s.tbyp = true) → p.fails d = false → r.length = 20 →
      ∃ t : State, s.engine p = .next t ∧ t.hmd.toList = r ∧ t.tagc.toList = r.take 10 ∧
        t = (if r.take 10 = tag
             then { s with
                    hmd := t.hmd, tagc := t.tagc, ctr := 0, bidx := 0, stage := Stage.dCipher.code,
                    draws := d + 11 }
             else { s with
                    hmd := t.hmd, tagc := t.tagc, raised := some .tamper, stage := Stage.finish.code,
                    draws := d + 11 }))

/-- D_CIPHER's first step copies the stored ciphertext to CBUF[0..N) and then runs the first block. That the copy falls in the same
engine step as the first block is the model's reading (log 11). -/
def Obligations.DecodeCopiesTheCiphertextFirst : Prop :=
  ∀ (p : Platform) (s : State) (c : Bytes), s.stage = Stage.dCipher.code → s.bidx = 0 →
    s.cbuf.wf innerBlank = true → c.length = s.clen.toNat → s.Holds (ibufBase + 63) c →
    ∃ u : State, u = { s with cbuf := u.cbuf, draws := s.draws + c.length } ∧ u.payload = c ∧
      (∀ k, c.length ≤ k → u.cbuf.inner k = s.cbuf.inner k) ∧ s.engine p = u.ctrBlock p .dInflate

/-- D_INFLATE: Compression when the declared size does not fit OBUF, the provider fails, or the answer has another length;
else the answer in XBUF (43_decode.md R209, R210). -/
def Obligations.InflateFillsXbufOrRaises : Prop :=
  ∀ (p : Platform) (s : State), s.stage = Stage.dInflate.code → s.xbuf.wf innerBlank = true →
    let r := p.inflate s.payload s.usz.toNat
    (p.obufSize < s.usz.toNat →
      s.engine p = .next { s with raised := some .compression, stage := Stage.finish.code }) ∧
    (s.usz.toNat ≤ p.obufSize → p.fails s.draws = true ∨ r.length ≠ s.usz.toNat →
      s.engine p = .next { s with raised := some .compression, stage := Stage.finish.code, draws := s.draws + 1 }) ∧
    (s.usz.toNat ≤ p.obufSize → p.fails s.draws = false → r.length = s.usz.toNat →
      ∃ t : State, s.engine p = .next t ∧
        t = { s with xbuf := t.xbuf, stage := Stage.dCrc.code, draws := s.draws + 1 } ∧ t.inflated = r ∧
        ∀ k, r.length ≤ k → t.xbuf.inner k = s.xbuf.inner k)

/-- D_CRC and D_COMMIT: Integrity unless the CRC-32 of XBUF[0..USZ) is the stored one; then exactly those bytes go to OBUF and
their number to OLEN (43_decode.md R211, R212). -/
def Obligations.PlaintextIsCheckedThenCommitted : Prop :=
  ∀ (p : Platform) (s : State),
    (s.stage = Stage.dCrc.code →
      s.engine p = .next
        (if p.crc s.inflated = s.crcr then { s with stage := Stage.dCommit.code }
         else { s with raised := some .integrity, stage := Stage.finish.code })) ∧
    (s.stage = Stage.dCommit.code →
      ∃ t : State, s.engine p = .next t ∧
        t = { s with mem := t.mem, olen := s.usz, raised := none, stage := Stage.finish.code } ∧
        t.Holds obufBase s.inflated ∧
        ∀ a, a < obufBase ∨ obufBase + s.usz.toNat ≤ a → t.mem.read? a = s.mem.read? a)

/-! ### Ending a command -/

/-- FINISH(K): ERR takes the kind's code (0 for none), OLEN is cleared for a kind, BUSY falls, DONE rises, STAGE is IDLE, and WIPE
zeroes every internal register and buffer; nothing else changes (60_exceptions.md R262, R265, R260). -/
def Obligations.FinishReportsAndWipes : Prop :=
  ∀ (p : Platform) (s : State), s.stage = Stage.finish.code →
    ∃ t : State, s.engine p = .next t ∧
      t.err.toNat =
        (match s.raised with
         | none => 0 | some .params => 1 | some .salt => 2 | some .keyDerivation => 3 | some .compression => 4
         | some .cipher => 5 | some .hmac => 6 | some .badFormat => 7 | some .wrongPassword => 8 | some .tamper => 9
         | some .integrity => 10 | some .badCommand => 11) ∧
      t.olen = (if s.raised = none then s.olen else 0) ∧ t.busy = false ∧ t.done = true ∧ t.stage = 0 ∧
      t.salt = ByteReg.zero 16 ∧ t.akey = ByteReg.zero 32 ∧ t.hkey = ByteReg.zero 32 ∧ t.pvv = ByteReg.zero 2 ∧
      t.dk = ByteReg.zero 66 ∧ t.hmd = ByteReg.zero 20 ∧ t.tagc = ByteReg.zero 10 ∧ t.ks = ByteReg.zero 16 ∧
      (∀ k, t.cbuf.inner k = 0) ∧ (∀ k, t.xbuf.inner k = 0) ∧ t.ctr = 0 ∧ t.bidx = 0 ∧ t.crcr = 0 ∧ t.usz = 0 ∧
      t.clen = 0 ∧
      t.tbyp = s.tbyp ∧ t.ie = s.ie ∧ t.ilen = s.ilen ∧ t.pwlen = s.pwlen ∧ t.mem = s.mem ∧ t.last = s.last ∧
      t.host = s.host ∧ t.turns = s.turns ∧ t.draws = s.draws ∧ t.raised = none

/-- Which stage can raise which kind: a command reports the kind of the first stage that raises, and each stage raises only its
own (60_exceptions.md R260, R263, R264). -/
def Obligations.EachStageRaisesItsOwnKinds : Prop :=
  ∀ (p : Platform) (s t : State) (k : ErrKind), s.raised = none → s.engine p = .next t → t.raised = some k →
    t.stage = Stage.finish.code ∧
    ((s.stage = Stage.eCheck.code ∧ k = .params) ∨ (s.stage = Stage.eDeflate.code ∧ k = .compression) ∨
     (s.stage = Stage.eSalt.code ∧ k = .salt) ∨ (s.stage = Stage.eKdf.code ∧ k = .keyDerivation) ∨
     (s.stage = Stage.eCipher.code ∧ k = .cipher) ∨ (s.stage = Stage.eHmac.code ∧ k = .hmac) ∨
     (s.stage = Stage.dCheck.code ∧ k = .params) ∨ (s.stage = Stage.dFormat.code ∧ k = .badFormat) ∨
     (s.stage = Stage.dKdf.code ∧ k = .keyDerivation) ∨ (s.stage = Stage.dPvv.code ∧ k = .wrongPassword) ∨
     (s.stage = Stage.dTag.code ∧ (k = .hmac ∨ k = .tamper)) ∨ (s.stage = Stage.dCipher.code ∧ k = .cipher) ∨
     (s.stage = Stage.dInflate.code ∧ k = .compression) ∨ (s.stage = Stage.dCrc.code ∧ k = .integrity))

/-- The engine never writes PBUF or IBUF, and only E_EMIT and D_COMMIT write OBUF (10_state.md R43, R44). -/
def Obligations.OnlyTwoStagesWriteTheHostBuffers : Prop :=
  ∀ (p : Platform) (s t : State), s.engine p = .next t →
    (∀ a, a < obufBase → t.mem.read? a = s.mem.read? a) ∧
    (s.stage ≠ Stage.eEmit.code → s.stage ≠ Stage.dCommit.code → t.mem = s.mem)

/-- A command that has ended has changed what the host sees in DONE, ERR and OLEN and, on success alone, in OBUF[0..OLEN); no key
material is left (60_exceptions.md R266, R265; 42_encode.md R179, 43_decode.md R214). -/
def Obligations.CommandsArePrecise : Prop :=
  ∀ (p : Platform) (s t : State) (k : Nat), p.Bounded → s.Inv p → s.busy = true →
    s.stage = Stage.eCheck.code ∨ s.stage = Stage.dCheck.code →
    s.engineSteps p k = .next t → t.busy = false →
    t.done = true ∧ t.Wiped ∧ t.tbyp = s.tbyp ∧ t.ie = s.ie ∧ t.ilen = s.ilen ∧ t.pwlen = s.pwlen ∧
      (t.err ≠ 0 → t.olen = 0 ∧ t.mem = s.mem) ∧
      (t.err = 0 → ∀ a, a < obufBase ∨ obufBase + t.olen.toNat ≤ a → t.mem.read? a = s.mem.read? a)

/-- A running command ends in the default interleaving: from every good state with the list of turns empty, which lets the engine run
alone (the model's choice, log 6), at most 10 + ⌈CBUF_SIZE/16⌉ steps later the block is idle with DONE = 1. -/
def Obligations.EveryCommandEnds : Prop :=
  ∀ s : State, s.Inv Config.platform → s.busy = true → s.turns = [] →
    ∃ (k : Nat) (t : State), k ≤ 10 + (Config.platform.cbufSize + 15) / 16 ∧ Sys2Proof.core.run k s = .next t ∧
      t.busy = false ∧ t.done = true

/-! ### Whole commands -/

/-- ENCODE from its first stage, when every provider answers and every length is in order: after 8 + max(1, ⌈N/16⌉) engine steps the
block is idle with ERR = 0, OLEN = N + 156 and the container of the plaintext in OBUF, and is wiped (42_encode.md R170). -/
def Obligations.EncodeMakesTheContainer : Prop :=
  ∀ (p : Platform) (s : State) (plain pw : Bytes), p.Bounded → (∀ d, p.fails d = false) →
    s.stage = Stage.eCheck.code → s.cbuf.wf innerBlank = true →
    plain.length = s.ilen.toNat → plain ≠ [] → plain.length ≤ p.ibufSize → s.Holds ibufBase plain →
    pw.length = s.pwlen.toNat → pw ≠ [] → pw.length ≤ p.pbufSize → s.Holds pbufBase pw →
    let d := s.draws + 2 * plain.length
    let packed := p.deflate d plain
    let salt := p.rng (d + 1) 16
    let dk := p.kdf pw salt 1000 66
    let body := cipherBytes p (dk.take 32) packed
    let mac := p.hmac ((dk.drop 32).take 32) body
    packed.length ≤ p.cbufSize → salt.length = 16 → dk.length = 66 → mac.length = 20 →
    ∃ t : State, s.engineSteps p (8 + cipherSteps packed.length) = .next t ∧ t.busy = false ∧ t.done = true ∧
      t.err = 0 ∧ t.olen.toNat = packed.length + 156 ∧ t.Wiped ∧
      t.Holds obufBase (containerBytes p (p.crc plain) plain.length salt (dk.drop 64) body (mac.take 10)) ∧
      ∀ a, a < obufBase ∨ obufBase + (packed.length + 156) ≤ a → t.mem.read? a = s.mem.read? a

/-- DECODE of the container of a plaintext, under the same password: after 9 + max(1, ⌈N/16⌉) engine steps the block is idle with
ERR = 0, OLEN the plaintext's length and the plaintext in OBUF (43_decode.md R200; the round trip of 95_test_vectors.md
section 1, with the law of 00_scope.md R13). -/
def Obligations.DecodeRecoversThePlaintext : Prop :=
  ∀ (p : Platform) (s : State) (plain pw salt packed z : Bytes), p.Bounded → (∀ d, p.fails d = false) →
    p.inflate packed plain.length = plain → plain.length ≤ p.obufSize →
    let dk := p.kdf pw salt 1000 66
    let body := cipherBytes p (dk.take 32) packed
    let mac := p.hmac ((dk.drop 32).take 32) body
    salt.length = 16 → dk.length = 66 → mac.length = 20 → packed.length ≤ p.cbufSize →
    z = containerBytes p (p.crc plain) plain.length salt (dk.drop 64) body (mac.take 10) →
    s.stage = Stage.dCheck.code → s.cbuf.wf innerBlank = true → s.xbuf.wf innerBlank = true →
    z.length = s.ilen.toNat → z.length ≤ p.ibufSize → s.Holds ibufBase z →
    pw.length = s.pwlen.toNat → pw ≠ [] → pw.length ≤ p.pbufSize → s.Holds pbufBase pw →
    ∃ t : State, s.engineSteps p (9 + cipherSteps packed.length) = .next t ∧ t.busy = false ∧ t.done = true ∧
      t.err = 0 ∧ t.olen.toNat = plain.length ∧ t.Wiped ∧ t.Holds obufBase plain ∧
      ∀ a, a < obufBase ∨ obufBase + plain.length ≤ a → t.mem.read? a = s.mem.read? a

/-! ### The host bus -/

/-- Which accesses of width 1, 2 or 4 get BUSERR, and that BUSERR reads 0 and changes nothing but the port's answer
(44_host_access.md R240, 20_memory.md R62, R67 to R69). -/
def Obligations.BusErrorExactly : Prop :=
  ∀ (s : State) (op : BusOp), op.size = 1 ∨ op.size = 2 ∨ op.size = 4 →
    let p := Config.platform
    let a := op.addr.toNat
    let n := op.size
    let hole := ¬(a + n ≤ 0x1C) ∧ ¬(0x1000 ≤ a ∧ a + n ≤ 0x1000 + p.pbufSize) ∧
      ¬(0x1000000 ≤ a ∧ a + n ≤ 0x1000000 + p.ibufSize) ∧ ¬(0x2000000 ≤ a ∧ a + n ≤ 0x2000000 + p.obufSize)
    let err := hole ∨ a % n ≠ 0 ∨ (a < 0x100 ∧ n ≠ 4) ∨ (0x2000000 ≤ a ∧ op.isWrite = true) ∨
      (s.busy = true ∧ op.isWrite = true) ∨ (s.busy = true ∧ 0x1000 ≤ a)
    (err → s.access op = .next { s with last := some { op := op, okay := false, data := 0 } }) ∧
    (¬err → ∀ t, s.access op = .next t → ∃ data, t.last = some { op := op, okay := true, data := data })

/-- Register reads: CMD reads 0, CTRL and STATUS their two bits, ERR its code, ILEN and PWLEN their values, whether or not a
command runs; the read changes nothing but the port's answer (44_host_access.md R241, 10_state.md R21 to R28). -/
def Obligations.RegisterReadsReturnTheRegisters : Prop :=
  ∀ s : State, s.err.toNat ≤ 11 →
    let p := Config.platform
    let answers (a v : Word) : Prop :=
      s.access (.read a 4) = .next { s with last := some { op := .read a 4, okay := true, data := v } }
    answers 0x00 0 ∧
    answers 0x04 ((if p.testHook = true ∧ s.tbyp = true then 1 else 0) + (if s.ie = true then 2 else 0)) ∧
    answers 0x08 ((if s.busy = true then 1 else 0) + (if s.done = true then 2 else 0)) ∧
    answers 0x0C (BitVec.ofNat 32 s.err.toNat) ∧ answers 0x10 s.ilen ∧ answers 0x14 s.pwlen

/-- OLEN reads as the register on an idle block, and as 0 while a command runs. The second is the model's reading of
70_reset_and_hazards.md R297 (log 9). -/
def Obligations.OlenReadsZeroWhileBusy : Prop :=
  ∀ s : State,
    s.access (.read 0x18 4) =
      .next { s with last := some { op := .read 0x18 4, okay := true, data := if s.busy = true then 0 else s.olen } }

/-- Register writes on an idle block: CTRL stores IE, and TBYP only with the test hook; STATUS clears DONE by bit 1; ILEN and PWLEN
take any value; ERR and OLEN take none (44_host_access.md R242, R249, R250). -/
def Obligations.RegisterWritesStoreTheirBits : Prop :=
  ∀ (s : State) (v : Word), s.busy = false →
    let p := Config.platform
    let okay (a : Word) : State := { s with last := some { op := .write a 4 v, okay := true, data := 0 } }
    s.access (.write 0x04 4 v) = .next
      { okay 0x04 with ie := v.getLsbD 1, tbyp := if p.testHook = true then v.getLsbD 0 else s.tbyp } ∧
    s.access (.write 0x08 4 v) = .next
      { okay 0x08 with done := if v.getLsbD 1 = true then false else s.done } ∧
    s.access (.write 0x0C 4 v) = .next (okay 0x0C) ∧
    s.access (.write 0x10 4 v) = .next { okay 0x10 with ilen := v } ∧
    s.access (.write 0x14 4 v) = .next { okay 0x14 with pwlen := v } ∧
    s.access (.write 0x18 4 v) = .next (okay 0x18)

/-- A buffer write on an idle block stores its low bytes, lowest first, changes no other byte and nothing else, and the same access
as a read then returns them zero-extended (44_host_access.md R243, R245). -/
def Obligations.BufferWritesReadBack : Prop :=
  ∀ (s : State) (a : Word) (n : Nat) (v : Word), s.busy = false → n = 1 ∨ n = 2 ∨ n = 4 → a.toNat % n = 0 →
    (0x1000 ≤ a.toNat ∧ a.toNat + n ≤ 0x1000 + Config.platform.pbufSize) ∨
      (0x1000000 ≤ a.toNat ∧ a.toNat + n ≤ 0x1000000 + Config.platform.ibufSize) →
    ∃ t : State, s.access (.write a n v) = .next t ∧
      t = { s with mem := t.mem, last := some { op := .write a n v, okay := true, data := 0 } } ∧
      t.Holds a.toNat ((le32 v).take n) ∧
      (∀ b, b < a.toNat ∨ a.toNat + n ≤ b → t.mem.read? b = s.mem.read? b) ∧
      ∃ u : State, t.access (.read a n) = .next u ∧
        u.last = some { op := .read a n, okay := true, data := BitVec.ofNat 32 (v.toNat % 2 ^ (8 * n)) } ∧ u.mem = t.mem

/-- A buffer read on an idle block returns the bytes, little-endian and zero-extended; a byte that nothing has written since reset
is the free draw of that read; nothing else changes but the draws made (44_host_access.md R244, 10_state.md R50,
20_memory.md R66, R70). -/
def Obligations.BufferReadsReturnTheBytes : Prop :=
  ∀ (s : State) (a : Word) (n : Nat), s.busy = false → n = 1 ∨ n = 2 ∨ n = 4 → a.toNat % n = 0 →
    (0x1000 ≤ a.toNat ∧ a.toNat + n ≤ 0x1000 + Config.platform.pbufSize) ∨
      (0x1000000 ≤ a.toNat ∧ a.toNat + n ≤ 0x1000000 + Config.platform.ibufSize) ∨
      (0x2000000 ≤ a.toNat ∧ a.toNat + n ≤ 0x2000000 + Config.platform.obufSize) →
    let byte (k : Nat) : Nat :=
      ((s.mem.read? (a.toNat + k)).getD (Config.platform.freeByte (s.draws + k))).toNat
    s.access (.read a n) = .next
      { s with
        draws := s.draws + n,
        last := some
          { op := .read a n, okay := true,
            data := BitVec.ofNat 32 (((List.range n).map fun k => byte k * 2 ^ (8 * k)).sum) } }

/-- While a command runs every host write and every buffer read gets BUSERR and changes nothing but the port's answer
(20_memory.md R69). -/
def Obligations.BusyBlockDropsWritesAndBufferReads : Prop :=
  ∀ (s : State) (op : BusOp), s.busy = true → op.isWrite = true ∨ 0x1000 ≤ op.addr.toNat →
    s.access op = .next { s with last := some { op := op, okay := false, data := 0 } }

/-- No host access depends on the internal state or changes what the host sees by it: from two states that agree outside, the same
access gives states that agree outside, or the same stop (10_state.md R48). -/
def Obligations.HiddenStateCannotBeRead : Prop :=
  ∀ (s t : State) (op : BusOp), s.SameOutside t →
    (∃ s' t', s.access op = .next s' ∧ t.access op = .next t' ∧ s'.SameOutside t') ∨
    (∃ f, s.access op = .fault f ∧ t.access op = .fault f)

/-- The interrupt line: high after FINISH and after a reserved command exactly when IE is set; low after the dispatch of ENCODE or
DECODE, after DONE is cleared, and with IE clear (10_state.md R33, 60_exceptions.md R269, R270). -/
def Obligations.IrqFollowsDoneAndEnable : Prop :=
  (∀ s : State, s.irq = true ↔ s.done = true ∧ s.ie = true) ∧
  (∀ (p : Platform) (s t : State), s.stage = Stage.finish.code → s.engine p = .next t → t.irq = s.ie) ∧
  (∀ (s t : State) (v : Word), s.busy = false → 3 ≤ (opOf v).toNat → exec (decodeCommand v) s = .next t →
    t.irq = s.ie) ∧
  (∀ (s t : State) (v : Word), s.busy = false → (opOf v).toNat = 1 ∨ (opOf v).toNat = 2 →
    exec (decodeCommand v) s = .next t → t.irq = false) ∧
  (∀ (s t : State) (v : Word), s.busy = false → v.getLsbD 1 = true → s.access (.write 0x08 4 v) = .next t →
    t.irq = false)

/-- `wait_done` (30_encoding.md R114): while a command runs a poll of STATUS reads 1 and is issued again; with BUSY = 0 and DONE = 1
it reads 2 and the host goes on. -/
def Obligations.WaitDoneWaitsForTheCommand : Prop :=
  ∀ (s : State) (ts : List Turn) (rest : List HostOp), s.host = waitDone ++ rest →
    (s.turns = .host :: ts → s.busy = true → s.done = false →
      step s = .next
        { s with turns := ts, last := some { op := .read 0x08 4, okay := true, data := 1 } }) ∧
    (s.HostMoves ts → s.busy = false → s.done = true →
      step s = .next
        { s with turns := ts, host := rest, last := some { op := .read 0x08 4, okay := true, data := 2 } })

/-! ### Reset -/

/-- A reset step, from any state: every register and internal state at its reset value, irq low (10_state.md R49,
70_reset_and_hazards.md R290, R291). No host buffer byte counts as written: the model takes R293 (no contents may be assumed after
any reset) over the sentence of R292 that OBUF keeps what it held (log 14, DEDUCED). -/
def Obligations.ResetClearsTheBlock : Prop :=
  ∀ (s : State) (b : Bool) (ts : List Turn), s.turns = .reset b :: ts →
    ∃ t : State, step s = .next t ∧ t.tbyp = false ∧ t.ie = false ∧ t.busy = false ∧ t.done = false ∧ t.err = 0 ∧
      t.ilen = 0 ∧ t.pwlen = 0 ∧ t.olen = 0 ∧ t.irq = false ∧ t.stage = 0 ∧
      t.salt.toList = List.replicate 16 0 ∧ t.akey.toList = List.replicate 32 0 ∧
      t.hkey.toList = List.replicate 32 0 ∧ t.pvv.toList = List.replicate 2 0 ∧ t.dk.toList = List.replicate 66 0 ∧
      t.hmd.toList = List.replicate 20 0 ∧ t.tagc.toList = List.replicate 10 0 ∧ t.ks.toList = List.replicate 16 0 ∧
      t.ctr = 0 ∧ t.bidx = 0 ∧ t.crcr = 0 ∧ t.usz = 0 ∧ t.clen = 0 ∧
      (∀ k, t.cbuf.inner k = 0) ∧ (∀ k, t.xbuf.inner k = 0) ∧ (∀ a, t.mem.read? a = none)

/-! ### The invariant -/

/-- The state after reset is a good state. -/
def Obligations.ResetIsAGoodState : Prop := State.reset.Inv Config.platform

/-- Every step from a good state leads to a good state: canonical memories, addresses inside the buffers, a legal STAGE and ERR,
BUSY with STAGE, no key material outside a command, the counter's and the lengths' bounds (10_state.md R24 to R26, R32, R36, R37,
R40, R41, R44; 41_ctr_cipher.md R160; 60_exceptions.md R261). -/
def Obligations.StepKeepsGoodStates : Prop :=
  ∀ s t : State, s.Inv Config.platform → step s = .next t → t.Inv Config.platform

/-- From a good state no step stops: neither the counter's wrap (41_ctr_cipher.md R160) nor an unused STAGE or ERR value
(10_state.md R40, 60_exceptions.md R261) is ever reached. -/
def Obligations.GoodStatesNeverStop : Prop :=
  ∀ s : State, s.Inv Config.platform → Proceeds (step s)
end

