-- ==== Sys2Proof/Laws/Bits.lean ====
section
/-! SUPPORT. Byte order: the little-endian strings read back, and a command word is its code and its ignored bits. -/

namespace Sys2Proof

/-- Bit `j` of byte `i` of a value. -/
theorem getLsbD_byteOf {w : Nat} (v : BitVec w) (i j : Nat) :
    (byteOf v i).getLsbD j = (decide (j < 8) && v.getLsbD (8 * i + j)) := by
  simp [byteOf, BitVec.getLsbD_extractLsb']

/-- `rd16` reads `le16` back. -/
theorem rd16_le16 (v : BitVec 16) (rest : Bytes) : rd16 (le16 v ++ rest) 0 = v := by
  refine BitVec.eq_of_getLsbD_eq fun i hi => ?_
  show (byteOf v 1 ++ byteOf v 0 : BitVec 16).getLsbD i = v.getLsbD i
  rw [BitVec.getLsbD_append, getLsbD_byteOf, getLsbD_byteOf]
  split
  · next h => simp [h]
  · next h =>
    rw [show 8 * 1 + (i - 8) = i by omega, decide_eq_true (show i - 8 < 8 by omega), Bool.true_and]

/-- `rd32` reads `le32` back. -/
theorem rd32_le32 (v : BitVec 32) (rest : Bytes) : rd32 (le32 v ++ rest) 0 = v := by
  refine BitVec.eq_of_getLsbD_eq fun i hi => ?_
  show (byteOf v 3 ++ byteOf v 2 ++ byteOf v 1 ++ byteOf v 0 : BitVec 32).getLsbD i = v.getLsbD i
  rw [BitVec.getLsbD_append, BitVec.getLsbD_append, BitVec.getLsbD_append, getLsbD_byteOf, getLsbD_byteOf,
    getLsbD_byteOf, getLsbD_byteOf]
  split
  · next h => simp [h]
  · split
    · next h => rw [show 8 * 1 + (i - 8) = i by omega, decide_eq_true h, Bool.true_and]
    · split
      · next h => rw [show 8 * 2 + (i - 8 - 8) = i by omega, decide_eq_true h, Bool.true_and]
      · next h =>
        rw [show 8 * 3 + (i - 8 - 8 - 8) = i by omega, decide_eq_true (show i - 8 - 8 - 8 < 8 by omega), Bool.true_and]

/-- The code of a command word. -/
theorem opOf_commandWord (op : Byte) (junk : BitVec 24) : opOf (commandWord op junk) = op := by
  refine BitVec.eq_of_getLsbD_eq fun i hi => ?_
  rw [opOf, commandWord, BitVec.getLsbD_extractLsb', Nat.zero_add, BitVec.getLsbD_append, if_pos hi,
    decide_eq_true hi, Bool.true_and]

/-- The ignored bits of a command word. -/
theorem junkOf_commandWord (op : Byte) (junk : BitVec 24) : junkOf (commandWord op junk) = junk := by
  refine BitVec.eq_of_getLsbD_eq fun i hi => ?_
  rw [junkOf, commandWord, BitVec.getLsbD_extractLsb', BitVec.getLsbD_append, if_neg (by omega),
    decide_eq_true hi, Bool.true_and, Nat.add_sub_cancel_left]

/-- A word is its code and its ignored bits. -/
theorem commandWord_opOf_junkOf (v : Word) : commandWord (opOf v) (junkOf v) = v := by
  refine BitVec.eq_of_getLsbD_eq fun i hi => ?_
  rw [opOf, junkOf, commandWord, BitVec.getLsbD_append, BitVec.getLsbD_extractLsb', BitVec.getLsbD_extractLsb']
  split
  · next h => rw [decide_eq_true h, Bool.true_and, Nat.zero_add]
  · next h => rw [decide_eq_true (show i - 8 < 24 by omega), Bool.true_and, show 8 + (i - 8) = i by omega]

end Sys2Proof
end

