-- ==== Sys2Proof/Laws/Memory.lean ====
section
/-! SUPPORT. The memory laws: reading after writing, the canonical form is kept, and memories in canonical form that read the same
are the same data. -/

namespace Sys2Proof.Machine

/-! ### The canonical form -/

/-- What the canonical form says of a non-empty memory. -/
theorem Memory.wf_cons {blank : Option Byte} {a : Nat} {v : Byte} {m : Memory} :
    Memory.wf blank ((a, v) :: m) = true ↔
      blank ≠ some v ∧ (∀ b w r, m = (b, w) :: r → a < b) ∧ Memory.wf blank m = true := by
  cases m with
  | nil => simp [Memory.wf]
  | cons c r =>
    obtain ⟨b, w⟩ := c
    simp only [Memory.wf, Bool.and_eq_true, decide_eq_true_eq, and_assoc]
    constructor
    · rintro ⟨h1, h2, h3⟩
      refine ⟨h1, ?_, h3⟩
      intro b' w' r' h
      cases h
      exact h2
    · rintro ⟨h1, h2, h3⟩
      exact ⟨h1, h2 b w r rfl, h3⟩

/-- Nothing is listed at or below the first address of a memory in canonical form, but its first entry. -/
theorem Memory.read?_eq_none_of_le {blank : Option Byte} {a b : Nat} {v : Byte} {m : Memory}
    (h : Memory.wf blank ((b, v) :: m) = true) (hab : a ≤ b) : m.read? a = none := by
  induction m generalizing b v with
  | nil => rfl
  | cons c r ih =>
    obtain ⟨d, w⟩ := c
    obtain ⟨-, hlt, hwf⟩ := Memory.wf_cons.1 h
    have hbd : b < d := hlt d w r rfl
    rw [Memory.read?, if_neg (by omega), ih hwf (by omega)]

/-- No entry of a memory in canonical form equals what an unlisted address reads as. -/
theorem Memory.read?_ne_blank {blank : Option Byte} {m : Memory} (h : m.wf blank = true) (a : Nat) (v : Byte)
    (hr : m.read? a = some v) : blank ≠ some v := by
  induction m with
  | nil => simp [Memory.read?] at hr
  | cons c r ih =>
    obtain ⟨b, w⟩ := c
    obtain ⟨hne, -, hwf⟩ := Memory.wf_cons.1 h
    rw [Memory.read?] at hr
    split at hr
    · cases hr; exact hne
    · exact ih hwf hr

/-! ### One byte -/

/-- Reading after writing one byte. -/
theorem Memory.read?_put {blank : Option Byte} {m : Memory} (h : m.wf blank = true) (a : Nat) (v : Byte) (a' : Nat) :
    (m.put blank a v).read? a' =
      if a' = a then (if blank = some v then none else some v) else m.read? a' := by
  induction m with
  | nil =>
    by_cases hb : blank = some v <;> by_cases ha : a' = a
    · simp [Memory.put, Memory.read?, hb]
    · simp [Memory.put, Memory.read?, hb]
    · simp [Memory.put, Memory.read?, hb, ha]
    · simp [Memory.put, Memory.read?, hb, ha, Ne.symm ha]
  | cons c r ih =>
    obtain ⟨b, w⟩ := c
    obtain ⟨-, -, hwf⟩ := Memory.wf_cons.1 h
    have hle := fun (x : Nat) (hx : x ≤ b) => Memory.read?_eq_none_of_le (a := x) h hx
    by_cases h1 : a < b
    · have hnone : Memory.read? ((b, w) :: r) a = none := by
        rw [Memory.read?, if_neg (by omega), hle a (by omega)]
      by_cases hb : blank = some v
      · rw [Memory.put, if_pos h1, if_pos hb]
        by_cases ha : a' = a
        · subst ha; simp [hb, hnone]
        · simp [ha]
      · rw [Memory.put, if_pos h1, if_neg hb, Memory.read?]
        by_cases ha : a = a'
        · simp [ha, hb]
        · simp [ha, Ne.symm ha]
    · by_cases h2 : a = b
      · subst h2
        rw [Memory.put, if_neg h1, if_pos rfl]
        by_cases hb : blank = some v
        · rw [if_pos hb]
          by_cases ha : a' = a
          · subst ha; simp [hb, hle]
          · simp [ha, Memory.read?, Ne.symm ha]
        · rw [if_neg hb]
          by_cases ha : a' = a
          · subst ha; simp [hb, Memory.read?]
          · simp [ha, Memory.read?, Ne.symm ha]
      · rw [Memory.put, if_neg h1, if_neg h2, Memory.read?, ih hwf]
        by_cases ha : b = a'
        · subst ha; simp [Memory.read?, Ne.symm h2]
        · simp [Memory.read?, ha]

/-- The first address after writing one byte is the written one or the first one from before. -/
theorem Memory.head_put {blank : Option Byte} {m : Memory} {a b : Nat} {v w : Byte} {r : Memory}
    (h : m.put blank a v = (b, w) :: r) : b = a ∨ (∃ u q, m = (b, u) :: q) ∨
      (∃ u q, m = (a, u) :: q ∧ q = (b, w) :: r) := by
  cases m with
  | nil =>
    rw [Memory.put] at h
    split at h
    · cases h
    · cases h; exact .inl rfl
  | cons c q =>
    obtain ⟨d, u⟩ := c
    rw [Memory.put] at h
    split at h
    · split at h
      · cases h; exact .inr (.inl ⟨_, _, rfl⟩)
      · cases h; exact .inl rfl
    · split at h
      · next hab =>
        subst hab
        split at h
        · subst h; exact .inr (.inr ⟨_, _, rfl, rfl⟩)
        · cases h; exact .inl rfl
      · cases h; exact .inr (.inl ⟨_, _, rfl⟩)

/-- Writing one byte keeps the canonical form. -/
theorem Memory.wf_put {blank : Option Byte} {m : Memory} (h : m.wf blank = true) (a : Nat) (v : Byte) :
    (m.put blank a v).wf blank = true := by
  induction m with
  | nil =>
    rw [Memory.put]
    split
    · rfl
    · next hb => exact Memory.wf_cons.2 ⟨hb, by simp, rfl⟩
  | cons c r ih =>
    obtain ⟨b, w⟩ := c
    obtain ⟨hne, hlt, hwf⟩ := Memory.wf_cons.1 h
    rw [Memory.put]
    split
    · next hab =>
      split
      · exact h
      · next hb =>
        refine Memory.wf_cons.2 ⟨hb, ?_, h⟩
        intro b' w' r' he
        cases he
        exact hab
    · next hab =>
      split
      · next heq =>
        subst heq
        split
        · exact hwf
        · next hb => exact Memory.wf_cons.2 ⟨hb, hlt, hwf⟩
      · next hne' =>
        refine Memory.wf_cons.2 ⟨hne, ?_, ih hwf⟩
        intro b' w' r' he
        rcases Memory.head_put he with h1 | ⟨u, q, h1⟩ | ⟨u, q, h1, h2⟩
        · omega
        · exact hlt b' u q h1
        · have h3 : b < a := hlt a u q h1
          subst h1; subst h2
          have h4 : a < b' := (Memory.wf_cons.1 hwf).2.1 b' w' r' rfl
          omega

/-! ### Byte strings -/

/-- Writing a byte string keeps the canonical form. -/
theorem Memory.wf_putBytes {blank : Option Byte} {m : Memory} (h : m.wf blank = true) (a : Nat) (bs : Bytes) :
    (m.putBytes blank a bs).wf blank = true := by
  induction bs generalizing m a with
  | nil => exact h
  | cons v vs ih => exact ih (Memory.wf_put h a v) (a + 1)

/-- Reading after writing a byte string. -/
theorem Memory.read?_putBytes {blank : Option Byte} {m : Memory} (h : m.wf blank = true) (a : Nat) (bs : Bytes) (a' : Nat) :
    (m.putBytes blank a bs).read? a' =
      if a ≤ a' ∧ a' < a + bs.length then
        (if blank = some (byteAt bs (a' - a)) then none else some (byteAt bs (a' - a)))
      else m.read? a' := by
  induction bs generalizing m a with
  | nil =>
    rw [if_neg (by simp only [List.length_nil]; omega)]
    rfl
  | cons v vs ih =>
    rw [Memory.putBytes, ih (Memory.wf_put h a v) (a + 1), Memory.read?_put h]
    simp only [List.length_cons]
    by_cases h1 : a' = a
    · subst h1
      have hin : a' ≤ a' ∧ a' < a' + (vs.length + 1) := by omega
      rw [if_neg (by omega), if_pos rfl, if_pos hin]
      simp [byteAt]
    · by_cases h2 : a + 1 ≤ a' ∧ a' < a + 1 + vs.length
      · have hin : a ≤ a' ∧ a' < a + (vs.length + 1) := by omega
        have hsub : a' - a = (a' - (a + 1)) + 1 := by omega
        rw [if_pos h2, if_pos hin, hsub]
        simp [byteAt]
      · rw [if_neg h2, if_neg h1, if_neg (by omega)]

/-- Outside the bytes written, everything reads as before; this needs no canonical form. -/
theorem Memory.read?_put_of_ne {blank : Option Byte} (hb : blank = none) (m : Memory) {a a' : Nat} (v : Byte)
    (h : a' ≠ a) : (m.put blank a v).read? a' = m.read? a' := by
  subst hb
  induction m with
  | nil => simp [Memory.put, Memory.read?, Ne.symm h]
  | cons c r ih =>
    obtain ⟨b, w⟩ := c
    rw [Memory.put]
    split
    · simp [Memory.read?, Ne.symm h]
    · split
      · next hab => subst hab; simp [Memory.read?, Ne.symm h]
      · rw [Memory.read?, Memory.read?, ih]

/-- A byte of the host buffers just written reads back; this needs no canonical form. -/
theorem Memory.read?_put_same {blank : Option Byte} (hb : blank = none) (m : Memory) (a : Nat) (v : Byte) :
    (m.put blank a v).read? a = some v := by
  subst hb
  induction m with
  | nil => simp [Memory.put, Memory.read?]
  | cons c r ih =>
    obtain ⟨b, w⟩ := c
    rw [Memory.put]
    split
    · simp [Memory.read?]
    · split
      · simp [Memory.read?]
      · next h1 h2 => rw [Memory.read?, if_neg (Ne.symm h2), ih]

/-- Reading the host buffers after writing a byte string; this needs no canonical form. -/
theorem Memory.read?_putBytes_host (m : Memory) (a : Nat) (bs : Bytes) (a' : Nat) :
    (m.putBytes hostBlank a bs).read? a' =
      if a ≤ a' ∧ a' < a + bs.length then some (byteAt bs (a' - a)) else m.read? a' := by
  induction bs generalizing m a with
  | nil =>
    rw [if_neg (by simp only [List.length_nil]; omega)]
    rfl
  | cons v vs ih =>
    rw [Memory.putBytes, ih]
    simp only [List.length_cons]
    by_cases h1 : a' = a
    · subst h1
      rw [if_neg (by omega), if_pos (by omega), Memory.read?_put_same (blank := hostBlank) rfl]
      simp [byteAt]
    · by_cases h2 : a + 1 ≤ a' ∧ a' < a + 1 + vs.length
      · rw [if_pos h2, if_pos (by omega)]
        have : a' - a = (a' - (a + 1)) + 1 := by omega
        rw [this]
        simp [byteAt]
      · rw [if_neg h2, if_neg (by omega), Memory.read?_put_of_ne (blank := hostBlank) rfl m v h1]

/-! ### The inner buffers -/

/-- Reading a byte of CBUF or XBUF after writing a byte string. -/
theorem Memory.inner_putBytes {m : Memory} (h : m.wf innerBlank = true) (a : Nat) (bs : Bytes) (a' : Nat) :
    (m.putBytes innerBlank a bs).inner a' =
      if a ≤ a' ∧ a' < a + bs.length then byteAt bs (a' - a) else m.inner a' := by
  rw [Memory.inner, Memory.read?_putBytes h]
  split
  · split
    · next hb =>
      simp only [innerBlank, Option.some.injEq] at hb
      simp [← hb]
    · rfl
  · rfl

/-- The bytes of CBUF or XBUF, one by one. -/
@[simp] theorem Memory.length_innerBytes (m : Memory) (a n : Nat) : (m.innerBytes a n).length = n := by
  simp [Memory.innerBytes]

/-- The bytes of CBUF or XBUF, one by one. -/
theorem Memory.byteAt_innerBytes (m : Memory) (a n k : Nat) (hk : k < n) :
    byteAt (m.innerBytes a n) k = m.inner (a + k) := by
  simp [byteAt, Memory.innerBytes, List.getD_eq_getElem?_getD, List.getElem?_map, List.getElem?_range hk]

/-! ### Equal memories are equal data -/

/-- Memories in canonical form that read the same at every address are the same list. -/
theorem Memory.ext_of_wf {blank : Option Byte} {m₁ m₂ : Memory} (h₁ : m₁.wf blank = true) (h₂ : m₂.wf blank = true)
    (h : ∀ a, m₁.read? a = m₂.read? a) : m₁ = m₂ := by
  induction m₁ generalizing m₂ with
  | nil =>
    cases m₂ with
    | nil => rfl
    | cons c r =>
      obtain ⟨b, w⟩ := c
      have := h b
      simp [Memory.read?] at this
  | cons c r ih =>
    obtain ⟨a, v⟩ := c
    cases m₂ with
    | nil =>
      have := h a
      simp [Memory.read?] at this
    | cons c' r' =>
      obtain ⟨b, w⟩ := c'
      have hab : a = b := by
        rcases Nat.lt_trichotomy a b with hlt | heq | hgt
        · have := h a
          rw [Memory.read?, if_pos rfl, Memory.read?, if_neg (by omega),
            Memory.read?_eq_none_of_le h₂ (by omega)] at this
          cases this
        · exact heq
        · have := h b
          rw [Memory.read?, if_neg (by omega), Memory.read?_eq_none_of_le h₁ (by omega), Memory.read?,
            if_pos rfl] at this
          cases this
      subst hab
      have hvw : v = w := by
        have := h a
        simpa [Memory.read?] using this
      subst hvw
      have hr : r = r' := by
        refine ih (Memory.wf_cons.1 h₁).2.2 (Memory.wf_cons.1 h₂).2.2 ?_
        intro x
        by_cases hx : x ≤ a
        · rw [Memory.read?_eq_none_of_le h₁ hx, Memory.read?_eq_none_of_le h₂ hx]
        · have := h x
          rwa [Memory.read?, if_neg (by omega), Memory.read?, if_neg (by omega)] at this
      rw [hr]

/-- CBUF or XBUF memories in canonical form that hold the same bytes are the same list. -/
theorem Memory.ext_inner {m₁ m₂ : Memory} (h₁ : m₁.wf innerBlank = true) (h₂ : m₂.wf innerBlank = true)
    (h : ∀ a, m₁.inner a = m₂.inner a) : m₁ = m₂ := by
  refine Memory.ext_of_wf h₁ h₂ fun a => ?_
  have ha := h a
  unfold Memory.inner at ha
  cases e₁ : m₁.read? a with
  | none =>
    cases e₂ : m₂.read? a with
    | none => rfl
    | some w =>
      have := Memory.read?_ne_blank h₂ a w e₂
      simp [e₁, e₂, innerBlank] at ha this
      exact absurd ha.symm (Ne.symm this)
  | some v =>
    cases e₂ : m₂.read? a with
    | none =>
      have := Memory.read?_ne_blank h₁ a v e₁
      simp [e₁, e₂, innerBlank] at ha this
      exact absurd ha (Ne.symm this)
    | some w =>
      simp [e₁, e₂] at ha
      rw [ha]

end Sys2Proof.Machine
end

