-- ==== Sys2Proof/Laws/State.lean ====
section
/-! SUPPORT. One lemma per field per update of the state, each true by unfolding. -/

namespace Sys2Proof.Machine

/-! ### drew -/

@[simp] theorem State.drew_tbyp (s : State) (n : Nat) : (s.drew n).tbyp = s.tbyp := rfl
@[simp] theorem State.drew_ie (s : State) (n : Nat) : (s.drew n).ie = s.ie := rfl
@[simp] theorem State.drew_busy (s : State) (n : Nat) : (s.drew n).busy = s.busy := rfl
@[simp] theorem State.drew_done (s : State) (n : Nat) : (s.drew n).done = s.done := rfl
@[simp] theorem State.drew_err (s : State) (n : Nat) : (s.drew n).err = s.err := rfl
@[simp] theorem State.drew_ilen (s : State) (n : Nat) : (s.drew n).ilen = s.ilen := rfl
@[simp] theorem State.drew_pwlen (s : State) (n : Nat) : (s.drew n).pwlen = s.pwlen := rfl
@[simp] theorem State.drew_olen (s : State) (n : Nat) : (s.drew n).olen = s.olen := rfl
@[simp] theorem State.drew_stage (s : State) (n : Nat) : (s.drew n).stage = s.stage := rfl
@[simp] theorem State.drew_raised (s : State) (n : Nat) : (s.drew n).raised = s.raised := rfl
@[simp] theorem State.drew_salt (s : State) (n : Nat) : (s.drew n).salt = s.salt := rfl
@[simp] theorem State.drew_akey (s : State) (n : Nat) : (s.drew n).akey = s.akey := rfl
@[simp] theorem State.drew_hkey (s : State) (n : Nat) : (s.drew n).hkey = s.hkey := rfl
@[simp] theorem State.drew_pvv (s : State) (n : Nat) : (s.drew n).pvv = s.pvv := rfl
@[simp] theorem State.drew_dk (s : State) (n : Nat) : (s.drew n).dk = s.dk := rfl
@[simp] theorem State.drew_crcr (s : State) (n : Nat) : (s.drew n).crcr = s.crcr := rfl
@[simp] theorem State.drew_usz (s : State) (n : Nat) : (s.drew n).usz = s.usz := rfl
@[simp] theorem State.drew_cbuf (s : State) (n : Nat) : (s.drew n).cbuf = s.cbuf := rfl
@[simp] theorem State.drew_clen (s : State) (n : Nat) : (s.drew n).clen = s.clen := rfl
@[simp] theorem State.drew_xbuf (s : State) (n : Nat) : (s.drew n).xbuf = s.xbuf := rfl
@[simp] theorem State.drew_hmd (s : State) (n : Nat) : (s.drew n).hmd = s.hmd := rfl
@[simp] theorem State.drew_tagc (s : State) (n : Nat) : (s.drew n).tagc = s.tagc := rfl
@[simp] theorem State.drew_ctr (s : State) (n : Nat) : (s.drew n).ctr = s.ctr := rfl
@[simp] theorem State.drew_ks (s : State) (n : Nat) : (s.drew n).ks = s.ks := rfl
@[simp] theorem State.drew_bidx (s : State) (n : Nat) : (s.drew n).bidx = s.bidx := rfl
@[simp] theorem State.drew_mem (s : State) (n : Nat) : (s.drew n).mem = s.mem := rfl
@[simp] theorem State.drew_last (s : State) (n : Nat) : (s.drew n).last = s.last := rfl
@[simp] theorem State.drew_host (s : State) (n : Nat) : (s.drew n).host = s.host := rfl
@[simp] theorem State.drew_turns (s : State) (n : Nat) : (s.drew n).turns = s.turns := rfl
@[simp] theorem State.drew_draws (s : State) (n : Nat) : (s.drew n).draws = s.draws + n := rfl

/-! ### putHost -/

@[simp] theorem State.putHost_tbyp (s : State) (a : Nat) (bs : Bytes) : (s.putHost a bs).tbyp = s.tbyp := rfl
@[simp] theorem State.putHost_ie (s : State) (a : Nat) (bs : Bytes) : (s.putHost a bs).ie = s.ie := rfl
@[simp] theorem State.putHost_busy (s : State) (a : Nat) (bs : Bytes) : (s.putHost a bs).busy = s.busy := rfl
@[simp] theorem State.putHost_done (s : State) (a : Nat) (bs : Bytes) : (s.putHost a bs).done = s.done := rfl
@[simp] theorem State.putHost_err (s : State) (a : Nat) (bs : Bytes) : (s.putHost a bs).err = s.err := rfl
@[simp] theorem State.putHost_ilen (s : State) (a : Nat) (bs : Bytes) : (s.putHost a bs).ilen = s.ilen := rfl
@[simp] theorem State.putHost_pwlen (s : State) (a : Nat) (bs : Bytes) : (s.putHost a bs).pwlen = s.pwlen := rfl
@[simp] theorem State.putHost_olen (s : State) (a : Nat) (bs : Bytes) : (s.putHost a bs).olen = s.olen := rfl
@[simp] theorem State.putHost_stage (s : State) (a : Nat) (bs : Bytes) : (s.putHost a bs).stage = s.stage := rfl
@[simp] theorem State.putHost_raised (s : State) (a : Nat) (bs : Bytes) : (s.putHost a bs).raised = s.raised := rfl
@[simp] theorem State.putHost_salt (s : State) (a : Nat) (bs : Bytes) : (s.putHost a bs).salt = s.salt := rfl
@[simp] theorem State.putHost_akey (s : State) (a : Nat) (bs : Bytes) : (s.putHost a bs).akey = s.akey := rfl
@[simp] theorem State.putHost_hkey (s : State) (a : Nat) (bs : Bytes) : (s.putHost a bs).hkey = s.hkey := rfl
@[simp] theorem State.putHost_pvv (s : State) (a : Nat) (bs : Bytes) : (s.putHost a bs).pvv = s.pvv := rfl
@[simp] theorem State.putHost_dk (s : State) (a : Nat) (bs : Bytes) : (s.putHost a bs).dk = s.dk := rfl
@[simp] theorem State.putHost_crcr (s : State) (a : Nat) (bs : Bytes) : (s.putHost a bs).crcr = s.crcr := rfl
@[simp] theorem State.putHost_usz (s : State) (a : Nat) (bs : Bytes) : (s.putHost a bs).usz = s.usz := rfl
@[simp] theorem State.putHost_cbuf (s : State) (a : Nat) (bs : Bytes) : (s.putHost a bs).cbuf = s.cbuf := rfl
@[simp] theorem State.putHost_clen (s : State) (a : Nat) (bs : Bytes) : (s.putHost a bs).clen = s.clen := rfl
@[simp] theorem State.putHost_xbuf (s : State) (a : Nat) (bs : Bytes) : (s.putHost a bs).xbuf = s.xbuf := rfl
@[simp] theorem State.putHost_hmd (s : State) (a : Nat) (bs : Bytes) : (s.putHost a bs).hmd = s.hmd := rfl
@[simp] theorem State.putHost_tagc (s : State) (a : Nat) (bs : Bytes) : (s.putHost a bs).tagc = s.tagc := rfl
@[simp] theorem State.putHost_ctr (s : State) (a : Nat) (bs : Bytes) : (s.putHost a bs).ctr = s.ctr := rfl
@[simp] theorem State.putHost_ks (s : State) (a : Nat) (bs : Bytes) : (s.putHost a bs).ks = s.ks := rfl
@[simp] theorem State.putHost_bidx (s : State) (a : Nat) (bs : Bytes) : (s.putHost a bs).bidx = s.bidx := rfl
@[simp] theorem State.putHost_mem (s : State) (a : Nat) (bs : Bytes) :
    (s.putHost a bs).mem = s.mem.putBytes hostBlank a bs := rfl
@[simp] theorem State.putHost_last (s : State) (a : Nat) (bs : Bytes) : (s.putHost a bs).last = s.last := rfl
@[simp] theorem State.putHost_host (s : State) (a : Nat) (bs : Bytes) : (s.putHost a bs).host = s.host := rfl
@[simp] theorem State.putHost_turns (s : State) (a : Nat) (bs : Bytes) : (s.putHost a bs).turns = s.turns := rfl
@[simp] theorem State.putHost_draws (s : State) (a : Nat) (bs : Bytes) : (s.putHost a bs).draws = s.draws := rfl

/-! ### putCbuf -/

@[simp] theorem State.putCbuf_tbyp (s : State) (a : Nat) (bs : Bytes) : (s.putCbuf a bs).tbyp = s.tbyp := rfl
@[simp] theorem State.putCbuf_ie (s : State) (a : Nat) (bs : Bytes) : (s.putCbuf a bs).ie = s.ie := rfl
@[simp] theorem State.putCbuf_busy (s : State) (a : Nat) (bs : Bytes) : (s.putCbuf a bs).busy = s.busy := rfl
@[simp] theorem State.putCbuf_done (s : State) (a : Nat) (bs : Bytes) : (s.putCbuf a bs).done = s.done := rfl
@[simp] theorem State.putCbuf_err (s : State) (a : Nat) (bs : Bytes) : (s.putCbuf a bs).err = s.err := rfl
@[simp] theorem State.putCbuf_ilen (s : State) (a : Nat) (bs : Bytes) : (s.putCbuf a bs).ilen = s.ilen := rfl
@[simp] theorem State.putCbuf_pwlen (s : State) (a : Nat) (bs : Bytes) : (s.putCbuf a bs).pwlen = s.pwlen := rfl
@[simp] theorem State.putCbuf_olen (s : State) (a : Nat) (bs : Bytes) : (s.putCbuf a bs).olen = s.olen := rfl
@[simp] theorem State.putCbuf_stage (s : State) (a : Nat) (bs : Bytes) : (s.putCbuf a bs).stage = s.stage := rfl
@[simp] theorem State.putCbuf_raised (s : State) (a : Nat) (bs : Bytes) : (s.putCbuf a bs).raised = s.raised := rfl
@[simp] theorem State.putCbuf_salt (s : State) (a : Nat) (bs : Bytes) : (s.putCbuf a bs).salt = s.salt := rfl
@[simp] theorem State.putCbuf_akey (s : State) (a : Nat) (bs : Bytes) : (s.putCbuf a bs).akey = s.akey := rfl
@[simp] theorem State.putCbuf_hkey (s : State) (a : Nat) (bs : Bytes) : (s.putCbuf a bs).hkey = s.hkey := rfl
@[simp] theorem State.putCbuf_pvv (s : State) (a : Nat) (bs : Bytes) : (s.putCbuf a bs).pvv = s.pvv := rfl
@[simp] theorem State.putCbuf_dk (s : State) (a : Nat) (bs : Bytes) : (s.putCbuf a bs).dk = s.dk := rfl
@[simp] theorem State.putCbuf_crcr (s : State) (a : Nat) (bs : Bytes) : (s.putCbuf a bs).crcr = s.crcr := rfl
@[simp] theorem State.putCbuf_usz (s : State) (a : Nat) (bs : Bytes) : (s.putCbuf a bs).usz = s.usz := rfl
@[simp] theorem State.putCbuf_cbuf (s : State) (a : Nat) (bs : Bytes) :
    (s.putCbuf a bs).cbuf = s.cbuf.putBytes innerBlank a bs := rfl
@[simp] theorem State.putCbuf_clen (s : State) (a : Nat) (bs : Bytes) : (s.putCbuf a bs).clen = s.clen := rfl
@[simp] theorem State.putCbuf_xbuf (s : State) (a : Nat) (bs : Bytes) : (s.putCbuf a bs).xbuf = s.xbuf := rfl
@[simp] theorem State.putCbuf_hmd (s : State) (a : Nat) (bs : Bytes) : (s.putCbuf a bs).hmd = s.hmd := rfl
@[simp] theorem State.putCbuf_tagc (s : State) (a : Nat) (bs : Bytes) : (s.putCbuf a bs).tagc = s.tagc := rfl
@[simp] theorem State.putCbuf_ctr (s : State) (a : Nat) (bs : Bytes) : (s.putCbuf a bs).ctr = s.ctr := rfl
@[simp] theorem State.putCbuf_ks (s : State) (a : Nat) (bs : Bytes) : (s.putCbuf a bs).ks = s.ks := rfl
@[simp] theorem State.putCbuf_bidx (s : State) (a : Nat) (bs : Bytes) : (s.putCbuf a bs).bidx = s.bidx := rfl
@[simp] theorem State.putCbuf_mem (s : State) (a : Nat) (bs : Bytes) : (s.putCbuf a bs).mem = s.mem := rfl
@[simp] theorem State.putCbuf_last (s : State) (a : Nat) (bs : Bytes) : (s.putCbuf a bs).last = s.last := rfl
@[simp] theorem State.putCbuf_host (s : State) (a : Nat) (bs : Bytes) : (s.putCbuf a bs).host = s.host := rfl
@[simp] theorem State.putCbuf_turns (s : State) (a : Nat) (bs : Bytes) : (s.putCbuf a bs).turns = s.turns := rfl
@[simp] theorem State.putCbuf_draws (s : State) (a : Nat) (bs : Bytes) : (s.putCbuf a bs).draws = s.draws := rfl

/-! ### putXbuf -/

@[simp] theorem State.putXbuf_tbyp (s : State) (a : Nat) (bs : Bytes) : (s.putXbuf a bs).tbyp = s.tbyp := rfl
@[simp] theorem State.putXbuf_ie (s : State) (a : Nat) (bs : Bytes) : (s.putXbuf a bs).ie = s.ie := rfl
@[simp] theorem State.putXbuf_busy (s : State) (a : Nat) (bs : Bytes) : (s.putXbuf a bs).busy = s.busy := rfl
@[simp] theorem State.putXbuf_done (s : State) (a : Nat) (bs : Bytes) : (s.putXbuf a bs).done = s.done := rfl
@[simp] theorem State.putXbuf_err (s : State) (a : Nat) (bs : Bytes) : (s.putXbuf a bs).err = s.err := rfl
@[simp] theorem State.putXbuf_ilen (s : State) (a : Nat) (bs : Bytes) : (s.putXbuf a bs).ilen = s.ilen := rfl
@[simp] theorem State.putXbuf_pwlen (s : State) (a : Nat) (bs : Bytes) : (s.putXbuf a bs).pwlen = s.pwlen := rfl
@[simp] theorem State.putXbuf_olen (s : State) (a : Nat) (bs : Bytes) : (s.putXbuf a bs).olen = s.olen := rfl
@[simp] theorem State.putXbuf_stage (s : State) (a : Nat) (bs : Bytes) : (s.putXbuf a bs).stage = s.stage := rfl
@[simp] theorem State.putXbuf_raised (s : State) (a : Nat) (bs : Bytes) : (s.putXbuf a bs).raised = s.raised := rfl
@[simp] theorem State.putXbuf_salt (s : State) (a : Nat) (bs : Bytes) : (s.putXbuf a bs).salt = s.salt := rfl
@[simp] theorem State.putXbuf_akey (s : State) (a : Nat) (bs : Bytes) : (s.putXbuf a bs).akey = s.akey := rfl
@[simp] theorem State.putXbuf_hkey (s : State) (a : Nat) (bs : Bytes) : (s.putXbuf a bs).hkey = s.hkey := rfl
@[simp] theorem State.putXbuf_pvv (s : State) (a : Nat) (bs : Bytes) : (s.putXbuf a bs).pvv = s.pvv := rfl
@[simp] theorem State.putXbuf_dk (s : State) (a : Nat) (bs : Bytes) : (s.putXbuf a bs).dk = s.dk := rfl
@[simp] theorem State.putXbuf_crcr (s : State) (a : Nat) (bs : Bytes) : (s.putXbuf a bs).crcr = s.crcr := rfl
@[simp] theorem State.putXbuf_usz (s : State) (a : Nat) (bs : Bytes) : (s.putXbuf a bs).usz = s.usz := rfl
@[simp] theorem State.putXbuf_cbuf (s : State) (a : Nat) (bs : Bytes) : (s.putXbuf a bs).cbuf = s.cbuf := rfl
@[simp] theorem State.putXbuf_clen (s : State) (a : Nat) (bs : Bytes) : (s.putXbuf a bs).clen = s.clen := rfl
@[simp] theorem State.putXbuf_xbuf (s : State) (a : Nat) (bs : Bytes) :
    (s.putXbuf a bs).xbuf = s.xbuf.putBytes innerBlank a bs := rfl
@[simp] theorem State.putXbuf_hmd (s : State) (a : Nat) (bs : Bytes) : (s.putXbuf a bs).hmd = s.hmd := rfl
@[simp] theorem State.putXbuf_tagc (s : State) (a : Nat) (bs : Bytes) : (s.putXbuf a bs).tagc = s.tagc := rfl
@[simp] theorem State.putXbuf_ctr (s : State) (a : Nat) (bs : Bytes) : (s.putXbuf a bs).ctr = s.ctr := rfl
@[simp] theorem State.putXbuf_ks (s : State) (a : Nat) (bs : Bytes) : (s.putXbuf a bs).ks = s.ks := rfl
@[simp] theorem State.putXbuf_bidx (s : State) (a : Nat) (bs : Bytes) : (s.putXbuf a bs).bidx = s.bidx := rfl
@[simp] theorem State.putXbuf_mem (s : State) (a : Nat) (bs : Bytes) : (s.putXbuf a bs).mem = s.mem := rfl
@[simp] theorem State.putXbuf_last (s : State) (a : Nat) (bs : Bytes) : (s.putXbuf a bs).last = s.last := rfl
@[simp] theorem State.putXbuf_host (s : State) (a : Nat) (bs : Bytes) : (s.putXbuf a bs).host = s.host := rfl
@[simp] theorem State.putXbuf_turns (s : State) (a : Nat) (bs : Bytes) : (s.putXbuf a bs).turns = s.turns := rfl
@[simp] theorem State.putXbuf_draws (s : State) (a : Nat) (bs : Bytes) : (s.putXbuf a bs).draws = s.draws := rfl

/-! ### goto -/

@[simp] theorem State.goto_tbyp (s : State) (st : Stage) : (s.goto st).tbyp = s.tbyp := rfl
@[simp] theorem State.goto_ie (s : State) (st : Stage) : (s.goto st).ie = s.ie := rfl
@[simp] theorem State.goto_busy (s : State) (st : Stage) : (s.goto st).busy = s.busy := rfl
@[simp] theorem State.goto_done (s : State) (st : Stage) : (s.goto st).done = s.done := rfl
@[simp] theorem State.goto_err (s : State) (st : Stage) : (s.goto st).err = s.err := rfl
@[simp] theorem State.goto_ilen (s : State) (st : Stage) : (s.goto st).ilen = s.ilen := rfl
@[simp] theorem State.goto_pwlen (s : State) (st : Stage) : (s.goto st).pwlen = s.pwlen := rfl
@[simp] theorem State.goto_olen (s : State) (st : Stage) : (s.goto st).olen = s.olen := rfl
@[simp] theorem State.goto_stage (s : State) (st : Stage) : (s.goto st).stage = st.code := rfl
@[simp] theorem State.goto_raised (s : State) (st : Stage) : (s.goto st).raised = s.raised := rfl
@[simp] theorem State.goto_salt (s : State) (st : Stage) : (s.goto st).salt = s.salt := rfl
@[simp] theorem State.goto_akey (s : State) (st : Stage) : (s.goto st).akey = s.akey := rfl
@[simp] theorem State.goto_hkey (s : State) (st : Stage) : (s.goto st).hkey = s.hkey := rfl
@[simp] theorem State.goto_pvv (s : State) (st : Stage) : (s.goto st).pvv = s.pvv := rfl
@[simp] theorem State.goto_dk (s : State) (st : Stage) : (s.goto st).dk = s.dk := rfl
@[simp] theorem State.goto_crcr (s : State) (st : Stage) : (s.goto st).crcr = s.crcr := rfl
@[simp] theorem State.goto_usz (s : State) (st : Stage) : (s.goto st).usz = s.usz := rfl
@[simp] theorem State.goto_cbuf (s : State) (st : Stage) : (s.goto st).cbuf = s.cbuf := rfl
@[simp] theorem State.goto_clen (s : State) (st : Stage) : (s.goto st).clen = s.clen := rfl
@[simp] theorem State.goto_xbuf (s : State) (st : Stage) : (s.goto st).xbuf = s.xbuf := rfl
@[simp] theorem State.goto_hmd (s : State) (st : Stage) : (s.goto st).hmd = s.hmd := rfl
@[simp] theorem State.goto_tagc (s : State) (st : Stage) : (s.goto st).tagc = s.tagc := rfl
@[simp] theorem State.goto_ctr (s : State) (st : Stage) : (s.goto st).ctr = s.ctr := rfl
@[simp] theorem State.goto_ks (s : State) (st : Stage) : (s.goto st).ks = s.ks := rfl
@[simp] theorem State.goto_bidx (s : State) (st : Stage) : (s.goto st).bidx = s.bidx := rfl
@[simp] theorem State.goto_mem (s : State) (st : Stage) : (s.goto st).mem = s.mem := rfl
@[simp] theorem State.goto_last (s : State) (st : Stage) : (s.goto st).last = s.last := rfl
@[simp] theorem State.goto_host (s : State) (st : Stage) : (s.goto st).host = s.host := rfl
@[simp] theorem State.goto_turns (s : State) (st : Stage) : (s.goto st).turns = s.turns := rfl
@[simp] theorem State.goto_draws (s : State) (st : Stage) : (s.goto st).draws = s.draws := rfl

/-! ### ctrInit -/

@[simp] theorem State.ctrInit_tbyp (s : State) : s.ctrInit.tbyp = s.tbyp := rfl
@[simp] theorem State.ctrInit_ie (s : State) : s.ctrInit.ie = s.ie := rfl
@[simp] theorem State.ctrInit_busy (s : State) : s.ctrInit.busy = s.busy := rfl
@[simp] theorem State.ctrInit_done (s : State) : s.ctrInit.done = s.done := rfl
@[simp] theorem State.ctrInit_err (s : State) : s.ctrInit.err = s.err := rfl
@[simp] theorem State.ctrInit_ilen (s : State) : s.ctrInit.ilen = s.ilen := rfl
@[simp] theorem State.ctrInit_pwlen (s : State) : s.ctrInit.pwlen = s.pwlen := rfl
@[simp] theorem State.ctrInit_olen (s : State) : s.ctrInit.olen = s.olen := rfl
@[simp] theorem State.ctrInit_stage (s : State) : s.ctrInit.stage = s.stage := rfl
@[simp] theorem State.ctrInit_raised (s : State) : s.ctrInit.raised = s.raised := rfl
@[simp] theorem State.ctrInit_salt (s : State) : s.ctrInit.salt = s.salt := rfl
@[simp] theorem State.ctrInit_akey (s : State) : s.ctrInit.akey = s.akey := rfl
@[simp] theorem State.ctrInit_hkey (s : State) : s.ctrInit.hkey = s.hkey := rfl
@[simp] theorem State.ctrInit_pvv (s : State) : s.ctrInit.pvv = s.pvv := rfl
@[simp] theorem State.ctrInit_dk (s : State) : s.ctrInit.dk = s.dk := rfl
@[simp] theorem State.ctrInit_crcr (s : State) : s.ctrInit.crcr = s.crcr := rfl
@[simp] theorem State.ctrInit_usz (s : State) : s.ctrInit.usz = s.usz := rfl
@[simp] theorem State.ctrInit_cbuf (s : State) : s.ctrInit.cbuf = s.cbuf := rfl
@[simp] theorem State.ctrInit_clen (s : State) : s.ctrInit.clen = s.clen := rfl
@[simp] theorem State.ctrInit_xbuf (s : State) : s.ctrInit.xbuf = s.xbuf := rfl
@[simp] theorem State.ctrInit_hmd (s : State) : s.ctrInit.hmd = s.hmd := rfl
@[simp] theorem State.ctrInit_tagc (s : State) : s.ctrInit.tagc = s.tagc := rfl
@[simp] theorem State.ctrInit_ctr (s : State) : s.ctrInit.ctr = 0 := rfl
@[simp] theorem State.ctrInit_ks (s : State) : s.ctrInit.ks = s.ks := rfl
@[simp] theorem State.ctrInit_bidx (s : State) : s.ctrInit.bidx = 0 := rfl
@[simp] theorem State.ctrInit_mem (s : State) : s.ctrInit.mem = s.mem := rfl
@[simp] theorem State.ctrInit_last (s : State) : s.ctrInit.last = s.last := rfl
@[simp] theorem State.ctrInit_host (s : State) : s.ctrInit.host = s.host := rfl
@[simp] theorem State.ctrInit_turns (s : State) : s.ctrInit.turns = s.turns := rfl
@[simp] theorem State.ctrInit_draws (s : State) : s.ctrInit.draws = s.draws := rfl

/-! ### enterCipher -/

@[simp] theorem State.enterCipher_tbyp (s : State) (st : Stage) : (s.enterCipher st).tbyp = s.tbyp := rfl
@[simp] theorem State.enterCipher_ie (s : State) (st : Stage) : (s.enterCipher st).ie = s.ie := rfl
@[simp] theorem State.enterCipher_busy (s : State) (st : Stage) : (s.enterCipher st).busy = s.busy := rfl
@[simp] theorem State.enterCipher_done (s : State) (st : Stage) : (s.enterCipher st).done = s.done := rfl
@[simp] theorem State.enterCipher_err (s : State) (st : Stage) : (s.enterCipher st).err = s.err := rfl
@[simp] theorem State.enterCipher_ilen (s : State) (st : Stage) : (s.enterCipher st).ilen = s.ilen := rfl
@[simp] theorem State.enterCipher_pwlen (s : State) (st : Stage) : (s.enterCipher st).pwlen = s.pwlen := rfl
@[simp] theorem State.enterCipher_olen (s : State) (st : Stage) : (s.enterCipher st).olen = s.olen := rfl
@[simp] theorem State.enterCipher_stage (s : State) (st : Stage) : (s.enterCipher st).stage = st.code := rfl
@[simp] theorem State.enterCipher_raised (s : State) (st : Stage) : (s.enterCipher st).raised = s.raised := rfl
@[simp] theorem State.enterCipher_salt (s : State) (st : Stage) : (s.enterCipher st).salt = s.salt := rfl
@[simp] theorem State.enterCipher_akey (s : State) (st : Stage) : (s.enterCipher st).akey = s.akey := rfl
@[simp] theorem State.enterCipher_hkey (s : State) (st : Stage) : (s.enterCipher st).hkey = s.hkey := rfl
@[simp] theorem State.enterCipher_pvv (s : State) (st : Stage) : (s.enterCipher st).pvv = s.pvv := rfl
@[simp] theorem State.enterCipher_dk (s : State) (st : Stage) : (s.enterCipher st).dk = s.dk := rfl
@[simp] theorem State.enterCipher_crcr (s : State) (st : Stage) : (s.enterCipher st).crcr = s.crcr := rfl
@[simp] theorem State.enterCipher_usz (s : State) (st : Stage) : (s.enterCipher st).usz = s.usz := rfl
@[simp] theorem State.enterCipher_cbuf (s : State) (st : Stage) : (s.enterCipher st).cbuf = s.cbuf := rfl
@[simp] theorem State.enterCipher_clen (s : State) (st : Stage) : (s.enterCipher st).clen = s.clen := rfl
@[simp] theorem State.enterCipher_xbuf (s : State) (st : Stage) : (s.enterCipher st).xbuf = s.xbuf := rfl
@[simp] theorem State.enterCipher_hmd (s : State) (st : Stage) : (s.enterCipher st).hmd = s.hmd := rfl
@[simp] theorem State.enterCipher_tagc (s : State) (st : Stage) : (s.enterCipher st).tagc = s.tagc := rfl
@[simp] theorem State.enterCipher_ctr (s : State) (st : Stage) : (s.enterCipher st).ctr = 0 := rfl
@[simp] theorem State.enterCipher_ks (s : State) (st : Stage) : (s.enterCipher st).ks = s.ks := rfl
@[simp] theorem State.enterCipher_bidx (s : State) (st : Stage) : (s.enterCipher st).bidx = 0 := rfl
@[simp] theorem State.enterCipher_mem (s : State) (st : Stage) : (s.enterCipher st).mem = s.mem := rfl
@[simp] theorem State.enterCipher_last (s : State) (st : Stage) : (s.enterCipher st).last = s.last := rfl
@[simp] theorem State.enterCipher_host (s : State) (st : Stage) : (s.enterCipher st).host = s.host := rfl
@[simp] theorem State.enterCipher_turns (s : State) (st : Stage) : (s.enterCipher st).turns = s.turns := rfl
@[simp] theorem State.enterCipher_draws (s : State) (st : Stage) : (s.enterCipher st).draws = s.draws := rfl

/-! ### raise -/

@[simp] theorem State.raise_tbyp (s : State) (k : ErrKind) : (s.raise k).tbyp = s.tbyp := rfl
@[simp] theorem State.raise_ie (s : State) (k : ErrKind) : (s.raise k).ie = s.ie := rfl
@[simp] theorem State.raise_busy (s : State) (k : ErrKind) : (s.raise k).busy = s.busy := rfl
@[simp] theorem State.raise_done (s : State) (k : ErrKind) : (s.raise k).done = s.done := rfl
@[simp] theorem State.raise_err (s : State) (k : ErrKind) : (s.raise k).err = s.err := rfl
@[simp] theorem State.raise_ilen (s : State) (k : ErrKind) : (s.raise k).ilen = s.ilen := rfl
@[simp] theorem State.raise_pwlen (s : State) (k : ErrKind) : (s.raise k).pwlen = s.pwlen := rfl
@[simp] theorem State.raise_olen (s : State) (k : ErrKind) : (s.raise k).olen = s.olen := rfl
@[simp] theorem State.raise_stage (s : State) (k : ErrKind) : (s.raise k).stage = Stage.finish.code := rfl
@[simp] theorem State.raise_raised (s : State) (k : ErrKind) : (s.raise k).raised = some k := rfl
@[simp] theorem State.raise_salt (s : State) (k : ErrKind) : (s.raise k).salt = s.salt := rfl
@[simp] theorem State.raise_akey (s : State) (k : ErrKind) : (s.raise k).akey = s.akey := rfl
@[simp] theorem State.raise_hkey (s : State) (k : ErrKind) : (s.raise k).hkey = s.hkey := rfl
@[simp] theorem State.raise_pvv (s : State) (k : ErrKind) : (s.raise k).pvv = s.pvv := rfl
@[simp] theorem State.raise_dk (s : State) (k : ErrKind) : (s.raise k).dk = s.dk := rfl
@[simp] theorem State.raise_crcr (s : State) (k : ErrKind) : (s.raise k).crcr = s.crcr := rfl
@[simp] theorem State.raise_usz (s : State) (k : ErrKind) : (s.raise k).usz = s.usz := rfl
@[simp] theorem State.raise_cbuf (s : State) (k : ErrKind) : (s.raise k).cbuf = s.cbuf := rfl
@[simp] theorem State.raise_clen (s : State) (k : ErrKind) : (s.raise k).clen = s.clen := rfl
@[simp] theorem State.raise_xbuf (s : State) (k : ErrKind) : (s.raise k).xbuf = s.xbuf := rfl
@[simp] theorem State.raise_hmd (s : State) (k : ErrKind) : (s.raise k).hmd = s.hmd := rfl
@[simp] theorem State.raise_tagc (s : State) (k : ErrKind) : (s.raise k).tagc = s.tagc := rfl
@[simp] theorem State.raise_ctr (s : State) (k : ErrKind) : (s.raise k).ctr = s.ctr := rfl
@[simp] theorem State.raise_ks (s : State) (k : ErrKind) : (s.raise k).ks = s.ks := rfl
@[simp] theorem State.raise_bidx (s : State) (k : ErrKind) : (s.raise k).bidx = s.bidx := rfl
@[simp] theorem State.raise_mem (s : State) (k : ErrKind) : (s.raise k).mem = s.mem := rfl
@[simp] theorem State.raise_last (s : State) (k : ErrKind) : (s.raise k).last = s.last := rfl
@[simp] theorem State.raise_host (s : State) (k : ErrKind) : (s.raise k).host = s.host := rfl
@[simp] theorem State.raise_turns (s : State) (k : ErrKind) : (s.raise k).turns = s.turns := rfl
@[simp] theorem State.raise_draws (s : State) (k : ErrKind) : (s.raise k).draws = s.draws := rfl

/-! ### succeed -/

@[simp] theorem State.succeed_tbyp (s : State) : s.succeed.tbyp = s.tbyp := rfl
@[simp] theorem State.succeed_ie (s : State) : s.succeed.ie = s.ie := rfl
@[simp] theorem State.succeed_busy (s : State) : s.succeed.busy = s.busy := rfl
@[simp] theorem State.succeed_done (s : State) : s.succeed.done = s.done := rfl
@[simp] theorem State.succeed_err (s : State) : s.succeed.err = s.err := rfl
@[simp] theorem State.succeed_ilen (s : State) : s.succeed.ilen = s.ilen := rfl
@[simp] theorem State.succeed_pwlen (s : State) : s.succeed.pwlen = s.pwlen := rfl
@[simp] theorem State.succeed_olen (s : State) : s.succeed.olen = s.olen := rfl
@[simp] theorem State.succeed_stage (s : State) : s.succeed.stage = Stage.finish.code := rfl
@[simp] theorem State.succeed_raised (s : State) : s.succeed.raised = none := rfl
@[simp] theorem State.succeed_salt (s : State) : s.succeed.salt = s.salt := rfl
@[simp] theorem State.succeed_akey (s : State) : s.succeed.akey = s.akey := rfl
@[simp] theorem State.succeed_hkey (s : State) : s.succeed.hkey = s.hkey := rfl
@[simp] theorem State.succeed_pvv (s : State) : s.succeed.pvv = s.pvv := rfl
@[simp] theorem State.succeed_dk (s : State) : s.succeed.dk = s.dk := rfl
@[simp] theorem State.succeed_crcr (s : State) : s.succeed.crcr = s.crcr := rfl
@[simp] theorem State.succeed_usz (s : State) : s.succeed.usz = s.usz := rfl
@[simp] theorem State.succeed_cbuf (s : State) : s.succeed.cbuf = s.cbuf := rfl
@[simp] theorem State.succeed_clen (s : State) : s.succeed.clen = s.clen := rfl
@[simp] theorem State.succeed_xbuf (s : State) : s.succeed.xbuf = s.xbuf := rfl
@[simp] theorem State.succeed_hmd (s : State) : s.succeed.hmd = s.hmd := rfl
@[simp] theorem State.succeed_tagc (s : State) : s.succeed.tagc = s.tagc := rfl
@[simp] theorem State.succeed_ctr (s : State) : s.succeed.ctr = s.ctr := rfl
@[simp] theorem State.succeed_ks (s : State) : s.succeed.ks = s.ks := rfl
@[simp] theorem State.succeed_bidx (s : State) : s.succeed.bidx = s.bidx := rfl
@[simp] theorem State.succeed_mem (s : State) : s.succeed.mem = s.mem := rfl
@[simp] theorem State.succeed_last (s : State) : s.succeed.last = s.last := rfl
@[simp] theorem State.succeed_host (s : State) : s.succeed.host = s.host := rfl
@[simp] theorem State.succeed_turns (s : State) : s.succeed.turns = s.turns := rfl
@[simp] theorem State.succeed_draws (s : State) : s.succeed.draws = s.draws := rfl

/-! ### wipe -/

@[simp] theorem State.wipe_tbyp (s : State) : s.wipe.tbyp = s.tbyp := rfl
@[simp] theorem State.wipe_ie (s : State) : s.wipe.ie = s.ie := rfl
@[simp] theorem State.wipe_busy (s : State) : s.wipe.busy = s.busy := rfl
@[simp] theorem State.wipe_done (s : State) : s.wipe.done = s.done := rfl
@[simp] theorem State.wipe_err (s : State) : s.wipe.err = s.err := rfl
@[simp] theorem State.wipe_ilen (s : State) : s.wipe.ilen = s.ilen := rfl
@[simp] theorem State.wipe_pwlen (s : State) : s.wipe.pwlen = s.pwlen := rfl
@[simp] theorem State.wipe_olen (s : State) : s.wipe.olen = s.olen := rfl
@[simp] theorem State.wipe_stage (s : State) : s.wipe.stage = s.stage := rfl
@[simp] theorem State.wipe_raised (s : State) : s.wipe.raised = s.raised := rfl
@[simp] theorem State.wipe_salt (s : State) : s.wipe.salt = ByteReg.zero 16 := rfl
@[simp] theorem State.wipe_akey (s : State) : s.wipe.akey = ByteReg.zero 32 := rfl
@[simp] theorem State.wipe_hkey (s : State) : s.wipe.hkey = ByteReg.zero 32 := rfl
@[simp] theorem State.wipe_pvv (s : State) : s.wipe.pvv = ByteReg.zero 2 := rfl
@[simp] theorem State.wipe_dk (s : State) : s.wipe.dk = ByteReg.zero 66 := rfl
@[simp] theorem State.wipe_crcr (s : State) : s.wipe.crcr = 0 := rfl
@[simp] theorem State.wipe_usz (s : State) : s.wipe.usz = 0 := rfl
@[simp] theorem State.wipe_cbuf (s : State) : s.wipe.cbuf = [] := rfl
@[simp] theorem State.wipe_clen (s : State) : s.wipe.clen = 0 := rfl
@[simp] theorem State.wipe_xbuf (s : State) : s.wipe.xbuf = [] := rfl
@[simp] theorem State.wipe_hmd (s : State) : s.wipe.hmd = ByteReg.zero 20 := rfl
@[simp] theorem State.wipe_tagc (s : State) : s.wipe.tagc = ByteReg.zero 10 := rfl
@[simp] theorem State.wipe_ctr (s : State) : s.wipe.ctr = 0 := rfl
@[simp] theorem State.wipe_ks (s : State) : s.wipe.ks = ByteReg.zero 16 := rfl
@[simp] theorem State.wipe_bidx (s : State) : s.wipe.bidx = 0 := rfl
@[simp] theorem State.wipe_mem (s : State) : s.wipe.mem = s.mem := rfl
@[simp] theorem State.wipe_last (s : State) : s.wipe.last = s.last := rfl
@[simp] theorem State.wipe_host (s : State) : s.wipe.host = s.host := rfl
@[simp] theorem State.wipe_turns (s : State) : s.wipe.turns = s.turns := rfl
@[simp] theorem State.wipe_draws (s : State) : s.wipe.draws = s.draws := rfl

/-! ### startCommand -/

@[simp] theorem State.startCommand_tbyp (s : State) (st : Stage) : (s.startCommand st).tbyp = s.tbyp := rfl
@[simp] theorem State.startCommand_ie (s : State) (st : Stage) : (s.startCommand st).ie = s.ie := rfl
@[simp] theorem State.startCommand_busy (s : State) (st : Stage) : (s.startCommand st).busy = true := rfl
@[simp] theorem State.startCommand_done (s : State) (st : Stage) : (s.startCommand st).done = false := rfl
@[simp] theorem State.startCommand_err (s : State) (st : Stage) : (s.startCommand st).err = 0 := rfl
@[simp] theorem State.startCommand_ilen (s : State) (st : Stage) : (s.startCommand st).ilen = s.ilen := rfl
@[simp] theorem State.startCommand_pwlen (s : State) (st : Stage) : (s.startCommand st).pwlen = s.pwlen := rfl
@[simp] theorem State.startCommand_olen (s : State) (st : Stage) : (s.startCommand st).olen = 0 := rfl
@[simp] theorem State.startCommand_stage (s : State) (st : Stage) : (s.startCommand st).stage = st.code := rfl
@[simp] theorem State.startCommand_raised (s : State) (st : Stage) : (s.startCommand st).raised = s.raised := rfl
@[simp] theorem State.startCommand_salt (s : State) (st : Stage) : (s.startCommand st).salt = s.salt := rfl
@[simp] theorem State.startCommand_akey (s : State) (st : Stage) : (s.startCommand st).akey = s.akey := rfl
@[simp] theorem State.startCommand_hkey (s : State) (st : Stage) : (s.startCommand st).hkey = s.hkey := rfl
@[simp] theorem State.startCommand_pvv (s : State) (st : Stage) : (s.startCommand st).pvv = s.pvv := rfl
@[simp] theorem State.startCommand_dk (s : State) (st : Stage) : (s.startCommand st).dk = s.dk := rfl
@[simp] theorem State.startCommand_crcr (s : State) (st : Stage) : (s.startCommand st).crcr = s.crcr := rfl
@[simp] theorem State.startCommand_usz (s : State) (st : Stage) : (s.startCommand st).usz = s.usz := rfl
@[simp] theorem State.startCommand_cbuf (s : State) (st : Stage) : (s.startCommand st).cbuf = s.cbuf := rfl
@[simp] theorem State.startCommand_clen (s : State) (st : Stage) : (s.startCommand st).clen = s.clen := rfl
@[simp] theorem State.startCommand_xbuf (s : State) (st : Stage) : (s.startCommand st).xbuf = s.xbuf := rfl
@[simp] theorem State.startCommand_hmd (s : State) (st : Stage) : (s.startCommand st).hmd = s.hmd := rfl
@[simp] theorem State.startCommand_tagc (s : State) (st : Stage) : (s.startCommand st).tagc = s.tagc := rfl
@[simp] theorem State.startCommand_ctr (s : State) (st : Stage) : (s.startCommand st).ctr = s.ctr := rfl
@[simp] theorem State.startCommand_ks (s : State) (st : Stage) : (s.startCommand st).ks = s.ks := rfl
@[simp] theorem State.startCommand_bidx (s : State) (st : Stage) : (s.startCommand st).bidx = s.bidx := rfl
@[simp] theorem State.startCommand_mem (s : State) (st : Stage) : (s.startCommand st).mem = s.mem := rfl
@[simp] theorem State.startCommand_last (s : State) (st : Stage) : (s.startCommand st).last = s.last := rfl
@[simp] theorem State.startCommand_host (s : State) (st : Stage) : (s.startCommand st).host = s.host := rfl
@[simp] theorem State.startCommand_turns (s : State) (st : Stage) : (s.startCommand st).turns = s.turns := rfl
@[simp] theorem State.startCommand_draws (s : State) (st : Stage) : (s.startCommand st).draws = s.draws := rfl

/-! ### endBadCommand -/

@[simp] theorem State.endBadCommand_tbyp (s : State) : s.endBadCommand.tbyp = s.tbyp := rfl
@[simp] theorem State.endBadCommand_ie (s : State) : s.endBadCommand.ie = s.ie := rfl
@[simp] theorem State.endBadCommand_busy (s : State) : s.endBadCommand.busy = s.busy := rfl
@[simp] theorem State.endBadCommand_done (s : State) : s.endBadCommand.done = true := rfl
@[simp] theorem State.endBadCommand_err (s : State) : s.endBadCommand.err = ErrKind.badCommand.code := rfl
@[simp] theorem State.endBadCommand_ilen (s : State) : s.endBadCommand.ilen = s.ilen := rfl
@[simp] theorem State.endBadCommand_pwlen (s : State) : s.endBadCommand.pwlen = s.pwlen := rfl
@[simp] theorem State.endBadCommand_olen (s : State) : s.endBadCommand.olen = 0 := rfl
@[simp] theorem State.endBadCommand_stage (s : State) : s.endBadCommand.stage = s.stage := rfl
@[simp] theorem State.endBadCommand_raised (s : State) : s.endBadCommand.raised = s.raised := rfl
@[simp] theorem State.endBadCommand_salt (s : State) : s.endBadCommand.salt = s.salt := rfl
@[simp] theorem State.endBadCommand_akey (s : State) : s.endBadCommand.akey = s.akey := rfl
@[simp] theorem State.endBadCommand_hkey (s : State) : s.endBadCommand.hkey = s.hkey := rfl
@[simp] theorem State.endBadCommand_pvv (s : State) : s.endBadCommand.pvv = s.pvv := rfl
@[simp] theorem State.endBadCommand_dk (s : State) : s.endBadCommand.dk = s.dk := rfl
@[simp] theorem State.endBadCommand_crcr (s : State) : s.endBadCommand.crcr = s.crcr := rfl
@[simp] theorem State.endBadCommand_usz (s : State) : s.endBadCommand.usz = s.usz := rfl
@[simp] theorem State.endBadCommand_cbuf (s : State) : s.endBadCommand.cbuf = s.cbuf := rfl
@[simp] theorem State.endBadCommand_clen (s : State) : s.endBadCommand.clen = s.clen := rfl
@[simp] theorem State.endBadCommand_xbuf (s : State) : s.endBadCommand.xbuf = s.xbuf := rfl
@[simp] theorem State.endBadCommand_hmd (s : State) : s.endBadCommand.hmd = s.hmd := rfl
@[simp] theorem State.endBadCommand_tagc (s : State) : s.endBadCommand.tagc = s.tagc := rfl
@[simp] theorem State.endBadCommand_ctr (s : State) : s.endBadCommand.ctr = s.ctr := rfl
@[simp] theorem State.endBadCommand_ks (s : State) : s.endBadCommand.ks = s.ks := rfl
@[simp] theorem State.endBadCommand_bidx (s : State) : s.endBadCommand.bidx = s.bidx := rfl
@[simp] theorem State.endBadCommand_mem (s : State) : s.endBadCommand.mem = s.mem := rfl
@[simp] theorem State.endBadCommand_last (s : State) : s.endBadCommand.last = s.last := rfl
@[simp] theorem State.endBadCommand_host (s : State) : s.endBadCommand.host = s.host := rfl
@[simp] theorem State.endBadCommand_turns (s : State) : s.endBadCommand.turns = s.turns := rfl
@[simp] theorem State.endBadCommand_draws (s : State) : s.endBadCommand.draws = s.draws := rfl

/-! ### sliceKeys -/

@[simp] theorem State.sliceKeys_tbyp (s : State) (k : Bytes) : (s.sliceKeys k).tbyp = s.tbyp := rfl
@[simp] theorem State.sliceKeys_ie (s : State) (k : Bytes) : (s.sliceKeys k).ie = s.ie := rfl
@[simp] theorem State.sliceKeys_busy (s : State) (k : Bytes) : (s.sliceKeys k).busy = s.busy := rfl
@[simp] theorem State.sliceKeys_done (s : State) (k : Bytes) : (s.sliceKeys k).done = s.done := rfl
@[simp] theorem State.sliceKeys_err (s : State) (k : Bytes) : (s.sliceKeys k).err = s.err := rfl
@[simp] theorem State.sliceKeys_ilen (s : State) (k : Bytes) : (s.sliceKeys k).ilen = s.ilen := rfl
@[simp] theorem State.sliceKeys_pwlen (s : State) (k : Bytes) : (s.sliceKeys k).pwlen = s.pwlen := rfl
@[simp] theorem State.sliceKeys_olen (s : State) (k : Bytes) : (s.sliceKeys k).olen = s.olen := rfl
@[simp] theorem State.sliceKeys_stage (s : State) (k : Bytes) : (s.sliceKeys k).stage = s.stage := rfl
@[simp] theorem State.sliceKeys_raised (s : State) (k : Bytes) : (s.sliceKeys k).raised = s.raised := rfl
@[simp] theorem State.sliceKeys_salt (s : State) (k : Bytes) : (s.sliceKeys k).salt = s.salt := rfl
@[simp] theorem State.sliceKeys_akey (s : State) (k : Bytes) :
    (s.sliceKeys k).akey = ByteReg.ofBytes 32 (k.take 32) := rfl
@[simp] theorem State.sliceKeys_hkey (s : State) (k : Bytes) :
    (s.sliceKeys k).hkey = ByteReg.ofBytes 32 ((k.drop 32).take 32) := rfl
@[simp] theorem State.sliceKeys_pvv (s : State) (k : Bytes) :
    (s.sliceKeys k).pvv = ByteReg.ofBytes 2 ((k.drop 64).take 2) := rfl
@[simp] theorem State.sliceKeys_dk (s : State) (k : Bytes) : (s.sliceKeys k).dk = ByteReg.ofBytes 66 k := rfl
@[simp] theorem State.sliceKeys_crcr (s : State) (k : Bytes) : (s.sliceKeys k).crcr = s.crcr := rfl
@[simp] theorem State.sliceKeys_usz (s : State) (k : Bytes) : (s.sliceKeys k).usz = s.usz := rfl
@[simp] theorem State.sliceKeys_cbuf (s : State) (k : Bytes) : (s.sliceKeys k).cbuf = s.cbuf := rfl
@[simp] theorem State.sliceKeys_clen (s : State) (k : Bytes) : (s.sliceKeys k).clen = s.clen := rfl
@[simp] theorem State.sliceKeys_xbuf (s : State) (k : Bytes) : (s.sliceKeys k).xbuf = s.xbuf := rfl
@[simp] theorem State.sliceKeys_hmd (s : State) (k : Bytes) : (s.sliceKeys k).hmd = s.hmd := rfl
@[simp] theorem State.sliceKeys_tagc (s : State) (k : Bytes) : (s.sliceKeys k).tagc = s.tagc := rfl
@[simp] theorem State.sliceKeys_ctr (s : State) (k : Bytes) : (s.sliceKeys k).ctr = s.ctr := rfl
@[simp] theorem State.sliceKeys_ks (s : State) (k : Bytes) : (s.sliceKeys k).ks = s.ks := rfl
@[simp] theorem State.sliceKeys_bidx (s : State) (k : Bytes) : (s.sliceKeys k).bidx = s.bidx := rfl
@[simp] theorem State.sliceKeys_mem (s : State) (k : Bytes) : (s.sliceKeys k).mem = s.mem := rfl
@[simp] theorem State.sliceKeys_last (s : State) (k : Bytes) : (s.sliceKeys k).last = s.last := rfl
@[simp] theorem State.sliceKeys_host (s : State) (k : Bytes) : (s.sliceKeys k).host = s.host := rfl
@[simp] theorem State.sliceKeys_turns (s : State) (k : Bytes) : (s.sliceKeys k).turns = s.turns := rfl
@[simp] theorem State.sliceKeys_draws (s : State) (k : Bytes) : (s.sliceKeys k).draws = s.draws := rfl

/-! ### keepDigest -/

@[simp] theorem State.keepDigest_tbyp (s : State) (r : Bytes) : (s.keepDigest r).tbyp = s.tbyp := rfl
@[simp] theorem State.keepDigest_ie (s : State) (r : Bytes) : (s.keepDigest r).ie = s.ie := rfl
@[simp] theorem State.keepDigest_busy (s : State) (r : Bytes) : (s.keepDigest r).busy = s.busy := rfl
@[simp] theorem State.keepDigest_done (s : State) (r : Bytes) : (s.keepDigest r).done = s.done := rfl
@[simp] theorem State.keepDigest_err (s : State) (r : Bytes) : (s.keepDigest r).err = s.err := rfl
@[simp] theorem State.keepDigest_ilen (s : State) (r : Bytes) : (s.keepDigest r).ilen = s.ilen := rfl
@[simp] theorem State.keepDigest_pwlen (s : State) (r : Bytes) : (s.keepDigest r).pwlen = s.pwlen := rfl
@[simp] theorem State.keepDigest_olen (s : State) (r : Bytes) : (s.keepDigest r).olen = s.olen := rfl
@[simp] theorem State.keepDigest_stage (s : State) (r : Bytes) : (s.keepDigest r).stage = s.stage := rfl
@[simp] theorem State.keepDigest_raised (s : State) (r : Bytes) : (s.keepDigest r).raised = s.raised := rfl
@[simp] theorem State.keepDigest_salt (s : State) (r : Bytes) : (s.keepDigest r).salt = s.salt := rfl
@[simp] theorem State.keepDigest_akey (s : State) (r : Bytes) : (s.keepDigest r).akey = s.akey := rfl
@[simp] theorem State.keepDigest_hkey (s : State) (r : Bytes) : (s.keepDigest r).hkey = s.hkey := rfl
@[simp] theorem State.keepDigest_pvv (s : State) (r : Bytes) : (s.keepDigest r).pvv = s.pvv := rfl
@[simp] theorem State.keepDigest_dk (s : State) (r : Bytes) : (s.keepDigest r).dk = s.dk := rfl
@[simp] theorem State.keepDigest_crcr (s : State) (r : Bytes) : (s.keepDigest r).crcr = s.crcr := rfl
@[simp] theorem State.keepDigest_usz (s : State) (r : Bytes) : (s.keepDigest r).usz = s.usz := rfl
@[simp] theorem State.keepDigest_cbuf (s : State) (r : Bytes) : (s.keepDigest r).cbuf = s.cbuf := rfl
@[simp] theorem State.keepDigest_clen (s : State) (r : Bytes) : (s.keepDigest r).clen = s.clen := rfl
@[simp] theorem State.keepDigest_xbuf (s : State) (r : Bytes) : (s.keepDigest r).xbuf = s.xbuf := rfl
@[simp] theorem State.keepDigest_hmd (s : State) (r : Bytes) : (s.keepDigest r).hmd = ByteReg.ofBytes 20 r := rfl
@[simp] theorem State.keepDigest_tagc (s : State) (r : Bytes) :
    (s.keepDigest r).tagc = ByteReg.ofBytes 10 (r.take 10) := rfl
@[simp] theorem State.keepDigest_ctr (s : State) (r : Bytes) : (s.keepDigest r).ctr = s.ctr := rfl
@[simp] theorem State.keepDigest_ks (s : State) (r : Bytes) : (s.keepDigest r).ks = s.ks := rfl
@[simp] theorem State.keepDigest_bidx (s : State) (r : Bytes) : (s.keepDigest r).bidx = s.bidx := rfl
@[simp] theorem State.keepDigest_mem (s : State) (r : Bytes) : (s.keepDigest r).mem = s.mem := rfl
@[simp] theorem State.keepDigest_last (s : State) (r : Bytes) : (s.keepDigest r).last = s.last := rfl
@[simp] theorem State.keepDigest_host (s : State) (r : Bytes) : (s.keepDigest r).host = s.host := rfl
@[simp] theorem State.keepDigest_turns (s : State) (r : Bytes) : (s.keepDigest r).turns = s.turns := rfl
@[simp] theorem State.keepDigest_draws (s : State) (r : Bytes) : (s.keepDigest r).draws = s.draws := rfl

/-! ### setSalt -/

@[simp] theorem State.setSalt_tbyp (s : State) (bs : Bytes) : (s.setSalt bs).tbyp = s.tbyp := rfl
@[simp] theorem State.setSalt_ie (s : State) (bs : Bytes) : (s.setSalt bs).ie = s.ie := rfl
@[simp] theorem State.setSalt_busy (s : State) (bs : Bytes) : (s.setSalt bs).busy = s.busy := rfl
@[simp] theorem State.setSalt_done (s : State) (bs : Bytes) : (s.setSalt bs).done = s.done := rfl
@[simp] theorem State.setSalt_err (s : State) (bs : Bytes) : (s.setSalt bs).err = s.err := rfl
@[simp] theorem State.setSalt_ilen (s : State) (bs : Bytes) : (s.setSalt bs).ilen = s.ilen := rfl
@[simp] theorem State.setSalt_pwlen (s : State) (bs : Bytes) : (s.setSalt bs).pwlen = s.pwlen := rfl
@[simp] theorem State.setSalt_olen (s : State) (bs : Bytes) : (s.setSalt bs).olen = s.olen := rfl
@[simp] theorem State.setSalt_stage (s : State) (bs : Bytes) : (s.setSalt bs).stage = s.stage := rfl
@[simp] theorem State.setSalt_raised (s : State) (bs : Bytes) : (s.setSalt bs).raised = s.raised := rfl
@[simp] theorem State.setSalt_salt (s : State) (bs : Bytes) : (s.setSalt bs).salt = ByteReg.ofBytes 16 bs := rfl
@[simp] theorem State.setSalt_akey (s : State) (bs : Bytes) : (s.setSalt bs).akey = s.akey := rfl
@[simp] theorem State.setSalt_hkey (s : State) (bs : Bytes) : (s.setSalt bs).hkey = s.hkey := rfl
@[simp] theorem State.setSalt_pvv (s : State) (bs : Bytes) : (s.setSalt bs).pvv = s.pvv := rfl
@[simp] theorem State.setSalt_dk (s : State) (bs : Bytes) : (s.setSalt bs).dk = s.dk := rfl
@[simp] theorem State.setSalt_crcr (s : State) (bs : Bytes) : (s.setSalt bs).crcr = s.crcr := rfl
@[simp] theorem State.setSalt_usz (s : State) (bs : Bytes) : (s.setSalt bs).usz = s.usz := rfl
@[simp] theorem State.setSalt_cbuf (s : State) (bs : Bytes) : (s.setSalt bs).cbuf = s.cbuf := rfl
@[simp] theorem State.setSalt_clen (s : State) (bs : Bytes) : (s.setSalt bs).clen = s.clen := rfl
@[simp] theorem State.setSalt_xbuf (s : State) (bs : Bytes) : (s.setSalt bs).xbuf = s.xbuf := rfl
@[simp] theorem State.setSalt_hmd (s : State) (bs : Bytes) : (s.setSalt bs).hmd = s.hmd := rfl
@[simp] theorem State.setSalt_tagc (s : State) (bs : Bytes) : (s.setSalt bs).tagc = s.tagc := rfl
@[simp] theorem State.setSalt_ctr (s : State) (bs : Bytes) : (s.setSalt bs).ctr = s.ctr := rfl
@[simp] theorem State.setSalt_ks (s : State) (bs : Bytes) : (s.setSalt bs).ks = s.ks := rfl
@[simp] theorem State.setSalt_bidx (s : State) (bs : Bytes) : (s.setSalt bs).bidx = s.bidx := rfl
@[simp] theorem State.setSalt_mem (s : State) (bs : Bytes) : (s.setSalt bs).mem = s.mem := rfl
@[simp] theorem State.setSalt_last (s : State) (bs : Bytes) : (s.setSalt bs).last = s.last := rfl
@[simp] theorem State.setSalt_host (s : State) (bs : Bytes) : (s.setSalt bs).host = s.host := rfl
@[simp] theorem State.setSalt_turns (s : State) (bs : Bytes) : (s.setSalt bs).turns = s.turns := rfl
@[simp] theorem State.setSalt_draws (s : State) (bs : Bytes) : (s.setSalt bs).draws = s.draws := rfl

/-! ### setCrcr -/

@[simp] theorem State.setCrcr_tbyp (s : State) (v : BitVec 32) : (s.setCrcr v).tbyp = s.tbyp := rfl
@[simp] theorem State.setCrcr_ie (s : State) (v : BitVec 32) : (s.setCrcr v).ie = s.ie := rfl
@[simp] theorem State.setCrcr_busy (s : State) (v : BitVec 32) : (s.setCrcr v).busy = s.busy := rfl
@[simp] theorem State.setCrcr_done (s : State) (v : BitVec 32) : (s.setCrcr v).done = s.done := rfl
@[simp] theorem State.setCrcr_err (s : State) (v : BitVec 32) : (s.setCrcr v).err = s.err := rfl
@[simp] theorem State.setCrcr_ilen (s : State) (v : BitVec 32) : (s.setCrcr v).ilen = s.ilen := rfl
@[simp] theorem State.setCrcr_pwlen (s : State) (v : BitVec 32) : (s.setCrcr v).pwlen = s.pwlen := rfl
@[simp] theorem State.setCrcr_olen (s : State) (v : BitVec 32) : (s.setCrcr v).olen = s.olen := rfl
@[simp] theorem State.setCrcr_stage (s : State) (v : BitVec 32) : (s.setCrcr v).stage = s.stage := rfl
@[simp] theorem State.setCrcr_raised (s : State) (v : BitVec 32) : (s.setCrcr v).raised = s.raised := rfl
@[simp] theorem State.setCrcr_salt (s : State) (v : BitVec 32) : (s.setCrcr v).salt = s.salt := rfl
@[simp] theorem State.setCrcr_akey (s : State) (v : BitVec 32) : (s.setCrcr v).akey = s.akey := rfl
@[simp] theorem State.setCrcr_hkey (s : State) (v : BitVec 32) : (s.setCrcr v).hkey = s.hkey := rfl
@[simp] theorem State.setCrcr_pvv (s : State) (v : BitVec 32) : (s.setCrcr v).pvv = s.pvv := rfl
@[simp] theorem State.setCrcr_dk (s : State) (v : BitVec 32) : (s.setCrcr v).dk = s.dk := rfl
@[simp] theorem State.setCrcr_crcr (s : State) (v : BitVec 32) : (s.setCrcr v).crcr = v := rfl
@[simp] theorem State.setCrcr_usz (s : State) (v : BitVec 32) : (s.setCrcr v).usz = s.usz := rfl
@[simp] theorem State.setCrcr_cbuf (s : State) (v : BitVec 32) : (s.setCrcr v).cbuf = s.cbuf := rfl
@[simp] theorem State.setCrcr_clen (s : State) (v : BitVec 32) : (s.setCrcr v).clen = s.clen := rfl
@[simp] theorem State.setCrcr_xbuf (s : State) (v : BitVec 32) : (s.setCrcr v).xbuf = s.xbuf := rfl
@[simp] theorem State.setCrcr_hmd (s : State) (v : BitVec 32) : (s.setCrcr v).hmd = s.hmd := rfl
@[simp] theorem State.setCrcr_tagc (s : State) (v : BitVec 32) : (s.setCrcr v).tagc = s.tagc := rfl
@[simp] theorem State.setCrcr_ctr (s : State) (v : BitVec 32) : (s.setCrcr v).ctr = s.ctr := rfl
@[simp] theorem State.setCrcr_ks (s : State) (v : BitVec 32) : (s.setCrcr v).ks = s.ks := rfl
@[simp] theorem State.setCrcr_bidx (s : State) (v : BitVec 32) : (s.setCrcr v).bidx = s.bidx := rfl
@[simp] theorem State.setCrcr_mem (s : State) (v : BitVec 32) : (s.setCrcr v).mem = s.mem := rfl
@[simp] theorem State.setCrcr_last (s : State) (v : BitVec 32) : (s.setCrcr v).last = s.last := rfl
@[simp] theorem State.setCrcr_host (s : State) (v : BitVec 32) : (s.setCrcr v).host = s.host := rfl
@[simp] theorem State.setCrcr_turns (s : State) (v : BitVec 32) : (s.setCrcr v).turns = s.turns := rfl
@[simp] theorem State.setCrcr_draws (s : State) (v : BitVec 32) : (s.setCrcr v).draws = s.draws := rfl

/-! ### storePacked -/

@[simp] theorem State.storePacked_tbyp (s : State) (r : Bytes) : (s.storePacked r).tbyp = s.tbyp := rfl
@[simp] theorem State.storePacked_ie (s : State) (r : Bytes) : (s.storePacked r).ie = s.ie := rfl
@[simp] theorem State.storePacked_busy (s : State) (r : Bytes) : (s.storePacked r).busy = s.busy := rfl
@[simp] theorem State.storePacked_done (s : State) (r : Bytes) : (s.storePacked r).done = s.done := rfl
@[simp] theorem State.storePacked_err (s : State) (r : Bytes) : (s.storePacked r).err = s.err := rfl
@[simp] theorem State.storePacked_ilen (s : State) (r : Bytes) : (s.storePacked r).ilen = s.ilen := rfl
@[simp] theorem State.storePacked_pwlen (s : State) (r : Bytes) : (s.storePacked r).pwlen = s.pwlen := rfl
@[simp] theorem State.storePacked_olen (s : State) (r : Bytes) : (s.storePacked r).olen = s.olen := rfl
@[simp] theorem State.storePacked_stage (s : State) (r : Bytes) : (s.storePacked r).stage = s.stage := rfl
@[simp] theorem State.storePacked_raised (s : State) (r : Bytes) : (s.storePacked r).raised = s.raised := rfl
@[simp] theorem State.storePacked_salt (s : State) (r : Bytes) : (s.storePacked r).salt = s.salt := rfl
@[simp] theorem State.storePacked_akey (s : State) (r : Bytes) : (s.storePacked r).akey = s.akey := rfl
@[simp] theorem State.storePacked_hkey (s : State) (r : Bytes) : (s.storePacked r).hkey = s.hkey := rfl
@[simp] theorem State.storePacked_pvv (s : State) (r : Bytes) : (s.storePacked r).pvv = s.pvv := rfl
@[simp] theorem State.storePacked_dk (s : State) (r : Bytes) : (s.storePacked r).dk = s.dk := rfl
@[simp] theorem State.storePacked_crcr (s : State) (r : Bytes) : (s.storePacked r).crcr = s.crcr := rfl
@[simp] theorem State.storePacked_usz (s : State) (r : Bytes) : (s.storePacked r).usz = s.usz := rfl
@[simp] theorem State.storePacked_cbuf (s : State) (r : Bytes) :
    (s.storePacked r).cbuf = s.cbuf.putBytes innerBlank 0 r := rfl
@[simp] theorem State.storePacked_clen (s : State) (r : Bytes) :
    (s.storePacked r).clen = BitVec.ofNat 32 r.length := rfl
@[simp] theorem State.storePacked_xbuf (s : State) (r : Bytes) : (s.storePacked r).xbuf = s.xbuf := rfl
@[simp] theorem State.storePacked_hmd (s : State) (r : Bytes) : (s.storePacked r).hmd = s.hmd := rfl
@[simp] theorem State.storePacked_tagc (s : State) (r : Bytes) : (s.storePacked r).tagc = s.tagc := rfl
@[simp] theorem State.storePacked_ctr (s : State) (r : Bytes) : (s.storePacked r).ctr = s.ctr := rfl
@[simp] theorem State.storePacked_ks (s : State) (r : Bytes) : (s.storePacked r).ks = s.ks := rfl
@[simp] theorem State.storePacked_bidx (s : State) (r : Bytes) : (s.storePacked r).bidx = s.bidx := rfl
@[simp] theorem State.storePacked_mem (s : State) (r : Bytes) : (s.storePacked r).mem = s.mem := rfl
@[simp] theorem State.storePacked_last (s : State) (r : Bytes) : (s.storePacked r).last = s.last := rfl
@[simp] theorem State.storePacked_host (s : State) (r : Bytes) : (s.storePacked r).host = s.host := rfl
@[simp] theorem State.storePacked_turns (s : State) (r : Bytes) : (s.storePacked r).turns = s.turns := rfl
@[simp] theorem State.storePacked_draws (s : State) (r : Bytes) : (s.storePacked r).draws = s.draws := rfl

/-! ### setParsed -/

@[simp] theorem State.setParsed_tbyp (s : State) (n : Nat) (crc : BitVec 32) (usz : Word) :
    (s.setParsed n crc usz).tbyp = s.tbyp := rfl
@[simp] theorem State.setParsed_ie (s : State) (n : Nat) (crc : BitVec 32) (usz : Word) :
    (s.setParsed n crc usz).ie = s.ie := rfl
@[simp] theorem State.setParsed_busy (s : State) (n : Nat) (crc : BitVec 32) (usz : Word) :
    (s.setParsed n crc usz).busy = s.busy := rfl
@[simp] theorem State.setParsed_done (s : State) (n : Nat) (crc : BitVec 32) (usz : Word) :
    (s.setParsed n crc usz).done = s.done := rfl
@[simp] theorem State.setParsed_err (s : State) (n : Nat) (crc : BitVec 32) (usz : Word) :
    (s.setParsed n crc usz).err = s.err := rfl
@[simp] theorem State.setParsed_ilen (s : State) (n : Nat) (crc : BitVec 32) (usz : Word) :
    (s.setParsed n crc usz).ilen = s.ilen := rfl
@[simp] theorem State.setParsed_pwlen (s : State) (n : Nat) (crc : BitVec 32) (usz : Word) :
    (s.setParsed n crc usz).pwlen = s.pwlen := rfl
@[simp] theorem State.setParsed_olen (s : State) (n : Nat) (crc : BitVec 32) (usz : Word) :
    (s.setParsed n crc usz).olen = s.olen := rfl
@[simp] theorem State.setParsed_stage (s : State) (n : Nat) (crc : BitVec 32) (usz : Word) :
    (s.setParsed n crc usz).stage = s.stage := rfl
@[simp] theorem State.setParsed_raised (s : State) (n : Nat) (crc : BitVec 32) (usz : Word) :
    (s.setParsed n crc usz).raised = s.raised := rfl
@[simp] theorem State.setParsed_salt (s : State) (n : Nat) (crc : BitVec 32) (usz : Word) :
    (s.setParsed n crc usz).salt = s.salt := rfl
@[simp] theorem State.setParsed_akey (s : State) (n : Nat) (crc : BitVec 32) (usz : Word) :
    (s.setParsed n crc usz).akey = s.akey := rfl
@[simp] theorem State.setParsed_hkey (s : State) (n : Nat) (crc : BitVec 32) (usz : Word) :
    (s.setParsed n crc usz).hkey = s.hkey := rfl
@[simp] theorem State.setParsed_pvv (s : State) (n : Nat) (crc : BitVec 32) (usz : Word) :
    (s.setParsed n crc usz).pvv = s.pvv := rfl
@[simp] theorem State.setParsed_dk (s : State) (n : Nat) (crc : BitVec 32) (usz : Word) :
    (s.setParsed n crc usz).dk = s.dk := rfl
@[simp] theorem State.setParsed_crcr (s : State) (n : Nat) (crc : BitVec 32) (usz : Word) :
    (s.setParsed n crc usz).crcr = crc := rfl
@[simp] theorem State.setParsed_usz (s : State) (n : Nat) (crc : BitVec 32) (usz : Word) :
    (s.setParsed n crc usz).usz = usz := rfl
@[simp] theorem State.setParsed_cbuf (s : State) (n : Nat) (crc : BitVec 32) (usz : Word) :
    (s.setParsed n crc usz).cbuf = s.cbuf := rfl
@[simp] theorem State.setParsed_clen (s : State) (n : Nat) (crc : BitVec 32) (usz : Word) :
    (s.setParsed n crc usz).clen = BitVec.ofNat 32 n := rfl
@[simp] theorem State.setParsed_xbuf (s : State) (n : Nat) (crc : BitVec 32) (usz : Word) :
    (s.setParsed n crc usz).xbuf = s.xbuf := rfl
@[simp] theorem State.setParsed_hmd (s : State) (n : Nat) (crc : BitVec 32) (usz : Word) :
    (s.setParsed n crc usz).hmd = s.hmd := rfl
@[simp] theorem State.setParsed_tagc (s : State) (n : Nat) (crc : BitVec 32) (usz : Word) :
    (s.setParsed n crc usz).tagc = s.tagc := rfl
@[simp] theorem State.setParsed_ctr (s : State) (n : Nat) (crc : BitVec 32) (usz : Word) :
    (s.setParsed n crc usz).ctr = s.ctr := rfl
@[simp] theorem State.setParsed_ks (s : State) (n : Nat) (crc : BitVec 32) (usz : Word) :
    (s.setParsed n crc usz).ks = s.ks := rfl
@[simp] theorem State.setParsed_bidx (s : State) (n : Nat) (crc : BitVec 32) (usz : Word) :
    (s.setParsed n crc usz).bidx = s.bidx := rfl
@[simp] theorem State.setParsed_mem (s : State) (n : Nat) (crc : BitVec 32) (usz : Word) :
    (s.setParsed n crc usz).mem = s.mem := rfl
@[simp] theorem State.setParsed_last (s : State) (n : Nat) (crc : BitVec 32) (usz : Word) :
    (s.setParsed n crc usz).last = s.last := rfl
@[simp] theorem State.setParsed_host (s : State) (n : Nat) (crc : BitVec 32) (usz : Word) :
    (s.setParsed n crc usz).host = s.host := rfl
@[simp] theorem State.setParsed_turns (s : State) (n : Nat) (crc : BitVec 32) (usz : Word) :
    (s.setParsed n crc usz).turns = s.turns := rfl
@[simp] theorem State.setParsed_draws (s : State) (n : Nat) (crc : BitVec 32) (usz : Word) :
    (s.setParsed n crc usz).draws = s.draws := rfl

/-! ### setOlen -/

@[simp] theorem State.setOlen_tbyp (s : State) (v : Word) : (s.setOlen v).tbyp = s.tbyp := rfl
@[simp] theorem State.setOlen_ie (s : State) (v : Word) : (s.setOlen v).ie = s.ie := rfl
@[simp] theorem State.setOlen_busy (s : State) (v : Word) : (s.setOlen v).busy = s.busy := rfl
@[simp] theorem State.setOlen_done (s : State) (v : Word) : (s.setOlen v).done = s.done := rfl
@[simp] theorem State.setOlen_err (s : State) (v : Word) : (s.setOlen v).err = s.err := rfl
@[simp] theorem State.setOlen_ilen (s : State) (v : Word) : (s.setOlen v).ilen = s.ilen := rfl
@[simp] theorem State.setOlen_pwlen (s : State) (v : Word) : (s.setOlen v).pwlen = s.pwlen := rfl
@[simp] theorem State.setOlen_olen (s : State) (v : Word) : (s.setOlen v).olen = v := rfl
@[simp] theorem State.setOlen_stage (s : State) (v : Word) : (s.setOlen v).stage = s.stage := rfl
@[simp] theorem State.setOlen_raised (s : State) (v : Word) : (s.setOlen v).raised = s.raised := rfl
@[simp] theorem State.setOlen_salt (s : State) (v : Word) : (s.setOlen v).salt = s.salt := rfl
@[simp] theorem State.setOlen_akey (s : State) (v : Word) : (s.setOlen v).akey = s.akey := rfl
@[simp] theorem State.setOlen_hkey (s : State) (v : Word) : (s.setOlen v).hkey = s.hkey := rfl
@[simp] theorem State.setOlen_pvv (s : State) (v : Word) : (s.setOlen v).pvv = s.pvv := rfl
@[simp] theorem State.setOlen_dk (s : State) (v : Word) : (s.setOlen v).dk = s.dk := rfl
@[simp] theorem State.setOlen_crcr (s : State) (v : Word) : (s.setOlen v).crcr = s.crcr := rfl
@[simp] theorem State.setOlen_usz (s : State) (v : Word) : (s.setOlen v).usz = s.usz := rfl
@[simp] theorem State.setOlen_cbuf (s : State) (v : Word) : (s.setOlen v).cbuf = s.cbuf := rfl
@[simp] theorem State.setOlen_clen (s : State) (v : Word) : (s.setOlen v).clen = s.clen := rfl
@[simp] theorem State.setOlen_xbuf (s : State) (v : Word) : (s.setOlen v).xbuf = s.xbuf := rfl
@[simp] theorem State.setOlen_hmd (s : State) (v : Word) : (s.setOlen v).hmd = s.hmd := rfl
@[simp] theorem State.setOlen_tagc (s : State) (v : Word) : (s.setOlen v).tagc = s.tagc := rfl
@[simp] theorem State.setOlen_ctr (s : State) (v : Word) : (s.setOlen v).ctr = s.ctr := rfl
@[simp] theorem State.setOlen_ks (s : State) (v : Word) : (s.setOlen v).ks = s.ks := rfl
@[simp] theorem State.setOlen_bidx (s : State) (v : Word) : (s.setOlen v).bidx = s.bidx := rfl
@[simp] theorem State.setOlen_mem (s : State) (v : Word) : (s.setOlen v).mem = s.mem := rfl
@[simp] theorem State.setOlen_last (s : State) (v : Word) : (s.setOlen v).last = s.last := rfl
@[simp] theorem State.setOlen_host (s : State) (v : Word) : (s.setOlen v).host = s.host := rfl
@[simp] theorem State.setOlen_turns (s : State) (v : Word) : (s.setOlen v).turns = s.turns := rfl
@[simp] theorem State.setOlen_draws (s : State) (v : Word) : (s.setOlen v).draws = s.draws := rfl

/-! ### setCtr -/

@[simp] theorem State.setCtr_tbyp (s : State) (c : BitVec 64) : (s.setCtr c).tbyp = s.tbyp := rfl
@[simp] theorem State.setCtr_ie (s : State) (c : BitVec 64) : (s.setCtr c).ie = s.ie := rfl
@[simp] theorem State.setCtr_busy (s : State) (c : BitVec 64) : (s.setCtr c).busy = s.busy := rfl
@[simp] theorem State.setCtr_done (s : State) (c : BitVec 64) : (s.setCtr c).done = s.done := rfl
@[simp] theorem State.setCtr_err (s : State) (c : BitVec 64) : (s.setCtr c).err = s.err := rfl
@[simp] theorem State.setCtr_ilen (s : State) (c : BitVec 64) : (s.setCtr c).ilen = s.ilen := rfl
@[simp] theorem State.setCtr_pwlen (s : State) (c : BitVec 64) : (s.setCtr c).pwlen = s.pwlen := rfl
@[simp] theorem State.setCtr_olen (s : State) (c : BitVec 64) : (s.setCtr c).olen = s.olen := rfl
@[simp] theorem State.setCtr_stage (s : State) (c : BitVec 64) : (s.setCtr c).stage = s.stage := rfl
@[simp] theorem State.setCtr_raised (s : State) (c : BitVec 64) : (s.setCtr c).raised = s.raised := rfl
@[simp] theorem State.setCtr_salt (s : State) (c : BitVec 64) : (s.setCtr c).salt = s.salt := rfl
@[simp] theorem State.setCtr_akey (s : State) (c : BitVec 64) : (s.setCtr c).akey = s.akey := rfl
@[simp] theorem State.setCtr_hkey (s : State) (c : BitVec 64) : (s.setCtr c).hkey = s.hkey := rfl
@[simp] theorem State.setCtr_pvv (s : State) (c : BitVec 64) : (s.setCtr c).pvv = s.pvv := rfl
@[simp] theorem State.setCtr_dk (s : State) (c : BitVec 64) : (s.setCtr c).dk = s.dk := rfl
@[simp] theorem State.setCtr_crcr (s : State) (c : BitVec 64) : (s.setCtr c).crcr = s.crcr := rfl
@[simp] theorem State.setCtr_usz (s : State) (c : BitVec 64) : (s.setCtr c).usz = s.usz := rfl
@[simp] theorem State.setCtr_cbuf (s : State) (c : BitVec 64) : (s.setCtr c).cbuf = s.cbuf := rfl
@[simp] theorem State.setCtr_clen (s : State) (c : BitVec 64) : (s.setCtr c).clen = s.clen := rfl
@[simp] theorem State.setCtr_xbuf (s : State) (c : BitVec 64) : (s.setCtr c).xbuf = s.xbuf := rfl
@[simp] theorem State.setCtr_hmd (s : State) (c : BitVec 64) : (s.setCtr c).hmd = s.hmd := rfl
@[simp] theorem State.setCtr_tagc (s : State) (c : BitVec 64) : (s.setCtr c).tagc = s.tagc := rfl
@[simp] theorem State.setCtr_ctr (s : State) (c : BitVec 64) : (s.setCtr c).ctr = c := rfl
@[simp] theorem State.setCtr_ks (s : State) (c : BitVec 64) : (s.setCtr c).ks = s.ks := rfl
@[simp] theorem State.setCtr_bidx (s : State) (c : BitVec 64) : (s.setCtr c).bidx = s.bidx := rfl
@[simp] theorem State.setCtr_mem (s : State) (c : BitVec 64) : (s.setCtr c).mem = s.mem := rfl
@[simp] theorem State.setCtr_last (s : State) (c : BitVec 64) : (s.setCtr c).last = s.last := rfl
@[simp] theorem State.setCtr_host (s : State) (c : BitVec 64) : (s.setCtr c).host = s.host := rfl
@[simp] theorem State.setCtr_turns (s : State) (c : BitVec 64) : (s.setCtr c).turns = s.turns := rfl
@[simp] theorem State.setCtr_draws (s : State) (c : BitVec 64) : (s.setCtr c).draws = s.draws := rfl

/-! ### setIlen -/

@[simp] theorem State.setIlen_tbyp (s : State) (v : Word) : (s.setIlen v).tbyp = s.tbyp := rfl
@[simp] theorem State.setIlen_ie (s : State) (v : Word) : (s.setIlen v).ie = s.ie := rfl
@[simp] theorem State.setIlen_busy (s : State) (v : Word) : (s.setIlen v).busy = s.busy := rfl
@[simp] theorem State.setIlen_done (s : State) (v : Word) : (s.setIlen v).done = s.done := rfl
@[simp] theorem State.setIlen_err (s : State) (v : Word) : (s.setIlen v).err = s.err := rfl
@[simp] theorem State.setIlen_ilen (s : State) (v : Word) : (s.setIlen v).ilen = v := rfl
@[simp] theorem State.setIlen_pwlen (s : State) (v : Word) : (s.setIlen v).pwlen = s.pwlen := rfl
@[simp] theorem State.setIlen_olen (s : State) (v : Word) : (s.setIlen v).olen = s.olen := rfl
@[simp] theorem State.setIlen_stage (s : State) (v : Word) : (s.setIlen v).stage = s.stage := rfl
@[simp] theorem State.setIlen_raised (s : State) (v : Word) : (s.setIlen v).raised = s.raised := rfl
@[simp] theorem State.setIlen_salt (s : State) (v : Word) : (s.setIlen v).salt = s.salt := rfl
@[simp] theorem State.setIlen_akey (s : State) (v : Word) : (s.setIlen v).akey = s.akey := rfl
@[simp] theorem State.setIlen_hkey (s : State) (v : Word) : (s.setIlen v).hkey = s.hkey := rfl
@[simp] theorem State.setIlen_pvv (s : State) (v : Word) : (s.setIlen v).pvv = s.pvv := rfl
@[simp] theorem State.setIlen_dk (s : State) (v : Word) : (s.setIlen v).dk = s.dk := rfl
@[simp] theorem State.setIlen_crcr (s : State) (v : Word) : (s.setIlen v).crcr = s.crcr := rfl
@[simp] theorem State.setIlen_usz (s : State) (v : Word) : (s.setIlen v).usz = s.usz := rfl
@[simp] theorem State.setIlen_cbuf (s : State) (v : Word) : (s.setIlen v).cbuf = s.cbuf := rfl
@[simp] theorem State.setIlen_clen (s : State) (v : Word) : (s.setIlen v).clen = s.clen := rfl
@[simp] theorem State.setIlen_xbuf (s : State) (v : Word) : (s.setIlen v).xbuf = s.xbuf := rfl
@[simp] theorem State.setIlen_hmd (s : State) (v : Word) : (s.setIlen v).hmd = s.hmd := rfl
@[simp] theorem State.setIlen_tagc (s : State) (v : Word) : (s.setIlen v).tagc = s.tagc := rfl
@[simp] theorem State.setIlen_ctr (s : State) (v : Word) : (s.setIlen v).ctr = s.ctr := rfl
@[simp] theorem State.setIlen_ks (s : State) (v : Word) : (s.setIlen v).ks = s.ks := rfl
@[simp] theorem State.setIlen_bidx (s : State) (v : Word) : (s.setIlen v).bidx = s.bidx := rfl
@[simp] theorem State.setIlen_mem (s : State) (v : Word) : (s.setIlen v).mem = s.mem := rfl
@[simp] theorem State.setIlen_last (s : State) (v : Word) : (s.setIlen v).last = s.last := rfl
@[simp] theorem State.setIlen_host (s : State) (v : Word) : (s.setIlen v).host = s.host := rfl
@[simp] theorem State.setIlen_turns (s : State) (v : Word) : (s.setIlen v).turns = s.turns := rfl
@[simp] theorem State.setIlen_draws (s : State) (v : Word) : (s.setIlen v).draws = s.draws := rfl

/-! ### setPwlen -/

@[simp] theorem State.setPwlen_tbyp (s : State) (v : Word) : (s.setPwlen v).tbyp = s.tbyp := rfl
@[simp] theorem State.setPwlen_ie (s : State) (v : Word) : (s.setPwlen v).ie = s.ie := rfl
@[simp] theorem State.setPwlen_busy (s : State) (v : Word) : (s.setPwlen v).busy = s.busy := rfl
@[simp] theorem State.setPwlen_done (s : State) (v : Word) : (s.setPwlen v).done = s.done := rfl
@[simp] theorem State.setPwlen_err (s : State) (v : Word) : (s.setPwlen v).err = s.err := rfl
@[simp] theorem State.setPwlen_ilen (s : State) (v : Word) : (s.setPwlen v).ilen = s.ilen := rfl
@[simp] theorem State.setPwlen_pwlen (s : State) (v : Word) : (s.setPwlen v).pwlen = v := rfl
@[simp] theorem State.setPwlen_olen (s : State) (v : Word) : (s.setPwlen v).olen = s.olen := rfl
@[simp] theorem State.setPwlen_stage (s : State) (v : Word) : (s.setPwlen v).stage = s.stage := rfl
@[simp] theorem State.setPwlen_raised (s : State) (v : Word) : (s.setPwlen v).raised = s.raised := rfl
@[simp] theorem State.setPwlen_salt (s : State) (v : Word) : (s.setPwlen v).salt = s.salt := rfl
@[simp] theorem State.setPwlen_akey (s : State) (v : Word) : (s.setPwlen v).akey = s.akey := rfl
@[simp] theorem State.setPwlen_hkey (s : State) (v : Word) : (s.setPwlen v).hkey = s.hkey := rfl
@[simp] theorem State.setPwlen_pvv (s : State) (v : Word) : (s.setPwlen v).pvv = s.pvv := rfl
@[simp] theorem State.setPwlen_dk (s : State) (v : Word) : (s.setPwlen v).dk = s.dk := rfl
@[simp] theorem State.setPwlen_crcr (s : State) (v : Word) : (s.setPwlen v).crcr = s.crcr := rfl
@[simp] theorem State.setPwlen_usz (s : State) (v : Word) : (s.setPwlen v).usz = s.usz := rfl
@[simp] theorem State.setPwlen_cbuf (s : State) (v : Word) : (s.setPwlen v).cbuf = s.cbuf := rfl
@[simp] theorem State.setPwlen_clen (s : State) (v : Word) : (s.setPwlen v).clen = s.clen := rfl
@[simp] theorem State.setPwlen_xbuf (s : State) (v : Word) : (s.setPwlen v).xbuf = s.xbuf := rfl
@[simp] theorem State.setPwlen_hmd (s : State) (v : Word) : (s.setPwlen v).hmd = s.hmd := rfl
@[simp] theorem State.setPwlen_tagc (s : State) (v : Word) : (s.setPwlen v).tagc = s.tagc := rfl
@[simp] theorem State.setPwlen_ctr (s : State) (v : Word) : (s.setPwlen v).ctr = s.ctr := rfl
@[simp] theorem State.setPwlen_ks (s : State) (v : Word) : (s.setPwlen v).ks = s.ks := rfl
@[simp] theorem State.setPwlen_bidx (s : State) (v : Word) : (s.setPwlen v).bidx = s.bidx := rfl
@[simp] theorem State.setPwlen_mem (s : State) (v : Word) : (s.setPwlen v).mem = s.mem := rfl
@[simp] theorem State.setPwlen_last (s : State) (v : Word) : (s.setPwlen v).last = s.last := rfl
@[simp] theorem State.setPwlen_host (s : State) (v : Word) : (s.setPwlen v).host = s.host := rfl
@[simp] theorem State.setPwlen_turns (s : State) (v : Word) : (s.setPwlen v).turns = s.turns := rfl
@[simp] theorem State.setPwlen_draws (s : State) (v : Word) : (s.setPwlen v).draws = s.draws := rfl

/-! ### clearDone -/

@[simp] theorem State.clearDone_tbyp (s : State) : s.clearDone.tbyp = s.tbyp := rfl
@[simp] theorem State.clearDone_ie (s : State) : s.clearDone.ie = s.ie := rfl
@[simp] theorem State.clearDone_busy (s : State) : s.clearDone.busy = s.busy := rfl
@[simp] theorem State.clearDone_done (s : State) : s.clearDone.done = false := rfl
@[simp] theorem State.clearDone_err (s : State) : s.clearDone.err = s.err := rfl
@[simp] theorem State.clearDone_ilen (s : State) : s.clearDone.ilen = s.ilen := rfl
@[simp] theorem State.clearDone_pwlen (s : State) : s.clearDone.pwlen = s.pwlen := rfl
@[simp] theorem State.clearDone_olen (s : State) : s.clearDone.olen = s.olen := rfl
@[simp] theorem State.clearDone_stage (s : State) : s.clearDone.stage = s.stage := rfl
@[simp] theorem State.clearDone_raised (s : State) : s.clearDone.raised = s.raised := rfl
@[simp] theorem State.clearDone_salt (s : State) : s.clearDone.salt = s.salt := rfl
@[simp] theorem State.clearDone_akey (s : State) : s.clearDone.akey = s.akey := rfl
@[simp] theorem State.clearDone_hkey (s : State) : s.clearDone.hkey = s.hkey := rfl
@[simp] theorem State.clearDone_pvv (s : State) : s.clearDone.pvv = s.pvv := rfl
@[simp] theorem State.clearDone_dk (s : State) : s.clearDone.dk = s.dk := rfl
@[simp] theorem State.clearDone_crcr (s : State) : s.clearDone.crcr = s.crcr := rfl
@[simp] theorem State.clearDone_usz (s : State) : s.clearDone.usz = s.usz := rfl
@[simp] theorem State.clearDone_cbuf (s : State) : s.clearDone.cbuf = s.cbuf := rfl
@[simp] theorem State.clearDone_clen (s : State) : s.clearDone.clen = s.clen := rfl
@[simp] theorem State.clearDone_xbuf (s : State) : s.clearDone.xbuf = s.xbuf := rfl
@[simp] theorem State.clearDone_hmd (s : State) : s.clearDone.hmd = s.hmd := rfl
@[simp] theorem State.clearDone_tagc (s : State) : s.clearDone.tagc = s.tagc := rfl
@[simp] theorem State.clearDone_ctr (s : State) : s.clearDone.ctr = s.ctr := rfl
@[simp] theorem State.clearDone_ks (s : State) : s.clearDone.ks = s.ks := rfl
@[simp] theorem State.clearDone_bidx (s : State) : s.clearDone.bidx = s.bidx := rfl
@[simp] theorem State.clearDone_mem (s : State) : s.clearDone.mem = s.mem := rfl
@[simp] theorem State.clearDone_last (s : State) : s.clearDone.last = s.last := rfl
@[simp] theorem State.clearDone_host (s : State) : s.clearDone.host = s.host := rfl
@[simp] theorem State.clearDone_turns (s : State) : s.clearDone.turns = s.turns := rfl
@[simp] theorem State.clearDone_draws (s : State) : s.clearDone.draws = s.draws := rfl

/-! ### setHost -/

@[simp] theorem State.setHost_tbyp (s : State) (hs : List HostOp) : (s.setHost hs).tbyp = s.tbyp := rfl
@[simp] theorem State.setHost_ie (s : State) (hs : List HostOp) : (s.setHost hs).ie = s.ie := rfl
@[simp] theorem State.setHost_busy (s : State) (hs : List HostOp) : (s.setHost hs).busy = s.busy := rfl
@[simp] theorem State.setHost_done (s : State) (hs : List HostOp) : (s.setHost hs).done = s.done := rfl
@[simp] theorem State.setHost_err (s : State) (hs : List HostOp) : (s.setHost hs).err = s.err := rfl
@[simp] theorem State.setHost_ilen (s : State) (hs : List HostOp) : (s.setHost hs).ilen = s.ilen := rfl
@[simp] theorem State.setHost_pwlen (s : State) (hs : List HostOp) : (s.setHost hs).pwlen = s.pwlen := rfl
@[simp] theorem State.setHost_olen (s : State) (hs : List HostOp) : (s.setHost hs).olen = s.olen := rfl
@[simp] theorem State.setHost_stage (s : State) (hs : List HostOp) : (s.setHost hs).stage = s.stage := rfl
@[simp] theorem State.setHost_raised (s : State) (hs : List HostOp) : (s.setHost hs).raised = s.raised := rfl
@[simp] theorem State.setHost_salt (s : State) (hs : List HostOp) : (s.setHost hs).salt = s.salt := rfl
@[simp] theorem State.setHost_akey (s : State) (hs : List HostOp) : (s.setHost hs).akey = s.akey := rfl
@[simp] theorem State.setHost_hkey (s : State) (hs : List HostOp) : (s.setHost hs).hkey = s.hkey := rfl
@[simp] theorem State.setHost_pvv (s : State) (hs : List HostOp) : (s.setHost hs).pvv = s.pvv := rfl
@[simp] theorem State.setHost_dk (s : State) (hs : List HostOp) : (s.setHost hs).dk = s.dk := rfl
@[simp] theorem State.setHost_crcr (s : State) (hs : List HostOp) : (s.setHost hs).crcr = s.crcr := rfl
@[simp] theorem State.setHost_usz (s : State) (hs : List HostOp) : (s.setHost hs).usz = s.usz := rfl
@[simp] theorem State.setHost_cbuf (s : State) (hs : List HostOp) : (s.setHost hs).cbuf = s.cbuf := rfl
@[simp] theorem State.setHost_clen (s : State) (hs : List HostOp) : (s.setHost hs).clen = s.clen := rfl
@[simp] theorem State.setHost_xbuf (s : State) (hs : List HostOp) : (s.setHost hs).xbuf = s.xbuf := rfl
@[simp] theorem State.setHost_hmd (s : State) (hs : List HostOp) : (s.setHost hs).hmd = s.hmd := rfl
@[simp] theorem State.setHost_tagc (s : State) (hs : List HostOp) : (s.setHost hs).tagc = s.tagc := rfl
@[simp] theorem State.setHost_ctr (s : State) (hs : List HostOp) : (s.setHost hs).ctr = s.ctr := rfl
@[simp] theorem State.setHost_ks (s : State) (hs : List HostOp) : (s.setHost hs).ks = s.ks := rfl
@[simp] theorem State.setHost_bidx (s : State) (hs : List HostOp) : (s.setHost hs).bidx = s.bidx := rfl
@[simp] theorem State.setHost_mem (s : State) (hs : List HostOp) : (s.setHost hs).mem = s.mem := rfl
@[simp] theorem State.setHost_last (s : State) (hs : List HostOp) : (s.setHost hs).last = s.last := rfl
@[simp] theorem State.setHost_host (s : State) (hs : List HostOp) : (s.setHost hs).host = hs := rfl
@[simp] theorem State.setHost_turns (s : State) (hs : List HostOp) : (s.setHost hs).turns = s.turns := rfl
@[simp] theorem State.setHost_draws (s : State) (hs : List HostOp) : (s.setHost hs).draws = s.draws := rfl

/-! ### setTurns -/

@[simp] theorem State.setTurns_tbyp (s : State) (ts : List Turn) : (s.setTurns ts).tbyp = s.tbyp := rfl
@[simp] theorem State.setTurns_ie (s : State) (ts : List Turn) : (s.setTurns ts).ie = s.ie := rfl
@[simp] theorem State.setTurns_busy (s : State) (ts : List Turn) : (s.setTurns ts).busy = s.busy := rfl
@[simp] theorem State.setTurns_done (s : State) (ts : List Turn) : (s.setTurns ts).done = s.done := rfl
@[simp] theorem State.setTurns_err (s : State) (ts : List Turn) : (s.setTurns ts).err = s.err := rfl
@[simp] theorem State.setTurns_ilen (s : State) (ts : List Turn) : (s.setTurns ts).ilen = s.ilen := rfl
@[simp] theorem State.setTurns_pwlen (s : State) (ts : List Turn) : (s.setTurns ts).pwlen = s.pwlen := rfl
@[simp] theorem State.setTurns_olen (s : State) (ts : List Turn) : (s.setTurns ts).olen = s.olen := rfl
@[simp] theorem State.setTurns_stage (s : State) (ts : List Turn) : (s.setTurns ts).stage = s.stage := rfl
@[simp] theorem State.setTurns_raised (s : State) (ts : List Turn) : (s.setTurns ts).raised = s.raised := rfl
@[simp] theorem State.setTurns_salt (s : State) (ts : List Turn) : (s.setTurns ts).salt = s.salt := rfl
@[simp] theorem State.setTurns_akey (s : State) (ts : List Turn) : (s.setTurns ts).akey = s.akey := rfl
@[simp] theorem State.setTurns_hkey (s : State) (ts : List Turn) : (s.setTurns ts).hkey = s.hkey := rfl
@[simp] theorem State.setTurns_pvv (s : State) (ts : List Turn) : (s.setTurns ts).pvv = s.pvv := rfl
@[simp] theorem State.setTurns_dk (s : State) (ts : List Turn) : (s.setTurns ts).dk = s.dk := rfl
@[simp] theorem State.setTurns_crcr (s : State) (ts : List Turn) : (s.setTurns ts).crcr = s.crcr := rfl
@[simp] theorem State.setTurns_usz (s : State) (ts : List Turn) : (s.setTurns ts).usz = s.usz := rfl
@[simp] theorem State.setTurns_cbuf (s : State) (ts : List Turn) : (s.setTurns ts).cbuf = s.cbuf := rfl
@[simp] theorem State.setTurns_clen (s : State) (ts : List Turn) : (s.setTurns ts).clen = s.clen := rfl
@[simp] theorem State.setTurns_xbuf (s : State) (ts : List Turn) : (s.setTurns ts).xbuf = s.xbuf := rfl
@[simp] theorem State.setTurns_hmd (s : State) (ts : List Turn) : (s.setTurns ts).hmd = s.hmd := rfl
@[simp] theorem State.setTurns_tagc (s : State) (ts : List Turn) : (s.setTurns ts).tagc = s.tagc := rfl
@[simp] theorem State.setTurns_ctr (s : State) (ts : List Turn) : (s.setTurns ts).ctr = s.ctr := rfl
@[simp] theorem State.setTurns_ks (s : State) (ts : List Turn) : (s.setTurns ts).ks = s.ks := rfl
@[simp] theorem State.setTurns_bidx (s : State) (ts : List Turn) : (s.setTurns ts).bidx = s.bidx := rfl
@[simp] theorem State.setTurns_mem (s : State) (ts : List Turn) : (s.setTurns ts).mem = s.mem := rfl
@[simp] theorem State.setTurns_last (s : State) (ts : List Turn) : (s.setTurns ts).last = s.last := rfl
@[simp] theorem State.setTurns_host (s : State) (ts : List Turn) : (s.setTurns ts).host = s.host := rfl
@[simp] theorem State.setTurns_turns (s : State) (ts : List Turn) : (s.setTurns ts).turns = ts := rfl
@[simp] theorem State.setTurns_draws (s : State) (ts : List Turn) : (s.setTurns ts).draws = s.draws := rfl

/-! ### respond -/

@[simp] theorem State.respond_tbyp (s : State) (op : BusOp) (okay : Bool) (data : Word) :
    (s.respond op okay data).tbyp = s.tbyp := rfl
@[simp] theorem State.respond_ie (s : State) (op : BusOp) (okay : Bool) (data : Word) :
    (s.respond op okay data).ie = s.ie := rfl
@[simp] theorem State.respond_busy (s : State) (op : BusOp) (okay : Bool) (data : Word) :
    (s.respond op okay data).busy = s.busy := rfl
@[simp] theorem State.respond_done (s : State) (op : BusOp) (okay : Bool) (data : Word) :
    (s.respond op okay data).done = s.done := rfl
@[simp] theorem State.respond_err (s : State) (op : BusOp) (okay : Bool) (data : Word) :
    (s.respond op okay data).err = s.err := rfl
@[simp] theorem State.respond_ilen (s : State) (op : BusOp) (okay : Bool) (data : Word) :
    (s.respond op okay data).ilen = s.ilen := rfl
@[simp] theorem State.respond_pwlen (s : State) (op : BusOp) (okay : Bool) (data : Word) :
    (s.respond op okay data).pwlen = s.pwlen := rfl
@[simp] theorem State.respond_olen (s : State) (op : BusOp) (okay : Bool) (data : Word) :
    (s.respond op okay data).olen = s.olen := rfl
@[simp] theorem State.respond_stage (s : State) (op : BusOp) (okay : Bool) (data : Word) :
    (s.respond op okay data).stage = s.stage := rfl
@[simp] theorem State.respond_raised (s : State) (op : BusOp) (okay : Bool) (data : Word) :
    (s.respond op okay data).raised = s.raised := rfl
@[simp] theorem State.respond_salt (s : State) (op : BusOp) (okay : Bool) (data : Word) :
    (s.respond op okay data).salt = s.salt := rfl
@[simp] theorem State.respond_akey (s : State) (op : BusOp) (okay : Bool) (data : Word) :
    (s.respond op okay data).akey = s.akey := rfl
@[simp] theorem State.respond_hkey (s : State) (op : BusOp) (okay : Bool) (data : Word) :
    (s.respond op okay data).hkey = s.hkey := rfl
@[simp] theorem State.respond_pvv (s : State) (op : BusOp) (okay : Bool) (data : Word) :
    (s.respond op okay data).pvv = s.pvv := rfl
@[simp] theorem State.respond_dk (s : State) (op : BusOp) (okay : Bool) (data : Word) :
    (s.respond op okay data).dk = s.dk := rfl
@[simp] theorem State.respond_crcr (s : State) (op : BusOp) (okay : Bool) (data : Word) :
    (s.respond op okay data).crcr = s.crcr := rfl
@[simp] theorem State.respond_usz (s : State) (op : BusOp) (okay : Bool) (data : Word) :
    (s.respond op okay data).usz = s.usz := rfl
@[simp] theorem State.respond_cbuf (s : State) (op : BusOp) (okay : Bool) (data : Word) :
    (s.respond op okay data).cbuf = s.cbuf := rfl
@[simp] theorem State.respond_clen (s : State) (op : BusOp) (okay : Bool) (data : Word) :
    (s.respond op okay data).clen = s.clen := rfl
@[simp] theorem State.respond_xbuf (s : State) (op : BusOp) (okay : Bool) (data : Word) :
    (s.respond op okay data).xbuf = s.xbuf := rfl
@[simp] theorem State.respond_hmd (s : State) (op : BusOp) (okay : Bool) (data : Word) :
    (s.respond op okay data).hmd = s.hmd := rfl
@[simp] theorem State.respond_tagc (s : State) (op : BusOp) (okay : Bool) (data : Word) :
    (s.respond op okay data).tagc = s.tagc := rfl
@[simp] theorem State.respond_ctr (s : State) (op : BusOp) (okay : Bool) (data : Word) :
    (s.respond op okay data).ctr = s.ctr := rfl
@[simp] theorem State.respond_ks (s : State) (op : BusOp) (okay : Bool) (data : Word) :
    (s.respond op okay data).ks = s.ks := rfl
@[simp] theorem State.respond_bidx (s : State) (op : BusOp) (okay : Bool) (data : Word) :
    (s.respond op okay data).bidx = s.bidx := rfl
@[simp] theorem State.respond_mem (s : State) (op : BusOp) (okay : Bool) (data : Word) :
    (s.respond op okay data).mem = s.mem := rfl
@[simp] theorem State.respond_last (s : State) (op : BusOp) (okay : Bool) (data : Word) :
    (s.respond op okay data).last = some { op := op, okay := okay, data := data } := rfl
@[simp] theorem State.respond_host (s : State) (op : BusOp) (okay : Bool) (data : Word) :
    (s.respond op okay data).host = s.host := rfl
@[simp] theorem State.respond_turns (s : State) (op : BusOp) (okay : Bool) (data : Word) :
    (s.respond op okay data).turns = s.turns := rfl
@[simp] theorem State.respond_draws (s : State) (op : BusOp) (okay : Bool) (data : Word) :
    (s.respond op okay data).draws = s.draws := rfl

/-! ### afterBlock -/

@[simp] theorem State.afterBlock_tbyp (s : State) (p : Platform) : (s.afterBlock p).tbyp = s.tbyp := rfl
@[simp] theorem State.afterBlock_ie (s : State) (p : Platform) : (s.afterBlock p).ie = s.ie := rfl
@[simp] theorem State.afterBlock_busy (s : State) (p : Platform) : (s.afterBlock p).busy = s.busy := rfl
@[simp] theorem State.afterBlock_done (s : State) (p : Platform) : (s.afterBlock p).done = s.done := rfl
@[simp] theorem State.afterBlock_err (s : State) (p : Platform) : (s.afterBlock p).err = s.err := rfl
@[simp] theorem State.afterBlock_ilen (s : State) (p : Platform) : (s.afterBlock p).ilen = s.ilen := rfl
@[simp] theorem State.afterBlock_pwlen (s : State) (p : Platform) : (s.afterBlock p).pwlen = s.pwlen := rfl
@[simp] theorem State.afterBlock_olen (s : State) (p : Platform) : (s.afterBlock p).olen = s.olen := rfl
@[simp] theorem State.afterBlock_stage (s : State) (p : Platform) : (s.afterBlock p).stage = s.stage := rfl
@[simp] theorem State.afterBlock_raised (s : State) (p : Platform) : (s.afterBlock p).raised = s.raised := rfl
@[simp] theorem State.afterBlock_salt (s : State) (p : Platform) : (s.afterBlock p).salt = s.salt := rfl
@[simp] theorem State.afterBlock_akey (s : State) (p : Platform) : (s.afterBlock p).akey = s.akey := rfl
@[simp] theorem State.afterBlock_hkey (s : State) (p : Platform) : (s.afterBlock p).hkey = s.hkey := rfl
@[simp] theorem State.afterBlock_pvv (s : State) (p : Platform) : (s.afterBlock p).pvv = s.pvv := rfl
@[simp] theorem State.afterBlock_dk (s : State) (p : Platform) : (s.afterBlock p).dk = s.dk := rfl
@[simp] theorem State.afterBlock_crcr (s : State) (p : Platform) : (s.afterBlock p).crcr = s.crcr := rfl
@[simp] theorem State.afterBlock_usz (s : State) (p : Platform) : (s.afterBlock p).usz = s.usz := rfl
@[simp] theorem State.afterBlock_cbuf (s : State) (p : Platform) :
    (s.afterBlock p).cbuf = s.cbuf.putBytes innerBlank s.blockBase (xorLanes s.cbuf s.blockBase (laneCount s.blockBase s.clen.toNat) (s.nextKeystream p)) := rfl
@[simp] theorem State.afterBlock_clen (s : State) (p : Platform) : (s.afterBlock p).clen = s.clen := rfl
@[simp] theorem State.afterBlock_xbuf (s : State) (p : Platform) : (s.afterBlock p).xbuf = s.xbuf := rfl
@[simp] theorem State.afterBlock_hmd (s : State) (p : Platform) : (s.afterBlock p).hmd = s.hmd := rfl
@[simp] theorem State.afterBlock_tagc (s : State) (p : Platform) : (s.afterBlock p).tagc = s.tagc := rfl
@[simp] theorem State.afterBlock_ctr (s : State) (p : Platform) : (s.afterBlock p).ctr = s.ctr + 1 := rfl
@[simp] theorem State.afterBlock_ks (s : State) (p : Platform) : (s.afterBlock p).ks = s.nextKeystream p := rfl
@[simp] theorem State.afterBlock_bidx (s : State) (p : Platform) : (s.afterBlock p).bidx = s.bidx + 1 := rfl
@[simp] theorem State.afterBlock_mem (s : State) (p : Platform) : (s.afterBlock p).mem = s.mem := rfl
@[simp] theorem State.afterBlock_last (s : State) (p : Platform) : (s.afterBlock p).last = s.last := rfl
@[simp] theorem State.afterBlock_host (s : State) (p : Platform) : (s.afterBlock p).host = s.host := rfl
@[simp] theorem State.afterBlock_turns (s : State) (p : Platform) : (s.afterBlock p).turns = s.turns := rfl
@[simp] theorem State.afterBlock_draws (s : State) (p : Platform) : (s.afterBlock p).draws = s.draws + 1 := rfl

/-! ### finish -/

@[simp] theorem State.finish_tbyp (s : State) : s.finish.tbyp = s.tbyp := rfl
@[simp] theorem State.finish_ie (s : State) : s.finish.ie = s.ie := rfl
@[simp] theorem State.finish_busy (s : State) : s.finish.busy = false := rfl
@[simp] theorem State.finish_done (s : State) : s.finish.done = true := rfl
@[simp] theorem State.finish_err (s : State) : s.finish.err = finishCode s.raised := rfl
@[simp] theorem State.finish_ilen (s : State) : s.finish.ilen = s.ilen := rfl
@[simp] theorem State.finish_pwlen (s : State) : s.finish.pwlen = s.pwlen := rfl
@[simp] theorem State.finish_olen (s : State) : s.finish.olen = finishOlen s.olen s.raised := rfl
@[simp] theorem State.finish_stage (s : State) : s.finish.stage = Stage.idle.code := rfl
@[simp] theorem State.finish_raised (s : State) : s.finish.raised = none := rfl
@[simp] theorem State.finish_salt (s : State) : s.finish.salt = ByteReg.zero 16 := rfl
@[simp] theorem State.finish_akey (s : State) : s.finish.akey = ByteReg.zero 32 := rfl
@[simp] theorem State.finish_hkey (s : State) : s.finish.hkey = ByteReg.zero 32 := rfl
@[simp] theorem State.finish_pvv (s : State) : s.finish.pvv = ByteReg.zero 2 := rfl
@[simp] theorem State.finish_dk (s : State) : s.finish.dk = ByteReg.zero 66 := rfl
@[simp] theorem State.finish_crcr (s : State) : s.finish.crcr = 0 := rfl
@[simp] theorem State.finish_usz (s : State) : s.finish.usz = 0 := rfl
@[simp] theorem State.finish_cbuf (s : State) : s.finish.cbuf = [] := rfl
@[simp] theorem State.finish_clen (s : State) : s.finish.clen = 0 := rfl
@[simp] theorem State.finish_xbuf (s : State) : s.finish.xbuf = [] := rfl
@[simp] theorem State.finish_hmd (s : State) : s.finish.hmd = ByteReg.zero 20 := rfl
@[simp] theorem State.finish_tagc (s : State) : s.finish.tagc = ByteReg.zero 10 := rfl
@[simp] theorem State.finish_ctr (s : State) : s.finish.ctr = 0 := rfl
@[simp] theorem State.finish_ks (s : State) : s.finish.ks = ByteReg.zero 16 := rfl
@[simp] theorem State.finish_bidx (s : State) : s.finish.bidx = 0 := rfl
@[simp] theorem State.finish_mem (s : State) : s.finish.mem = s.mem := rfl
@[simp] theorem State.finish_last (s : State) : s.finish.last = s.last := rfl
@[simp] theorem State.finish_host (s : State) : s.finish.host = s.host := rfl
@[simp] theorem State.finish_turns (s : State) : s.finish.turns = s.turns := rfl
@[simp] theorem State.finish_draws (s : State) : s.finish.draws = s.draws := rfl

/-! ### resetBlock -/

@[simp] theorem State.resetBlock_tbyp (s : State) : s.resetBlock.tbyp = State.reset.tbyp := rfl
@[simp] theorem State.resetBlock_ie (s : State) : s.resetBlock.ie = State.reset.ie := rfl
@[simp] theorem State.resetBlock_busy (s : State) : s.resetBlock.busy = State.reset.busy := rfl
@[simp] theorem State.resetBlock_done (s : State) : s.resetBlock.done = State.reset.done := rfl
@[simp] theorem State.resetBlock_err (s : State) : s.resetBlock.err = State.reset.err := rfl
@[simp] theorem State.resetBlock_ilen (s : State) : s.resetBlock.ilen = State.reset.ilen := rfl
@[simp] theorem State.resetBlock_pwlen (s : State) : s.resetBlock.pwlen = State.reset.pwlen := rfl
@[simp] theorem State.resetBlock_olen (s : State) : s.resetBlock.olen = State.reset.olen := rfl
@[simp] theorem State.resetBlock_stage (s : State) : s.resetBlock.stage = State.reset.stage := rfl
@[simp] theorem State.resetBlock_raised (s : State) : s.resetBlock.raised = State.reset.raised := rfl
@[simp] theorem State.resetBlock_salt (s : State) : s.resetBlock.salt = State.reset.salt := rfl
@[simp] theorem State.resetBlock_akey (s : State) : s.resetBlock.akey = State.reset.akey := rfl
@[simp] theorem State.resetBlock_hkey (s : State) : s.resetBlock.hkey = State.reset.hkey := rfl
@[simp] theorem State.resetBlock_pvv (s : State) : s.resetBlock.pvv = State.reset.pvv := rfl
@[simp] theorem State.resetBlock_dk (s : State) : s.resetBlock.dk = State.reset.dk := rfl
@[simp] theorem State.resetBlock_crcr (s : State) : s.resetBlock.crcr = State.reset.crcr := rfl
@[simp] theorem State.resetBlock_usz (s : State) : s.resetBlock.usz = State.reset.usz := rfl
@[simp] theorem State.resetBlock_cbuf (s : State) : s.resetBlock.cbuf = State.reset.cbuf := rfl
@[simp] theorem State.resetBlock_clen (s : State) : s.resetBlock.clen = State.reset.clen := rfl
@[simp] theorem State.resetBlock_xbuf (s : State) : s.resetBlock.xbuf = State.reset.xbuf := rfl
@[simp] theorem State.resetBlock_hmd (s : State) : s.resetBlock.hmd = State.reset.hmd := rfl
@[simp] theorem State.resetBlock_tagc (s : State) : s.resetBlock.tagc = State.reset.tagc := rfl
@[simp] theorem State.resetBlock_ctr (s : State) : s.resetBlock.ctr = State.reset.ctr := rfl
@[simp] theorem State.resetBlock_ks (s : State) : s.resetBlock.ks = State.reset.ks := rfl
@[simp] theorem State.resetBlock_bidx (s : State) : s.resetBlock.bidx = State.reset.bidx := rfl
@[simp] theorem State.resetBlock_mem (s : State) : s.resetBlock.mem = State.reset.mem := rfl
@[simp] theorem State.resetBlock_last (s : State) : s.resetBlock.last = State.reset.last := rfl
@[simp] theorem State.resetBlock_host (s : State) : s.resetBlock.host = s.host := rfl
@[simp] theorem State.resetBlock_turns (s : State) : s.resetBlock.turns = s.turns := rfl
@[simp] theorem State.resetBlock_draws (s : State) : s.resetBlock.draws = s.draws := rfl

/-! ### writeCtrl -/

@[simp] theorem State.writeCtrl_tbyp (s : State) (p : Platform) (v : Word) :
    (s.writeCtrl p v).tbyp = (if p.testHook then v.getLsbD 0 else s.tbyp) := rfl
@[simp] theorem State.writeCtrl_ie (s : State) (p : Platform) (v : Word) : (s.writeCtrl p v).ie = v.getLsbD 1 := rfl
@[simp] theorem State.writeCtrl_busy (s : State) (p : Platform) (v : Word) : (s.writeCtrl p v).busy = s.busy := rfl
@[simp] theorem State.writeCtrl_done (s : State) (p : Platform) (v : Word) : (s.writeCtrl p v).done = s.done := rfl
@[simp] theorem State.writeCtrl_err (s : State) (p : Platform) (v : Word) : (s.writeCtrl p v).err = s.err := rfl
@[simp] theorem State.writeCtrl_ilen (s : State) (p : Platform) (v : Word) : (s.writeCtrl p v).ilen = s.ilen := rfl
@[simp] theorem State.writeCtrl_pwlen (s : State) (p : Platform) (v : Word) : (s.writeCtrl p v).pwlen = s.pwlen := rfl
@[simp] theorem State.writeCtrl_olen (s : State) (p : Platform) (v : Word) : (s.writeCtrl p v).olen = s.olen := rfl
@[simp] theorem State.writeCtrl_stage (s : State) (p : Platform) (v : Word) : (s.writeCtrl p v).stage = s.stage := rfl
@[simp] theorem State.writeCtrl_raised (s : State) (p : Platform) (v : Word) :
    (s.writeCtrl p v).raised = s.raised := rfl
@[simp] theorem State.writeCtrl_salt (s : State) (p : Platform) (v : Word) : (s.writeCtrl p v).salt = s.salt := rfl
@[simp] theorem State.writeCtrl_akey (s : State) (p : Platform) (v : Word) : (s.writeCtrl p v).akey = s.akey := rfl
@[simp] theorem State.writeCtrl_hkey (s : State) (p : Platform) (v : Word) : (s.writeCtrl p v).hkey = s.hkey := rfl
@[simp] theorem State.writeCtrl_pvv (s : State) (p : Platform) (v : Word) : (s.writeCtrl p v).pvv = s.pvv := rfl
@[simp] theorem State.writeCtrl_dk (s : State) (p : Platform) (v : Word) : (s.writeCtrl p v).dk = s.dk := rfl
@[simp] theorem State.writeCtrl_crcr (s : State) (p : Platform) (v : Word) : (s.writeCtrl p v).crcr = s.crcr := rfl
@[simp] theorem State.writeCtrl_usz (s : State) (p : Platform) (v : Word) : (s.writeCtrl p v).usz = s.usz := rfl
@[simp] theorem State.writeCtrl_cbuf (s : State) (p : Platform) (v : Word) : (s.writeCtrl p v).cbuf = s.cbuf := rfl
@[simp] theorem State.writeCtrl_clen (s : State) (p : Platform) (v : Word) : (s.writeCtrl p v).clen = s.clen := rfl
@[simp] theorem State.writeCtrl_xbuf (s : State) (p : Platform) (v : Word) : (s.writeCtrl p v).xbuf = s.xbuf := rfl
@[simp] theorem State.writeCtrl_hmd (s : State) (p : Platform) (v : Word) : (s.writeCtrl p v).hmd = s.hmd := rfl
@[simp] theorem State.writeCtrl_tagc (s : State) (p : Platform) (v : Word) : (s.writeCtrl p v).tagc = s.tagc := rfl
@[simp] theorem State.writeCtrl_ctr (s : State) (p : Platform) (v : Word) : (s.writeCtrl p v).ctr = s.ctr := rfl
@[simp] theorem State.writeCtrl_ks (s : State) (p : Platform) (v : Word) : (s.writeCtrl p v).ks = s.ks := rfl
@[simp] theorem State.writeCtrl_bidx (s : State) (p : Platform) (v : Word) : (s.writeCtrl p v).bidx = s.bidx := rfl
@[simp] theorem State.writeCtrl_mem (s : State) (p : Platform) (v : Word) : (s.writeCtrl p v).mem = s.mem := rfl
@[simp] theorem State.writeCtrl_last (s : State) (p : Platform) (v : Word) : (s.writeCtrl p v).last = s.last := rfl
@[simp] theorem State.writeCtrl_host (s : State) (p : Platform) (v : Word) : (s.writeCtrl p v).host = s.host := rfl
@[simp] theorem State.writeCtrl_turns (s : State) (p : Platform) (v : Word) : (s.writeCtrl p v).turns = s.turns := rfl
@[simp] theorem State.writeCtrl_draws (s : State) (p : Platform) (v : Word) : (s.writeCtrl p v).draws = s.draws := rfl

end Sys2Proof.Machine
end

