-- ==== Sys2Proof/Laws/Buffers.lean ====
section
/-! SUPPORT. Byte strings, byte registers and the buffers: what reading gives after writing. -/

namespace Sys2Proof

/-! ### Byte strings -/

/-- Two byte strings of one length with the same bytes are equal. -/
theorem bytes_ext {xs ys : Bytes} (hl : xs.length = ys.length)
    (h : ∀ k, k < xs.length → byteAt xs k = byteAt ys k) : xs = ys := by
  refine List.ext_getElem hl fun k hx hy => ?_
  have := h k hx
  simpa [byteAt, List.getD_eq_getElem?_getD, List.getElem?_eq_getElem hx, List.getElem?_eq_getElem hy] using this

/-- A byte of a string made byte by byte. -/
theorem byteAt_map_range (f : Nat → Byte) (n k : Nat) (hk : k < n) :
    byteAt ((List.range n).map f) k = f k := by
  simp [byteAt, List.getD_eq_getElem?_getD, List.getElem?_map, List.getElem?_range hk]

/-- A byte of the first of two joined strings. -/
theorem byteAt_append_left {xs ys : Bytes} {k : Nat} (h : k < xs.length) : byteAt (xs ++ ys) k = byteAt xs k := by
  simp [byteAt, List.getD_eq_getElem?_getD, List.getElem?_append_left h]

/-- A byte of the second of two joined strings. -/
theorem byteAt_append_right {xs ys : Bytes} {k : Nat} (h : xs.length ≤ k) :
    byteAt (xs ++ ys) k = byteAt ys (k - xs.length) := by
  simp [byteAt, List.getD_eq_getElem?_getD, List.getElem?_append_right h]

/-- A string is made of its own bytes. -/
theorem map_byteAt_range (xs : Bytes) : (List.range xs.length).map (byteAt xs) = xs := by
  refine bytes_ext (by simp) fun k hk => ?_
  rw [byteAt_map_range]
  simpa using hk

/-- A byte of a slice. -/
theorem byteAt_slice (z : Bytes) (o n k : Nat) (hk : k < n) : byteAt ((z.drop o).take n) k = byteAt z (o + k) := by
  simp [byteAt, List.getD_eq_getElem?_getD, hk]

/-- A half word of a slice. -/
theorem rd16_slice (z : Bytes) (o n i : Nat) (h : i + 2 ≤ n) : rd16 ((z.drop o).take n) i = rd16 z (o + i) := by
  unfold rd16
  rw [byteAt_slice z o n _ (by omega), byteAt_slice z o n _ (by omega)]
  rfl

/-- A word of a slice. -/
theorem rd32_slice (z : Bytes) (o n i : Nat) (h : i + 4 ≤ n) : rd32 ((z.drop o).take n) i = rd32 z (o + i) := by
  unfold rd32
  rw [byteAt_slice z o n _ (by omega), byteAt_slice z o n _ (by omega), byteAt_slice z o n _ (by omega),
    byteAt_slice z o n _ (by omega)]
  rfl

/-! ### Byte registers -/

/-- A register loaded with a string of its length holds that string. -/
theorem ByteReg.toList_ofBytes {n : Nat} {bs : Bytes} (h : bs.length = n) : (ByteReg.ofBytes n bs).toList = bs := by
  subst h
  simp [ByteReg.ofBytes, Vector.toList]

/-- The bytes of a cleared register. -/
@[simp] theorem ByteReg.toList_zero (n : Nat) : (ByteReg.zero n).toList = List.replicate n 0 := rfl

namespace Machine

/-! ### The host buffers -/

/-- The length of what a read of the host buffers gives. -/
@[simp] theorem State.length_bytesAt (p : Platform) (s : State) (a n : Nat) : (s.bytesAt p a n).length = n := by
  simp [State.bytesAt]

/-- The length of what a read of the container gives. -/
@[simp] theorem State.length_container (p : Platform) (s : State) (o n : Nat) : (s.container p o n).length = n := by
  simp [State.container]

/-- A byte of what a read of the host buffers gives. -/
theorem State.byteAt_bytesAt (p : Platform) (s : State) (a n k : Nat) (hk : k < n) :
    byteAt (s.bytesAt p a n) k = s.byteRead p a k := byteAt_map_range _ n k hk

/-- Reading bytes that were written gives them, whatever the draws. -/
theorem State.bytesAt_of_holds {p : Platform} {s : State} {a : Nat} {bs : Bytes} (h : s.Holds a bs) :
    s.bytesAt p a bs.length = bs := by
  refine bytes_ext (by simp) fun k hk => ?_
  rw [State.length_bytesAt] at hk
  rw [State.byteAt_bytesAt p s a bs.length k hk, State.byteRead, h k hk]
  rfl

/-- Reading the plaintext where it was written. -/
theorem State.plaintext_of_holds {p : Platform} {s : State} {bs : Bytes} (h : s.Holds ibufBase bs)
    (hl : bs.length = s.ilen.toNat) : s.plaintext p = bs := by
  rw [State.plaintext, ← hl, State.bytesAt_of_holds h]

/-- Reading the password where it was written. -/
theorem State.password_of_holds {p : Platform} {s : State} {bs : Bytes} (h : s.Holds pbufBase bs)
    (hl : bs.length = s.pwlen.toNat) : s.password p = bs := by
  rw [State.password, ← hl, State.bytesAt_of_holds h]

/-- Reading a slice of the container where it was written. -/
theorem State.container_of_holds {p : Platform} {s : State} {o n : Nat} {bs : Bytes} (h : s.Holds (ibufBase + o) bs)
    (hl : bs.length = n) : s.container p o n = bs := by
  rw [State.container, ← hl, State.bytesAt_of_holds h]

/-- What is held depends on the memory alone. -/
theorem State.Holds.congr {s t : State} {a : Nat} {bs : Bytes} (h : s.Holds a bs)
    (hm : ∀ k, k < bs.length → t.mem.read? (a + k) = s.mem.read? (a + k)) : t.Holds a bs :=
  fun k hk => (hm k hk).trans (h k hk)

/-- What is held in one memory is held by every state with that memory. -/
theorem State.Holds.of_mem {s t : State} {a : Nat} {bs : Bytes} (h : s.Holds a bs) (hm : t.mem = s.mem) :
    t.Holds a bs :=
  h.congr fun k _ => by rw [hm]

/-- A slice of a string that is held is held. -/
theorem State.Holds.slice {s : State} {a o n : Nat} {bs : Bytes} (h : s.Holds a bs) (hl : o + n ≤ bs.length) :
    s.Holds (a + o) ((bs.drop o).take n) := by
  intro k hk
  have hk' : k < n := by simpa using (Nat.lt_min.1 (by simpa using hk)).1
  have := h (o + k) (by omega)
  rw [show a + o + k = a + (o + k) by omega, this]
  simp [byteAt, List.getD_eq_getElem?_getD, hk']

/-- What `putHost` stores is held. -/
theorem State.putHost_holds (s : State) (a : Nat) (bs : Bytes) : (s.putHost a bs).Holds a bs := by
  intro k hk
  rw [State.putHost_mem, Memory.read?_putBytes_host, if_pos (by omega), Nat.add_sub_cancel_left]

/-- Outside what `putHost` stores, the host buffers are unchanged. -/
theorem State.putHost_read? (s : State) (a : Nat) (bs : Bytes) (b : Nat) (h : b < a ∨ a + bs.length ≤ b) :
    (s.putHost a bs).mem.read? b = s.mem.read? b := by
  rw [State.putHost_mem, Memory.read?_putBytes_host, if_neg (by omega)]

/-- Reading a slice of a container that is held whole. -/
theorem State.container_slice {p : Platform} {s : State} {z : Bytes} {o n : Nat} (h : s.Holds ibufBase z)
    (hl : o + n ≤ z.length) : s.container p o n = (z.drop o).take n :=
  State.container_of_holds (h.slice hl) (by simp; omega)

/-! ### The inner buffers -/

/-- The payload's length is CLEN. -/
@[simp] theorem State.length_payload (s : State) : s.payload.length = s.clen.toNat := by simp [State.payload]

/-- A byte of the payload. -/
theorem State.byteAt_payload (s : State) (k : Nat) (hk : k < s.clen.toNat) :
    byteAt s.payload k = s.cbuf.inner k := by
  rw [State.payload, Memory.byteAt_innerBytes _ _ _ _ hk, Nat.zero_add]

/-- The inflated data's length is USZ. -/
@[simp] theorem State.length_inflated (s : State) : s.inflated.length = s.usz.toNat := by simp [State.inflated]

/-- A byte of the inflated data. -/
theorem State.byteAt_inflated (s : State) (k : Nat) (hk : k < s.usz.toNat) :
    byteAt s.inflated k = s.xbuf.inner k := by
  rw [State.inflated, Memory.byteAt_innerBytes _ _ _ _ hk, Nat.zero_add]

/-- After a string is stored at the front of CBUF and its length in CLEN, it is the payload. -/
theorem State.payload_of_putBytes {s : State} {m : Memory} {r : Bytes} (hw : m.wf innerBlank = true)
    (h1 : s.cbuf = m.putBytes innerBlank 0 r) (h2 : s.clen.toNat = r.length) : s.payload = r := by
  refine bytes_ext (by rw [State.length_payload, h2]) fun k hk => ?_
  rw [State.length_payload] at hk
  rw [State.byteAt_payload _ _ hk, h1, Memory.inner_putBytes hw, if_pos (by omega), Nat.sub_zero]

/-- After a string is stored at the front of XBUF and its length is USZ, it is the inflated data. -/
theorem State.inflated_of_putBytes {s : State} {m : Memory} {r : Bytes} (hw : m.wf innerBlank = true)
    (h1 : s.xbuf = m.putBytes innerBlank 0 r) (h2 : s.usz.toNat = r.length) : s.inflated = r := by
  refine bytes_ext (by rw [State.length_inflated, h2]) fun k hk => ?_
  rw [State.length_inflated] at hk
  rw [State.byteAt_inflated _ _ hk, h1, Memory.inner_putBytes hw, if_pos (by omega), Nat.sub_zero]

/-- Slicing a derived key of 66 bytes (40_key_derivation.md R142). -/
theorem State.sliceKeys_toList (s : State) {r : Bytes} (h : r.length = 66) :
    (s.sliceKeys r).dk.toList = r ∧ (s.sliceKeys r).akey.toList = r.take 32 ∧
      (s.sliceKeys r).hkey.toList = (r.drop 32).take 32 ∧ (s.sliceKeys r).pvv.toList = r.drop 64 := by
  refine ⟨ByteReg.toList_ofBytes h, ByteReg.toList_ofBytes (by simp [h]), ByteReg.toList_ofBytes (by simp [h]), ?_⟩
  have : (r.drop 64).take 2 = r.drop 64 := List.take_of_length_le (by simp [h])
  rw [State.sliceKeys_pvv, this]
  exact ByteReg.toList_ofBytes (by simp [h])

/-- The digest and its first ten bytes (42_encode.md R177). -/
theorem State.keepDigest_toList (s : State) {r : Bytes} (h : r.length = 20) :
    (s.keepDigest r).hmd.toList = r ∧ (s.keepDigest r).tagc.toList = r.take 10 :=
  ⟨ByteReg.toList_ofBytes h, ByteReg.toList_ofBytes (by simp [h])⟩

end Machine

end Sys2Proof
end

