-- ==== Sys2Proof/Laws/Config.lean ====
section
/-! SUPPORT. The machine's instance keeps the bounds of 00_scope.md R11. -/

namespace Sys2Proof

/-- Every size of the machine's instance lies within the bounds of 00_scope.md R11. -/
theorem Config.platform_bounded : Config.platform.Bounded := by
  have h1 : Config.ibufSeed % (0x1000000 - 156) < 0x1000000 - 156 := Nat.mod_lt _ (by decide)
  have h2 : Config.pbufSeed % 0x1000 < 0x1000 := Nat.mod_lt _ (by decide)
  have h3 : Config.cbufSeed % (0x1000000 - 156 - Config.ibufSize + 1) < 0x1000000 - 156 - Config.ibufSize + 1 :=
    Nat.mod_lt _ (by omega)
  have h4 : Config.obufSeed % (0x1000000 - 156 - Config.cbufSize + 1) < 0x1000000 - 156 - Config.cbufSize + 1 :=
    Nat.mod_lt _ (by omega)
  have hi : Config.platform.ibufSize = 1 + Config.ibufSeed % (0x1000000 - 156) := rfl
  have hi' : Config.ibufSize = 1 + Config.ibufSeed % (0x1000000 - 156) := rfl
  have hp : Config.platform.pbufSize = 1 + Config.pbufSeed % 0x1000 := rfl
  have hc : Config.platform.cbufSize =
    Config.ibufSize + Config.cbufSeed % (0x1000000 - 156 - Config.ibufSize + 1) := rfl
  have hc' : Config.cbufSize =
    Config.ibufSize + Config.cbufSeed % (0x1000000 - 156 - Config.ibufSize + 1) := rfl
  have ho : Config.platform.obufSize =
    Config.cbufSize + 156 + Config.obufSeed % (0x1000000 - 156 - Config.cbufSize + 1) := rfl
  constructor <;> omega

end Sys2Proof
end

