-- ==== Sys2Proof/Laws/Engine.lean ====
section
/-! SUPPORT. The engine: STAGE's encoding, the engine step at a named stage, runs of engine steps, and what each shared operation
of the stages can do. -/

namespace Sys2Proof.Machine

/-! ### STAGE -/

/-- STAGE's encoding reads back. -/
@[simp] theorem Stage.ofCode?_code (st : Stage) : Stage.ofCode? st.code = some st := by cases st <;> rfl

/-- Different stages have different encodings. -/
theorem Stage.code_inj {a b : Stage} (h : a.code = b.code) : a = b := by
  have := congrArg Stage.ofCode? h
  simpa using this

/-- A STAGE value that names a stage is its encoding. -/
theorem Stage.code_of_ofCode? {c : BitVec 5} {st : Stage} (h : Stage.ofCode? c = some st) : c = st.code := by
  revert h
  revert c st
  decide

/-- STAGE values up to 18 name a stage. -/
theorem Stage.exists_of_le {c : BitVec 5} (h : c.toNat ≤ 18) : ∃ st : Stage, c = st.code := by
  have hs : (Stage.ofCode? c).isSome := by
    revert c
    decide
  obtain ⟨st, hst⟩ := Option.isSome_iff_exists.1 hs
  exact ⟨st, Stage.code_of_ofCode? hst⟩

/-! ### Engine steps -/

/-- The engine step at a named stage. -/
theorem State.engine_of_stage {p : Platform} {s : State} {st : Stage} (h : s.stage = st.code) :
    s.engine p = s.runStage p st := by
  rw [State.engine, h, Stage.ofCode?_code]

/-- An engine step that answers a next state ran a named stage. -/
theorem State.stage_of_engine {p : Platform} {s t : State} (h : s.engine p = .next t) :
    ∃ st : Stage, s.stage = st.code ∧ s.runStage p st = .next t := by
  rw [State.engine] at h
  cases hs : Stage.ofCode? s.stage with
  | none => rw [hs] at h; cases h
  | some st => rw [hs] at h; exact ⟨st, Stage.code_of_ofCode? hs, h⟩

/-- No engine step. -/
@[simp] theorem State.engineSteps_zero (p : Platform) (s : State) : s.engineSteps p 0 = .next s := rfl

/-- One more engine step at the front. -/
theorem State.engineSteps_succ {p : Platform} {s t : State} (k : Nat) (h : s.engine p = .next t) :
    s.engineSteps p (k + 1) = t.engineSteps p k := by
  rw [State.engineSteps, h]

/-- Runs of engine steps join. -/
theorem State.engineSteps_add {p : Platform} {s t : State} (j k : Nat) (h : s.engineSteps p j = .next t) :
    s.engineSteps p (j + k) = t.engineSteps p k := by
  induction j generalizing s with
  | zero =>
    rw [State.engineSteps_zero] at h
    cases h
    rw [Nat.zero_add]
  | succ j ih =>
    rw [State.engineSteps] at h
    cases he : s.engine p with
    | next u =>
      rw [he] at h
      rw [Nat.add_right_comm, State.engineSteps_succ _ he]
      exact ih h
    | fault r => rw [he] at h; cases h
    | refused r => rw [he] at h; cases h

/-- A run of engine steps that answers a next state, taken apart at its front. -/
theorem State.engineSteps_cases {p : Platform} {s t : State} {k : Nat} (h : s.engineSteps p (k + 1) = .next t) :
    ∃ u, s.engine p = .next u ∧ u.engineSteps p k = .next t := by
  rw [State.engineSteps] at h
  cases he : s.engine p with
  | next u => rw [he] at h; exact ⟨u, rfl, h⟩
  | fault r => rw [he] at h; cases h
  | refused r => rw [he] at h; cases h

/-- At IDLE the engine makes no step. -/
theorem State.engineSteps_idle {p : Platform} {s : State} (h : s.stage = Stage.idle.code) (k : Nat) :
    s.engineSteps p k = .next s := by
  induction k with
  | zero => rfl
  | succ k ih =>
    have he : s.engine p = .next s := State.engine_of_stage h
    rw [State.engineSteps_succ k he, ih]

/-! ### The shared operations of the stages -/

/-- Key derivation: it raises KeyDerivation, or slices the answer and goes on. -/
theorem State.kdf_cases (p : Platform) (after : State → State) (s : State) :
    let r := p.kdf (s.password p) s.salt.toList kdfIterations kdfOutLen
    let d := s.draws + s.pwlen.toNat
    ((p.fails d = true ∨ r.length ≠ 66) ∧ s.kdf p after = (s.drew (s.pwlen.toNat + 1)).raise .keyDerivation) ∨
    ((p.fails d = false ∧ r.length = 66) ∧ s.kdf p after = after ((s.drew (s.pwlen.toNat + 1)).sliceKeys r)) := by
  intro r d
  have hd : (s.drew s.pwlen.toNat).drew 1 = s.drew (s.pwlen.toNat + 1) := by
    simp [State.drew, Nat.add_assoc]
  by_cases h : p.fails d = true ∨ r.length ≠ 66
  · refine .inl ⟨h, ?_⟩
    rw [State.kdf]
    simp only [hd]
    exact if_pos h
  · refine .inr ⟨by simpa using h, ?_⟩
    rw [State.kdf]
    simp only [hd]
    exact if_neg h

/-- One step of the cipher stage: nothing to do, the counter's wrap, a failed call, the last block, or one block. -/
theorem State.ctrBlock_cases (p : Platform) (next : Stage) (s : State) :
    (s.clen.toNat ≤ s.blockBase ∧ s.ctrBlock p next = .next (s.goto next)) ∨
    (s.blockBase < s.clen.toNat ∧ s.ctr = BitVec.allOnes 64 ∧ s.ctrBlock p next = .refused .counterWrap) ∨
    (s.blockBase < s.clen.toNat ∧ s.ctr ≠ BitVec.allOnes 64 ∧ p.fails s.draws = true ∧
      s.ctrBlock p next = .next (((s.drew 1).setCtr (s.ctr + 1)).raise .cipher)) ∨
    (s.blockBase < s.clen.toNat ∧ s.ctr ≠ BitVec.allOnes 64 ∧ p.fails s.draws = false ∧
      ((s.clen.toNat ≤ s.blockBase + 16 ∧ s.ctrBlock p next = .next ((s.afterBlock p).goto next)) ∨
        (s.blockBase + 16 < s.clen.toNat ∧ s.ctrBlock p next = .next (s.afterBlock p)))) := by
  rw [State.ctrBlock]
  by_cases h1 : s.clen.toNat ≤ s.blockBase
  · exact .inl ⟨h1, if_pos h1⟩
  · have h1' : s.blockBase < s.clen.toNat := by omega
    rw [if_neg h1]
    by_cases h2 : s.ctr = BitVec.allOnes 64
    · exact .inr (.inl ⟨h1', h2, if_pos h2⟩)
    · rw [if_neg h2]
      by_cases h3 : p.fails s.draws = true
      · exact .inr (.inr (.inl ⟨h1', h2, h3, if_pos h3⟩))
      · rw [if_neg h3]
        refine .inr (.inr (.inr ⟨h1', h2, by simpa using h3, ?_⟩))
        by_cases h4 : s.clen.toNat ≤ s.blockBase + 16
        · exact .inl ⟨h4, if_pos h4⟩
        · exact .inr ⟨by omega, if_neg h4⟩

/-- The lanes one block writes. -/
theorem length_xorLanes (buf : Memory) (base m : Nat) (ks : ByteReg 16) : (xorLanes buf base m ks).length = m := by
  simp [xorLanes]

/-- One lane of a block. -/
theorem byteAt_xorLanes (buf : Memory) (base m : Nat) (ks : ByteReg 16) (i : Nat) (h : i < m) :
    byteAt (xorLanes buf base m ks) i = buf.inner (base + i) ^^^ byteAt ks.toList i :=
  byteAt_map_range _ m i h

/-- CBUF after one block: the lanes that hold data XORed with the keystream block, every other byte as before
(41_ctr_cipher.md R156). -/
theorem State.inner_afterBlock (p : Platform) (s : State) (hw : s.cbuf.wf innerBlank = true) (k : Nat) :
    (s.afterBlock p).cbuf.inner k =
      if s.blockBase ≤ k ∧ k < s.blockBase + 16 ∧ k < s.clen.toNat then
        s.cbuf.inner k ^^^ byteAt (s.nextKeystream p).toList (k - s.blockBase)
      else s.cbuf.inner k := by
  rw [State.afterBlock_cbuf, Memory.inner_putBytes hw, length_xorLanes, laneCount]
  by_cases h : s.blockBase ≤ k ∧ k < s.blockBase + 16 ∧ k < s.clen.toNat
  · rw [if_pos h, if_pos (by omega), byteAt_xorLanes _ _ _ _ _ (by omega)]
    rw [show s.blockBase + (k - s.blockBase) = k by omega]
  · rw [if_neg h, if_neg (by omega)]

/-- Going to the stage one is at. -/
theorem State.goto_self {s : State} {st : Stage} (h : s.stage = st.code) : s.goto st = s := by
  cases s
  cases h
  rfl

end Sys2Proof.Machine
end

