-- ==== Sys2Proof/Laws/PerInstr.lean ====
section
/-! SUPPORT. What holds of every instruction as syntax, one lemma per constructor. -/

namespace Sys2Proof.Laws

/-- An encoding has as many bytes as the word at its place: four for a command word and a record signature, two for an extra
header id (30_encoding.md R90, R111). -/
def EncodedLength.Statement (i : Instr) : Prop :=
  (encode i).length = if i.place = .extra then 2 else 4

theorem EncodedLength.nop (junk : BitVec 24) : EncodedLength.Statement (.nop junk) := rfl
theorem EncodedLength.encode (junk : BitVec 24) : EncodedLength.Statement (.encode junk) := rfl
theorem EncodedLength.decode (junk : BitVec 24) : EncodedLength.Statement (.decode junk) := rfl
theorem EncodedLength.reserved03 (junk : BitVec 24) : EncodedLength.Statement (.reserved03 junk) := rfl
theorem EncodedLength.reserved04To07 (op : Byte) (junk : BitVec 24) :
    EncodedLength.Statement (.reserved04To07 op junk) := rfl
theorem EncodedLength.reserved08To0F (op : Byte) (junk : BitVec 24) :
    EncodedLength.Statement (.reserved08To0F op junk) := rfl
theorem EncodedLength.reserved10To1F (op : Byte) (junk : BitVec 24) :
    EncodedLength.Statement (.reserved10To1F op junk) := rfl
theorem EncodedLength.reserved20To3F (op : Byte) (junk : BitVec 24) :
    EncodedLength.Statement (.reserved20To3F op junk) := rfl
theorem EncodedLength.reserved40To7F (op : Byte) (junk : BitVec 24) :
    EncodedLength.Statement (.reserved40To7F op junk) := rfl
theorem EncodedLength.reserved80ToFF (op : Byte) (junk : BitVec 24) :
    EncodedLength.Statement (.reserved80ToFF op junk) := rfl
theorem EncodedLength.lfh : EncodedLength.Statement .lfh := rfl
theorem EncodedLength.cfh : EncodedLength.Statement .cfh := rfl
theorem EncodedLength.eocd : EncodedLength.Statement .eocd := rfl
theorem EncodedLength.aeExtra : EncodedLength.Statement .aeExtra := rfl

end Sys2Proof.Laws
end

