-- ==== Sys2Proof/Laws/Stages.lean ====
section
/-! SUPPORT. What each stage of ENCODE and DECODE can do, said once: the cases of the stage, each with the whole next state. -/

namespace Sys2Proof.Machine

/-- Draws made one after the other. -/
@[simp] theorem State.drew_drew (s : State) (m n : Nat) : (s.drew m).drew n = s.drew (m + n) := by
  simp [State.drew, Nat.add_assoc]

/-- When the operands are in order (42_encode.md R171, 43_decode.md R201). -/
theorem State.operandsOk_iff (p : Platform) (s : State) :
    s.operandsOk p = true ↔
      s.ilen ≠ 0 ∧ s.pwlen ≠ 0 ∧ s.ilen.toNat ≤ p.ibufSize ∧ s.pwlen.toNat ≤ p.pbufSize := by
  simp [State.operandsOk, and_assoc]

/-- E_CHECK. -/
theorem State.eCheck_cases (p : Platform) (s : State) :
    (s.operandsOk p = true ∧ s.eCheck p = s.goto .eCrc) ∨
    (s.operandsOk p = false ∧ s.eCheck p = s.raise .params) := by
  rw [State.eCheck]
  cases h : s.operandsOk p
  · exact .inr ⟨rfl, by simp⟩
  · exact .inl ⟨rfl, by simp⟩

/-- D_CHECK. -/
theorem State.dCheck_cases (p : Platform) (s : State) :
    (s.operandsOk p = true ∧ s.dCheck p = s.goto .dFormat) ∨
    (s.operandsOk p = false ∧ s.dCheck p = s.raise .params) := by
  rw [State.dCheck]
  cases h : s.operandsOk p
  · exact .inr ⟨rfl, by simp⟩
  · exact .inl ⟨rfl, by simp⟩

/-- E_DEFLATE: it raises Compression, or keeps the provider's answer. -/
theorem State.eDeflate_cases (p : Platform) (s : State) :
    let d := s.draws + s.ilen.toNat
    let r := p.deflate d (s.plaintext p)
    ((p.fails d = true ∨ p.cbufSize < r.length) ∧ s.eDeflate p = (s.drew (s.ilen.toNat + 1)).raise .compression) ∨
    ((p.fails d = false ∧ r.length ≤ p.cbufSize) ∧
      s.eDeflate p = ((s.drew (s.ilen.toNat + 1)).storePacked r).goto .eSalt) := by
  intro d r
  have e : s.eDeflate p = if p.fails d = true ∨ p.cbufSize < r.length
      then ((s.drew s.ilen.toNat).drew 1).raise .compression
      else (((s.drew s.ilen.toNat).drew 1).storePacked r).goto .eSalt := rfl
  rw [State.drew_drew] at e
  by_cases h : p.fails d = true ∨ p.cbufSize < r.length
  · exact .inl ⟨h, e.trans (if_pos h)⟩
  · exact .inr ⟨by simpa using h, e.trans (if_neg h)⟩

/-- E_SALT: it raises Salt, or keeps the provider's answer. -/
theorem State.eSalt_cases (p : Platform) (s : State) :
    let r := p.rng s.draws 16
    ((p.fails s.draws = true ∨ r.length ≠ 16) ∧ s.eSalt p = (s.drew 1).raise .salt) ∨
    ((p.fails s.draws = false ∧ r.length = 16) ∧ s.eSalt p = ((s.drew 1).setSalt r).goto .eKdf) := by
  intro r
  have e : s.eSalt p = if p.fails s.draws = true ∨ r.length ≠ 16 then (s.drew 1).raise .salt
      else ((s.drew 1).setSalt r).goto .eKdf := rfl
  by_cases h : p.fails s.draws = true ∨ r.length ≠ 16
  · exact .inl ⟨h, e.trans (if_pos h)⟩
  · exact .inr ⟨by simpa using h, e.trans (if_neg h)⟩

/-- E_HMAC: it raises Hmac, or keeps the digest and the tag. -/
theorem State.eHmac_cases (p : Platform) (s : State) :
    let r := p.hmac s.hkey.toList s.payload
    ((p.fails s.draws = true ∨ r.length ≠ 20) ∧ s.eHmac p = (s.drew 1).raise .hmac) ∨
    ((p.fails s.draws = false ∧ r.length = 20) ∧ s.eHmac p = ((s.drew 1).keepDigest r).goto .eEmit) := by
  intro r
  have e : s.eHmac p = if p.fails s.draws = true ∨ r.length ≠ 20 then (s.drew 1).raise .hmac
      else ((s.drew 1).keepDigest r).goto .eEmit := rfl
  by_cases h : p.fails s.draws = true ∨ r.length ≠ 20
  · exact .inl ⟨h, e.trans (if_pos h)⟩
  · exact .inr ⟨by simpa using h, e.trans (if_neg h)⟩

/-- D_PVV. -/
theorem State.dPvv_cases (p : Platform) (s : State) :
    (s.container p 61 2 = s.pvv.toList ∧ s.dPvv p = (s.drew 2).goto .dTag) ∨
    (s.container p 61 2 ≠ s.pvv.toList ∧ s.dPvv p = (s.drew 2).raise .wrongPassword) := by
  rw [State.dPvv]
  by_cases h : s.container p 61 2 = s.pvv.toList
  · exact .inl ⟨h, if_pos h⟩
  · exact .inr ⟨h, if_neg h⟩

/-- D_TAG: bypassed, the provider's failure, the tag right, or the tag wrong. -/
theorem State.dTag_cases (p : Platform) (s : State) :
    let n := s.clen.toNat
    let r := p.hmac s.hkey.toList (s.container p 63 n)
    let u := (s.drew (n + 1)).keepDigest r
    (s.bypass p = true ∧ s.dTag p = s.enterCipher .dCipher) ∨
    (s.bypass p = false ∧ (p.fails (s.draws + n) = true ∨ r.length ≠ 20) ∧
      s.dTag p = (s.drew (n + 1)).raise .hmac) ∨
    (s.bypass p = false ∧ (p.fails (s.draws + n) = false ∧ r.length = 20) ∧
      ((u.tagc.toList = u.container p (63 + n) 10 ∧ s.dTag p = (u.drew 10).enterCipher .dCipher) ∨
        (u.tagc.toList ≠ u.container p (63 + n) 10 ∧ s.dTag p = (u.drew 10).raise .tamper))) := by
  intro n r u
  have e : s.dTag p = if s.bypass p = true then s.enterCipher .dCipher
      else if p.fails (s.draws + n) = true ∨ r.length ≠ 20 then ((s.drew n).drew 1).raise .hmac
      else if (((s.drew n).drew 1).keepDigest r).tagc.toList =
          (((s.drew n).drew 1).keepDigest r).container p (63 + n) 10
        then ((((s.drew n).drew 1).keepDigest r).drew 10).enterCipher .dCipher
        else ((((s.drew n).drew 1).keepDigest r).drew 10).raise .tamper := rfl
  rw [State.drew_drew] at e
  by_cases hb : s.bypass p = true
  · exact .inl ⟨hb, e.trans (if_pos hb)⟩
  · rw [if_neg hb] at e
    by_cases h : p.fails (s.draws + n) = true ∨ r.length ≠ 20
    · exact .inr (.inl ⟨by simpa using hb, h, e.trans (if_pos h)⟩)
    · rw [if_neg h] at e
      refine .inr (.inr ⟨by simpa using hb, by simpa using h, ?_⟩)
      by_cases ht : u.tagc.toList = u.container p (63 + n) 10
      · exact .inl ⟨ht, e.trans (if_pos ht)⟩
      · exact .inr ⟨ht, e.trans (if_neg ht)⟩

/-- D_INFLATE: the declared size does not fit, the provider's failure or another length, or the answer kept. -/
theorem State.dInflate_cases (p : Platform) (s : State) :
    let r := p.inflate s.payload s.usz.toNat
    (p.obufSize < s.usz.toNat ∧ s.dInflate p = s.raise .compression) ∨
    (s.usz.toNat ≤ p.obufSize ∧ (p.fails s.draws = true ∨ r.length ≠ s.usz.toNat) ∧
      s.dInflate p = (s.drew 1).raise .compression) ∨
    (s.usz.toNat ≤ p.obufSize ∧ (p.fails s.draws = false ∧ r.length = s.usz.toNat) ∧
      s.dInflate p = ((s.drew 1).putXbuf 0 r).goto .dCrc) := by
  intro r
  have e : s.dInflate p = if p.obufSize < s.usz.toNat then s.raise .compression
      else if p.fails s.draws = true ∨ r.length ≠ s.usz.toNat then (s.drew 1).raise .compression
      else ((s.drew 1).putXbuf 0 r).goto .dCrc := rfl
  by_cases h0 : p.obufSize < s.usz.toNat
  · exact .inl ⟨h0, e.trans (if_pos h0)⟩
  · rw [if_neg h0] at e
    by_cases h : p.fails s.draws = true ∨ r.length ≠ s.usz.toNat
    · exact .inr (.inl ⟨by omega, h, e.trans (if_pos h)⟩)
    · exact .inr (.inr ⟨by omega, by simpa using h, e.trans (if_neg h)⟩)

/-- D_CRC. -/
theorem State.dCrc_cases (p : Platform) (s : State) :
    (p.crc s.inflated = s.crcr ∧ s.dCrc p = s.goto .dCommit) ∨
    (p.crc s.inflated ≠ s.crcr ∧ s.dCrc p = s.raise .integrity) := by
  rw [State.dCrc]
  by_cases h : p.crc s.inflated = s.crcr
  · exact .inl ⟨h, if_pos h⟩
  · exact .inr ⟨h, if_neg h⟩

/-- D_FORMAT's last checks: BadFormat, or CLEN, CRCR and USZ from their fields. -/
theorem State.checkBounds_cases (p : Platform) (s : State) :
    let z := s.container p 14 12
    let cs := (rd32 z 4).toNat
    ((cs < 28 ∨ s.ilen.toNat < 73 + (cs - 28)) ∧ s.checkBounds p = (s.drew 12).raise .badFormat) ∨
    ((28 ≤ cs ∧ 73 + (cs - 28) ≤ s.ilen.toNat) ∧
      s.checkBounds p =
        ((s.drew 12).setParsed (cs - 28) (rd32 z 0) (rd32 z 8)).goto .dKdf) := by
  intro z cs
  have e : s.checkBounds p = if cs < 28 then (s.drew 12).raise .badFormat
      else if s.ilen.toNat < 73 + (cs - 28) then (s.drew 12).raise .badFormat
      else ((s.drew 12).setParsed (cs - 28) (rd32 z 0) (rd32 z 8)).goto .dKdf := rfl
  by_cases h1 : cs < 28
  · exact .inl ⟨.inl h1, e.trans (if_pos h1)⟩
  · rw [if_neg h1] at e
    by_cases h2 : s.ilen.toNat < 73 + (cs - 28)
    · exact .inl ⟨.inr h2, e.trans (if_pos h2)⟩
    · exact .inr ⟨by omega, e.trans (if_neg h2)⟩

/-- D_FORMAT from the AE extra field on. -/
theorem State.checkAeExtra_cases (p : Platform) (s : State) :
    let z := s.container p 36 7
    let ok := rd16 z 0 = 7 ∧ rd16 z 2 = 1 ∧ byteAt z 4 = 0x41 ∧ byteAt z 5 = 0x45 ∧ byteAt z 6 = 3
    (ok ∧ s.checkAeExtra p = (s.drew 7).checkBounds p) ∨ (¬ok ∧ s.checkAeExtra p = (s.drew 7).raise .badFormat) := by
  intro z ok
  have hc : (rd16 z 0 = aeDataSize ∧ rd16 z 2 = aeVersion ∧ [byteAt z 4, byteAt z 5] = vendorId ∧
      byteAt z 6 = aesStrength) ↔ ok := by
    simp [ok, aeDataSize, aeVersion, vendorId, aesStrength, and_assoc]
  rw [State.checkAeExtra]
  by_cases h : ok
  · exact .inl ⟨h, if_pos (hc.2 h)⟩
  · exact .inr ⟨h, if_neg (fun h' => h (hc.1 h'))⟩

/-- The AE extra header id is 0x9901. -/
theorem decodeExtraId_eq_some (v : BitVec 16) : decodeExtraId v = some .aeExtra ↔ v = 0x9901 := by
  rw [decodeExtraId]
  split
  · next h => exact ⟨fun _ => h, fun _ => rfl⟩
  · next h => exact ⟨fun h' => (by cases h'), fun h' => absurd h' h⟩

/-- D_FORMAT from the local file header on. -/
theorem State.checkLfh_cases (p : Platform) (s : State) :
    let ok := rd16 (s.container p 8 2) 0 = 99 ∧ rd16 ((s.drew 2).container p 28 2) 0 = 11 ∧
      rd16 ((s.drew 4).container p 34 2) 0 = 0x9901
    (ok ∧ s.checkLfh p = (s.drew 6).checkAeExtra p) ∨ (¬ok ∧ s.checkLfh p = (s.drew 6).raise .badFormat) := by
  intro ok
  have e : s.checkLfh p = if rd16 (s.container p 8 2) 0 = methodMarker ∧
      rd16 ((s.drew 2).container p 28 2) 0 = extraLength ∧
      decodeExtraId (rd16 (((s.drew 2).drew 2).container p 34 2) 0) = some .aeExtra
      then (((s.drew 2).drew 2).drew 2).checkAeExtra p else (((s.drew 2).drew 2).drew 2).raise .badFormat := rfl
  simp only [State.drew_drew, decodeExtraId_eq_some] at e
  by_cases h : ok
  · exact .inl ⟨h, e.trans (if_pos h)⟩
  · exact .inr ⟨h, e.trans (if_neg h)⟩

/-- The record rows at D_FORMAT check the container. -/
theorem State.onRecord_dFormat {s : State} (h : s.stage = Stage.dFormat.code) (w c : State → State) :
    s.onRecord w c = c s := by
  rw [State.onRecord, h, if_neg (by decide), if_pos rfl]

/-- The record rows at E_EMIT write the container. -/
theorem State.onRecord_eEmit {s : State} (h : s.stage = Stage.eEmit.code) (w c : State → State) :
    s.onRecord w c = w s := by
  rw [State.onRecord, if_pos h]

/-- The record rows elsewhere do nothing. -/
theorem State.onRecord_other {s : State} (h₁ : s.stage ≠ Stage.eEmit.code) (h₂ : s.stage ≠ Stage.dFormat.code)
    (w c : State → State) : s.onRecord w c = s := by
  rw [State.onRecord, if_neg h₁, if_neg h₂]

/-- The three record signatures are all the decoder finds at a container's head. -/
theorem decode_record_cases {bs r : Bytes} {i : Instr} (h : decode .record bs = .ok (i, r)) :
    i = .lfh ∨ i = .cfh ∨ i = .eocd := by
  have key : ∀ v, decodeSignature v = some i → i = .lfh ∨ i = .cfh ∨ i = .eocd := by
    intro v hv
    unfold decodeSignature at hv
    split at hv
    · exact .inl (Option.some.inj hv).symm
    · split at hv
      · exact .inr (.inl (Option.some.inj hv).symm)
      · split at hv
        · exact .inr (.inr (Option.some.inj hv).symm)
        · cases hv
  unfold decode at h
  split at h
  · next hp => cases hp
  · split at h
    · next j hj => cases h; exact key _ hj
    · cases h
  · next hp => cases hp
  · cases h

/-- D_FORMAT: the length floor or another word at the head gives BadFormat, a local file header is checked further. -/
theorem State.dFormat_cases (p : Platform) (s : State) (h : s.stage = Stage.dFormat.code) :
    (s.ilen.toNat < 73 ∧ s.dFormat p = s.raise .badFormat) ∨
    (73 ≤ s.ilen.toNat ∧ rd32 (s.container p 0 4) 0 ≠ 0x04034B50 ∧ s.dFormat p = (s.drew 4).raise .badFormat) ∨
    (73 ≤ s.ilen.toNat ∧ rd32 (s.container p 0 4) 0 = 0x04034B50 ∧ s.dFormat p = (s.drew 4).checkLfh p) := by
  by_cases hl : s.ilen.toNat < 73
  · exact .inl ⟨hl, by rw [State.dFormat, if_pos hl]⟩
  · have hl' : 73 ≤ s.ilen.toNat := by omega
    have h4 : (s.drew 4).stage = Stage.dFormat.code := h
    have hlen := State.length_container p s 0 4
    have hd : s.dFormat p =
        match (match decode .record (s.container p 0 4) with
          | .ok (i, _) => some (i, s.drew 4)
          | .error _ => none) with
        | some (i, s1) => s1.runRecord p i
        | none => (s.drew 4).raise .badFormat := by
      rw [State.dFormat, if_neg hl, State.fetchRecord, if_pos ⟨h, hl'⟩] <;> rfl
    generalize s.container p 0 4 = z at hd hlen ⊢
    match z, hlen with
    | [b0, b1, b2, b3], _ =>
      have hdec : decode .record [b0, b1, b2, b3] =
          match decodeSignature (rd32 [b0, b1, b2, b3] 0) with
          | some i => .ok (i, [])
          | none => .error .noRecordSignature := rfl
      rw [hdec] at hd
      generalize rd32 [b0, b1, b2, b3] 0 = v at hd ⊢
      by_cases h1 : v = sigLfh
      · refine .inr (.inr ⟨hl', h1, ?_⟩)
        rw [hd, decodeSignature, if_pos h1]
        show (s.drew 4).runLfh p = _
        rw [State.runLfh, State.onRecord_dFormat h4]
      · refine .inr (.inl ⟨hl', h1, ?_⟩)
        rw [hd, decodeSignature, if_neg h1]
        split
        · next i s1 heq =>
          split at heq
          · next j q hj =>
            cases heq
            split at hj
            · next k hk =>
              cases hj
              split at hk
              · cases hk
                show (s.drew 4).runCfh p = _
                rw [State.runCfh, State.onRecord_dFormat h4]
              · split at hk
                · cases hk
                  show (s.drew 4).runEocd = _
                  rw [State.runEocd, State.onRecord_dFormat h4]
                · cases hk
            · cases hj
          · cases heq
        · rfl

end Sys2Proof.Machine
end

