-- ==== Sys2Proof/Laws/Records.lean ====
section
/-! SUPPORT. The container's records: their lengths, and what writing them leaves in OBUF. -/

namespace Sys2Proof

/-- The length of `le16`. -/
@[simp] theorem length_le16 (v : BitVec 16) : (le16 v).length = 2 := rfl

/-- The length of `le32`. -/
@[simp] theorem length_le32 (v : BitVec 32) : (le32 v).length = 4 := rfl

/-- The length of `le64`. -/
@[simp] theorem length_le64 (v : BitVec 64) : (le64 v).length = 8 := rfl

/-- A register's length in bytes. -/
@[simp] theorem ByteReg.length_toList {n : Nat} (v : ByteReg n) : v.toList.length = n := by simp

namespace Machine

/-! ### Held bytes -/

/-- Nothing is held nowhere. -/
@[simp] theorem State.holds_nil (s : State) (a : Nat) : s.Holds a [] := fun _ h => nomatch h

/-- Held bytes, one at the front. -/
theorem State.holds_cons {s : State} {a : Nat} {b : Byte} {bs : Bytes} :
    s.Holds a (b :: bs) ↔ s.mem.read? a = some b ∧ s.Holds (a + 1) bs := by
  constructor
  · intro h
    refine ⟨by simpa [byteAt] using h 0 (by simp), fun k hk => ?_⟩
    have := h (k + 1) (by simpa using hk)
    rw [show a + 1 + k = a + (k + 1) by omega, this]
    simp [byteAt]
  · rintro ⟨h1, h2⟩ k hk
    cases k with
    | zero => simpa [byteAt] using h1
    | succ k =>
      have := h2 k (by simpa using hk)
      rw [show a + (k + 1) = a + 1 + k by omega, this]
      simp [byteAt]

/-- Held bytes, two strings joined. -/
theorem State.holds_append {s : State} {a : Nat} {xs ys : Bytes} :
    s.Holds a (xs ++ ys) ↔ s.Holds a xs ∧ s.Holds (a + xs.length) ys := by
  induction xs generalizing a with
  | nil => simp
  | cons x xs ih =>
    simp only [List.cons_append, State.holds_cons, ih, List.length_cons, and_assoc]
    rw [show a + 1 + xs.length = a + (xs.length + 1) by omega]

/-- A part of what is held is held. -/
theorem State.Holds.part {s : State} {a b : Nat} {bs xs : Bytes} (o : Nat) (h : s.Holds a bs) (hb : b = a + o)
    (hx : (bs.drop o).take xs.length = xs) : s.Holds b xs := by
  subst hb
  by_cases ho : o + xs.length ≤ bs.length
  · have := h.slice (n := xs.length) ho
    rwa [hx] at this
  · have hlen := congrArg List.length hx
    simp only [List.length_take, List.length_drop] at hlen
    have : xs = [] := List.eq_nil_of_length_eq_zero (by omega)
    subst this
    simp

/-! ### The records' lengths -/

/-- The shared fields have 24 bytes (30_encoding.md R95, R101). -/
@[simp] theorem length_sharedFields (p : Platform) (crc : BitVec 32) (n usize : Nat) :
    (sharedFields p crc n usize).length = 24 := by
  simp [sharedFields]

/-- The local file header's fixed part has 30 bytes (30_encoding.md R94). -/
@[simp] theorem length_lfhBytes (p : Platform) (crc : BitVec 32) (n usize : Nat) :
    (lfhBytes p crc n usize).length = 30 := by
  simp [lfhBytes]

/-- The AE extra field has 11 bytes (30_encoding.md R99). -/
@[simp] theorem length_aeExtraBytes : aeExtraBytes.length = 11 := rfl

/-- The central file header has 61 bytes (30_encoding.md R101). -/
@[simp] theorem length_cfhBytes (p : Platform) (crc : BitVec 32) (n usize : Nat) :
    (cfhBytes p crc n usize).length = 61 := by
  simp [cfhBytes]

/-- The end record has 22 bytes (30_encoding.md R103). -/
@[simp] theorem length_eocdBytes (n : Nat) : (eocdBytes n).length = 22 := by
  simp [eocdBytes]

/-- The container's length (30_encoding.md R94). -/
theorem length_containerBytes (p : Platform) (crc : BitVec 32) (usize : Nat) (salt pvv cipher tag : Bytes) :
    (containerBytes p crc usize salt pvv cipher tag).length =
      45 + salt.length + pvv.length + cipher.length + tag.length + 83 := by
  simp [containerBytes]
  omega

/-! ### Writing the records -/

/-- Writing at a container offset writes at that offset of OBUF. -/
theorem State.emit_eq (s : State) (o : Nat) (bs : Bytes) : s.emit o bs = s.putHost (obufBase + o) bs := rfl

/-- The state E_EMIT's writes leave, one write after the other. -/
theorem State.emitAll_eq (p : Platform) (s : State) :
    s.emitAll p =
      (((((((((((s.putHost obufBase (lfhBytes p s.crcr s.clen.toNat s.ilen.toNat)).putHost (obufBase + 30)
        p.label.toList).putHost (obufBase + 34) aeExtraBytes).putHost (obufBase + (73 + s.clen.toNat + 50))
        aeExtraBytes).putHost (obufBase + 45) s.salt.toList).putHost (obufBase + 61) s.pvv.toList).putHost
        (obufBase + 63) s.payload).putHost (obufBase + (63 + s.clen.toNat)) s.tagc.toList).putHost
        (obufBase + (73 + s.clen.toNat)) (cfhBytes p s.crcr s.clen.toNat s.ilen.toNat)).putHost
        (obufBase + (134 + s.clen.toNat)) (eocdBytes s.clen.toNat))) := by
  simp only [State.emitAll, State.emitLfh, State.emitName, State.emitAeExtra, State.emitPayload, State.emitCfh,
    State.emitEocd, State.emit]
  simp only [State.putHost_crcr, State.putHost_clen, State.putHost_ilen, State.putHost_salt, State.putHost_pvv,
    State.putHost_tagc]
  simp only [State.payload, State.putHost_cbuf, State.putHost_clen]
  have h0 : obufBase + 0 = obufBase := rfl
  simp only [h0]

/-- Writing a record changes nothing but the host buffers. -/
theorem State.putHost_eq (s : State) (a : Nat) (bs : Bytes) :
    s.putHost a bs = { s with mem := (s.putHost a bs).mem } := rfl

/-- Writing two records changes nothing but the host buffers. -/
theorem State.putHost_putHost_eq (s : State) (a b : Nat) (xs ys : Bytes) :
    (s.putHost a xs).putHost b ys = { s with mem := ((s.putHost a xs).putHost b ys).mem } := rfl

/-- E_EMIT's writes change nothing but the host buffers. -/
theorem State.emitAll_only (p : Platform) (s : State) : s.emitAll p = { s with mem := (s.emitAll p).mem } := by
  have key : ∀ t u : State, t = { s with mem := t.mem } → ∀ a bs, u = t.putHost a bs → u = { s with mem := u.mem } := by
    rintro t _ h a bs rfl
    rw [h]
    rfl
  rw [State.emitAll_eq]
  iterate 10 refine key _ _ ?_ _ _ rfl
  rfl

/-- What was held stays held where a write does not reach. -/
theorem State.Holds.putHost {s : State} {a b : Nat} {xs ys : Bytes} (h : s.Holds a xs)
    (hd : a + xs.length ≤ b ∨ b + ys.length ≤ a) : (s.putHost b ys).Holds a xs :=
  h.congr fun k hk => State.putHost_read? s b ys (a + k) (by omega)

/-- Adding to a length and truncating to 32 bits commute. -/
theorem ofNat_toNat_add (v : Word) (n : Nat) : BitVec.ofNat 32 (v.toNat + n) = v + BitVec.ofNat 32 n := by
  apply BitVec.eq_of_toNat_eq
  simp [BitVec.toNat_add]

/-! ### The record rows -/

/-- LFH at E_EMIT. -/
theorem execLfh_eEmit {s : State} (h : s.stage = Stage.eEmit.code) : execLfh s = .next (s.emitLfh Config.platform) := by
  rw [execLfh, State.runLfh, State.onRecord_eEmit h]

/-- LFH at D_FORMAT. -/
theorem execLfh_dFormat {s : State} (h : s.stage = Stage.dFormat.code) :
    execLfh s = .next (s.checkLfh Config.platform) := by
  rw [execLfh, State.runLfh, State.onRecord_dFormat h]

/-- CFH at E_EMIT. -/
theorem execCfh_eEmit {s : State} (h : s.stage = Stage.eEmit.code) : execCfh s = .next (s.emitCfh Config.platform) := by
  rw [execCfh, State.runCfh, State.onRecord_eEmit h]

/-- CFH at D_FORMAT. -/
theorem execCfh_dFormat {s : State} (h : s.stage = Stage.dFormat.code) : execCfh s = .next (s.raise .badFormat) := by
  rw [execCfh, State.runCfh, State.onRecord_dFormat h]

/-- EOCD at E_EMIT. -/
theorem execEocd_eEmit {s : State} (h : s.stage = Stage.eEmit.code) : execEocd s = .next s.emitEocd := by
  rw [execEocd, State.runEocd, State.onRecord_eEmit h]

/-- EOCD at D_FORMAT. -/
theorem execEocd_dFormat {s : State} (h : s.stage = Stage.dFormat.code) : execEocd s = .next (s.raise .badFormat) := by
  rw [execEocd, State.runEocd, State.onRecord_dFormat h]

/-- AE_EXTRA at E_EMIT. -/
theorem execAeExtra_eEmit {s : State} (h : s.stage = Stage.eEmit.code) : execAeExtra s = .next s.emitAeExtra := by
  rw [execAeExtra, State.runAeExtra, State.onRecord_eEmit h]

/-- AE_EXTRA at D_FORMAT. -/
theorem execAeExtra_dFormat {s : State} (h : s.stage = Stage.dFormat.code) :
    execAeExtra s = .next (s.checkAeExtra Config.platform) := by
  rw [execAeExtra, State.runAeExtra, State.onRecord_dFormat h]

end Machine

end Sys2Proof
end

