-- ==== Sys2Proof/Laws/Step.lean ====
section
/-! SUPPORT. One step taken apart: who moves, and what a host access, an engine turn and a reset do. -/

namespace Sys2Proof.Machine

/-! ### Who moves -/

/-- Setting the turns to what they are. -/
theorem State.setTurns_self {s : State} {ts : List Turn} (h : s.turns = ts) : s.setTurns ts = s := by
  cases s
  cases h
  rfl

/-- A step in which the host moves. -/
theorem step_host {s : State} {ts : List Turn} (h : s.HostMoves ts) : step s = (s.setTurns ts).hostTurn := by
  rcases h with h | ⟨h, rfl, hb⟩
  · rw [step, h]
    rfl
  · rw [State.setTurns_self h, step, h, hb]
    rfl

/-- A step in which the engine moves. -/
theorem step_engine {s : State} {ts : List Turn} (h : s.EngineMoves ts) : step s = (s.setTurns ts).engineTurn := by
  rcases h with h | ⟨h, rfl, hb⟩
  · rw [step, h]
    rfl
  · rw [State.setTurns_self h, step, h, hb]
    rfl

/-- A step in which a provider has not answered yet. -/
theorem step_stall {s : State} {ts : List Turn} (h : s.turns = .stall :: ts) : step s = .next (s.setTurns ts) := by
  rw [step, h]
  rfl

/-- A step in which reset is asserted. -/
theorem step_reset {s : State} {b : Bool} {ts : List Turn} (h : s.turns = .reset b :: ts) :
    step s = .next (if b then ((s.setTurns ts).resetBlock).setHost (dropAccess s.host)
      else (s.setTurns ts).resetBlock) := by
  rw [step, h]
  cases b <;> rfl

/-- Every step is the host's, the engine's, a stall or a reset. -/
theorem step_cases (s : State) :
    (∃ ts, s.HostMoves ts) ∨ (∃ ts, s.EngineMoves ts) ∨ (∃ ts, s.turns = .stall :: ts) ∨
      ∃ b ts, s.turns = .reset b :: ts := by
  cases h : s.turns with
  | nil =>
    cases hb : s.busy with
    | false => exact .inl ⟨[], .inr ⟨h, rfl, hb⟩⟩
    | true => exact .inr (.inl ⟨[], .inr ⟨h, rfl, hb⟩⟩)
  | cons t ts =>
    cases t with
    | host => exact .inl ⟨ts, .inl h⟩
    | engine => exact .inr (.inl ⟨ts, .inl h⟩)
    | stall => exact .inr (.inr (.inl ⟨ts, rfl⟩))
    | reset b => exact .inr (.inr (.inr ⟨b, ts, rfl⟩))

/-! ### The record read at the head of a container -/

/-- Away from D_FORMAT no record is read. -/
theorem State.fetchRecord_other {p : Platform} {s : State} (h : s.stage ≠ Stage.dFormat.code) :
    s.fetchRecord p = none := by
  rw [State.fetchRecord, if_neg (fun h' => h h'.1)]

/-- A record that is read, and the state after its four bytes are read. -/
theorem State.fetchRecord_some {p : Platform} {s s1 : State} {i : Instr} (h : s.fetchRecord p = some (i, s1)) :
    s.stage = Stage.dFormat.code ∧ 73 ≤ s.ilen.toNat ∧ s1 = s.drew 4 ∧ (i = .lfh ∨ i = .cfh ∨ i = .eocd) := by
  rw [State.fetchRecord] at h
  split at h
  · next hc =>
    split at h
    · next j r hd =>
      cases h
      exact ⟨hc.1, hc.2, rfl, decode_record_cases hd⟩
    · cases h
  · cases h

/-! ### The host's turn -/

/-- The host issues a bus operation. -/
theorem State.hostTurn_bus {s : State} {op : BusOp} {rest : List HostOp} (h : s.host = .bus op :: rest) :
    s.hostTurn = (s.setHost rest).access op := by
  rw [State.hostTurn, h]

/-- The host has nothing to issue. -/
theorem State.hostTurn_nil {s : State} (h : s.host = []) : s.hostTurn = .next s := by
  rw [State.hostTurn, h]

/-- The host polls. -/
theorem State.hostTurn_poll {s : State} {a mask val : Word} {rest : List HostOp}
    (h : s.host = .poll a mask val :: rest) :
    s.hostTurn =
      match s.access (.read a 4) with
      | .next s' => .next (if s'.lastData &&& mask = val then s'.setHost rest else s')
      | .fault r => .fault r
      | .refused r => .refused r := by
  rw [State.hostTurn, h] <;> rfl

/-! ### Where an access lands -/

/-- What `resourceOf` says, resource by resource (20_memory.md R61). -/
theorem resourceOf_iff (p : Platform) (hp : p.Bounded) (a n : Nat) (hn : 1 ≤ n) (r : Resource) :
    resourceOf p a n = some r ↔
      match r with
      | .registers => a + n ≤ 0x1C
      | .pbuf => 0x1000 ≤ a ∧ a + n ≤ 0x1000 + p.pbufSize
      | .ibuf => 0x1000000 ≤ a ∧ a + n ≤ 0x1000000 + p.ibufSize
      | .obuf => 0x2000000 ≤ a ∧ a + n ≤ 0x2000000 + p.obufSize := by
  have h1 := hp.pbuf_le
  have h2 := hp.ibuf_le
  have e : resourceOf p a n = if a + n ≤ 0x1C then some .registers
      else if 0x1000 ≤ a ∧ a + n ≤ 0x1000 + p.pbufSize then some .pbuf
      else if 0x1000000 ≤ a ∧ a + n ≤ 0x1000000 + p.ibufSize then some .ibuf
      else if 0x2000000 ≤ a ∧ a + n ≤ 0x2000000 + p.obufSize then some .obuf
      else none := rfl
  rw [e]
  repeat' split
  all_goals simp
  all_goals omega

/-- An access that gets BUSERR reads 0 and changes nothing else (20_memory.md R68). -/
theorem State.access_busErr {s : State} {op : BusOp} (h : s.busErr Config.platform op = true) :
    s.access op = .next (s.respond op false 0) := by
  unfold State.access
  exact if_pos h

/-- A read with no BUSERR. -/
theorem State.access_read {s : State} {a : Word} {n : Nat} (h : s.busErr Config.platform (.read a n) = false) :
    s.access (.read a n) = s.busRead Config.platform (.read a n) := by
  rw [State.access, if_neg (by rw [h]; exact Bool.false_ne_true)]

/-- A write with no BUSERR to an address that is not CMD's. -/
theorem State.access_write {s : State} {a v : Word} {n : Nat} (h : s.busErr Config.platform (.write a n v) = false)
    (ha : a.toNat ≠ 0) : s.access (.write a n v) = .next (s.busWrite Config.platform (.write a n v) v) := by
  rw [State.access, if_neg (by rw [h]; exact Bool.false_ne_true)]
  simp only [if_neg ha]

/-- A write with no BUSERR to CMD runs the command word. -/
theorem State.access_cmd {s : State} {a v : Word} {n : Nat} (h : s.busErr Config.platform (.write a n v) = false)
    (ha : a.toNat = 0) : s.access (.write a n v) = exec (decodeCommand v) (s.respond (.write a n v) true 0) := by
  rw [State.access, if_neg (by rw [h]; exact Bool.false_ne_true)]
  simp only [if_pos ha]

/-- A register access of the right shape gets BUSERR only as a write while a command runs (44_host_access.md R240). -/
theorem State.busErr_register {p : Platform} {s : State} {op : BusOp} (ha : op.addr.toNat + 4 ≤ 0x1C)
    (hal : op.addr.toNat % 4 = 0) (hn : op.size = 4) : s.busErr p op = (s.busy && op.isWrite) := by
  have hr : resourceOf p op.addr.toNat op.size = some .registers := by
    rw [hn, resourceOf, if_pos ha]
  rw [State.busErr, hr]
  simp [hn, hal, legalWidth, Resource.accepts]

/-- A buffer access of the right shape on an idle block gets BUSERR only as a write to OBUF (44_host_access.md R240). -/
theorem State.busErr_buffer {p : Platform} {s : State} {op : BusOp} {r : Resource}
    (hr : resourceOf p op.addr.toNat op.size = some r) (hne : r ≠ .registers) (hal : op.addr.toNat % op.size = 0)
    (hn : op.size = 1 ∨ op.size = 2 ∨ op.size = 4) (hb : s.busy = false) :
    s.busErr p op = (decide (r = .obuf) && op.isWrite) := by
  have hw : legalWidth op.size = true := by rcases hn with h | h | h <;> rw [h] <;> rfl
  simp only [State.busErr, hr, hw, hal, hb]
  cases r
  · exact absurd rfl hne
  all_goals simp [Resource.accepts]

end Sys2Proof.Machine
end

