-- ==== Sys2Proof/Laws/Transcript.lean ====
section
/-! SUPPORT. What one step adds to a program's encoding. -/

namespace Sys2Proof.Machine

/-! ### The encoding of a list -/

@[simp] theorem encodeProgram_nil : encodeProgram [] = [] := rfl

@[simp] theorem encodeProgram_cons (x : Access) (xs : List Access) :
    encodeProgram (x :: xs) = x.record :: encodeProgram xs := rfl

/-! ### When a step performs an access -/

/-- The host moves and has something to issue. -/
theorem State.issues_host {s : State} {ts : List Turn} (h : s.HostMoves ts) : s.issues = !s.host.isEmpty := by
  rcases h with h | ⟨h, -, hb⟩
  · rw [State.issues, h]
  · rw [State.issues, h, hb]
    rfl

/-- The engine moves: no access is performed. -/
theorem State.issues_engine {s : State} {ts : List Turn} (h : s.EngineMoves ts) : s.issues = false := by
  rcases h with h | ⟨h, -, hb⟩
  · rw [State.issues, h]
  · rw [State.issues, h, hb]
    rfl

/-! ### One step -/

/-- A step that performs an access puts its record first. -/
theorem State.programEncoding_access {s t : State} {x : Access} (k : Nat) (hi : s.issues = true)
    (hs : step s = .next t) (hx : t.last = some x) :
    s.programEncoding (k + 1) = x.record :: t.programEncoding k := by
  rw [State.programEncoding, State.transactions, hs]
  simp only [hi, hx, Option.toList, if_true]
  rfl

/-- A step that performs none adds nothing. -/
theorem State.programEncoding_silent {s t : State} (k : Nat) (hi : s.issues = false) (hs : step s = .next t) :
    s.programEncoding (k + 1) = t.programEncoding k := by
  rw [State.programEncoding, State.transactions, hs]
  simp only [hi]
  rfl

/-- The meaning of a command word leaves the port's answer. -/
theorem last_execCommand {v : Word} {s t : State} (h : exec (decodeCommand v) s = .next t) : t.last = s.last := by
  simp only [decodeCommand] at h
  cases hb : s.busy <;> split_ifs at h <;>
    simp only [exec, execNop, execEncode, execDecode, execReserved03, execReserved04To07, execReserved08To0F,
      execReserved10To1F, execReserved20To3F, execReserved40To7F, execReserved80ToFF, State.dispatch, hb, if_true, if_false,
      Bool.false_eq_true, Host.Outcome.next.injEq] at h <;> subst h <;> rfl

/-- After an access the port's answer is about that access. -/
theorem last_access {s t : State} {op : BusOp} (h : s.access op = .next t) : ∃ x, t.last = some x ∧ x.op = op := by
  cases hb : s.busErr Config.platform op with
  | true =>
    rw [State.access_busErr hb] at h
    cases h
    exact ⟨_, rfl, rfl⟩
  | false =>
    cases op with
    | read a n =>
      rw [State.access_read hb, State.busRead] at h
      split at h
      · split at h
        · cases h
        · cases h
          exact ⟨_, rfl, rfl⟩
      · cases h
        exact ⟨_, rfl, rfl⟩
    | write a n v =>
      by_cases ha : a.toNat = 0
      · rw [State.access_cmd hb ha] at h
        exact ⟨_, last_execCommand h, rfl⟩
      · rw [State.access_write hb ha, State.busWrite] at h
        cases h
        split <;> exact ⟨_, rfl, rfl⟩

end Sys2Proof.Machine
end

