-- ==== Sys2Proof/Tests/Slice0.lean ====
section
/-! SUPPORT. Tests on words and vectors of the spec, and for every obligation with hypotheses a concrete state and operands that
meet them. -/

namespace Sys2Proof.Tests

open Sys2Proof Sys2Proof.Machine

/-! ### Ill-formed terms are refused -/

theorem test_wf_04_07 : (Instr.reserved04To07 0x08 0).wellFormed = false ∧ (Instr.reserved04To07 0x03 0).wellFormed = false := by
  decide
theorem test_wf_08_0F : (Instr.reserved08To0F 0x07 0).wellFormed = false ∧ (Instr.reserved08To0F 0x10 0).wellFormed = false := by
  decide
theorem test_wf_10_1F : (Instr.reserved10To1F 0x0F 0).wellFormed = false ∧ (Instr.reserved10To1F 0x20 0).wellFormed = false := by
  decide
theorem test_wf_20_3F : (Instr.reserved20To3F 0x1F 0).wellFormed = false ∧ (Instr.reserved20To3F 0x40 0).wellFormed = false := by
  decide
theorem test_wf_40_7F : (Instr.reserved40To7F 0x3F 0).wellFormed = false ∧ (Instr.reserved40To7F 0x80 0).wellFormed = false := by
  decide
theorem test_wf_80_FF : (Instr.reserved80ToFF 0x7F 0).wellFormed = false ∧ (Instr.reserved80ToFF 0xFF 0).wellFormed = true := by
  decide

/-! ### Words written out from the encodings of 30_encoding.md R91 and R111 -/

theorem test_decode_nop : decodeCommand 0b00000000000000000000000100000000 = .nop 1 := by decide
theorem test_decode_encode : decodeCommand 0b10000000000000000000000000000001 = .encode 0x800000 := by decide
theorem test_decode_decode : decodeCommand 0b00000000000000000000000000000010 = .decode 0 := by decide
theorem test_decode_03 : decodeCommand 0b00000000000000000000000000000011 = .reserved03 0 := by decide
theorem test_decode_04_07 :
    decodeCommand 0b00000100 = .reserved04To07 4 0 ∧ decodeCommand 0b00000111 = .reserved04To07 7 0 := by decide
theorem test_decode_08_0F :
    decodeCommand 0b00001000 = .reserved08To0F 8 0 ∧ decodeCommand 0b00001111 = .reserved08To0F 15 0 := by decide
theorem test_decode_10_1F :
    decodeCommand 0b00010000 = .reserved10To1F 16 0 ∧ decodeCommand 0b00011111 = .reserved10To1F 31 0 := by decide
theorem test_decode_20_3F :
    decodeCommand 0b00100000 = .reserved20To3F 32 0 ∧ decodeCommand 0b00111111 = .reserved20To3F 63 0 := by decide
theorem test_decode_40_7F :
    decodeCommand 0b01000000 = .reserved40To7F 64 0 ∧ decodeCommand 0b01111111 = .reserved40To7F 127 0 := by decide
theorem test_decode_80_FF :
    decodeCommand 0b10000000 = .reserved80ToFF 128 0 ∧ decodeCommand 0b11111111 = .reserved80ToFF 255 0 := by decide
theorem test_decode_lfh : decode .record [0b01010000, 0b01001011, 0b00000011, 0b00000100] = .ok (.lfh, []) := rfl
theorem test_decode_cfh : decode .record [0b01010000, 0b01001011, 0b00000001, 0b00000010] = .ok (.cfh, []) := rfl
theorem test_decode_eocd : decode .record [0b01010000, 0b01001011, 0b00000101, 0b00000110] = .ok (.eocd, []) := rfl
theorem test_decode_aeExtra : decode .extra [0b00000001, 0b10011001] = .ok (.aeExtra, []) := rfl
theorem test_decode_short : decode .record [0x50, 0x4B, 0x03] = .error .tooShort := rfl
theorem test_table_words :
    decodeTableWord 32 0x04034B50 = some .lfh ∧ decodeTableWord 32 0x02014B50 = some .cfh ∧
      decodeTableWord 32 0x06054B50 = some .eocd ∧ decodeTableWord 16 0x9901 = some .aeExtra ∧
      decodeTableWord 8 0x01 = some (.encode 0) ∧ decodeTableWord 32 0xFF = some (.reserved80ToFF 255 0) := by
  decide

/-! ### The instance of 95_test_vectors.md, with the provider answers of its vector E1 -/

/-- Salt S0. -/
def salt0 : Bytes := [0, 1, 2, 3, 4, 5, 6, 7, 8, 9, 10, 11, 12, 13, 14, 15]

/-- A small instance in which every provider answers, whatever its arguments. -/
def toy : Platform :=
  { ibufSize := 256, pbufSize := 16, cbufSize := 300, obufSize := 500, deflateSlack := 0, testHook := true
    label := ByteReg.ofBytes 4 [0x64, 0x61, 0x74, 0x61], mtime := 0, mdate := 0x0021
    kdf := fun _ _ _ n => List.replicate n 0x5A, aes := fun _ b => ByteReg.ofBytes 16 b
    hmac := fun _ _ => List.replicate 20 7, crc := fun _ => 0x3610A686, deflate := fun _ d => d, inflate := fun d _ => d
    rng := fun _ _ => salt0, fails := fun _ => false, freeByte := fun _ => 0xEE }

/-- The same instance, every provider call failing. -/
def failing : Platform := { toy with fails := fun _ => true }

theorem toy_bounded : toy.Bounded := by constructor <;> decide

theorem failing_bounded : failing.Bounded := by constructor <;> decide

/-- A state in a command, at a stage. -/
def inStage (st : Stage) : State := { State.reset with busy := true, stage := st.code }

/-- A state at a stage with a one-byte plaintext or container byte "x" and the password "k". -/
def loaded (st : Stage) : State :=
  { inStage st with ilen := 1, pwlen := 1, mem := [(pbufBase, 0x6B), (ibufBase, 0x78)] }

theorem test_statusWords :
    (inStage .eCrc).statusWord = 1 ∧ State.reset.statusWord = 0 ∧ (State.reset.endBadCommand).statusWord = 2 ∧
      (State.reset.endBadCommand).errWord = 0xB := by decide

/-- HV1, HV3, HV14, HV15, HV17 of 95_test_vectors.md. -/
theorem test_HV1 : State.reset.access (.read 8 4) =
    .next { State.reset with last := some { op := .read 8 4, okay := true, data := 0 } } := rfl
theorem test_HV3 : State.reset.access (.write 0x10 4 0x12345678) =
    .next
      { State.reset with ilen := 0x12345678, last := some { op := .write 0x10 4 0x12345678, okay := true, data := 0 } } := rfl
theorem test_HV14 : State.reset.access (.write 0 4 0x7F) =
    .next
      { State.reset with
        done := true, err := 11, last := some { op := .write 0 4 0x7F, okay := true, data := 0 } } := rfl
theorem test_HV15 : State.reset.endBadCommand.access (.write 0 4 0x100) =
    .next
      { State.reset.endBadCommand with last := some { op := .write 0 4 0x100, okay := true, data := 0 } } := rfl
theorem test_HV17 : State.reset.endBadCommand.access (.write 8 4 2) =
    .next
      { State.reset.endBadCommand with
        done := false, last := some { op := .write 8 4 2, okay := true, data := 0 } } := rfl
/-- HV5 to HV8, HV12, HV13, HV22 to HV26. -/
theorem test_busErr :
    State.reset.busErr toy (.read 8 2) = true ∧ State.reset.busErr toy (.read 0x1C 4) = true ∧
      State.reset.busErr toy (.read 6 4) = true ∧ State.reset.busErr toy (.write 0x2000000 4 1) = true ∧
      State.reset.busErr toy (.read 0x1000001 2) = true ∧ State.reset.busErr toy (.write 0x800 4 1) = true := by decide
theorem test_busErr_busy :
    (inStage .eCrc).busErr toy (.write 0x10 4 0) = true ∧ (inStage .eCrc).busErr toy (.read 0x1000000 4) = true ∧
      (inStage .eCrc).busErr toy (.read 8 4) = false ∧ (inStage .eCrc).busErr toy (.read 0x18 4) = false ∧
      (inStage .eCrc).busErr toy (.write 0 4 2) = true := by decide
/-- HV9 to HV11. -/
theorem test_HV9 :
    wordOfBytes ((State.reset.putHost ibufBase [0x50, 0x4B, 0x03, 0x04]).bytesAt toy ibufBase 4) = 0x04034B50 ∧
      wordOfBytes ((State.reset.putHost ibufBase [0x50, 0x4B, 0x03, 0x04]).bytesAt toy (ibufBase + 2) 2) = 0x0403 := by
  decide
/-- HV18, HV19. -/
theorem test_HV18 :
    (State.reset.writeCtrl toy 0xFFFFFFFF).ctrlWord toy = 3 ∧
      (State.reset.writeCtrl { toy with testHook := false } 0xFFFFFFFF).ctrlWord { toy with testHook := false } = 2 := by
  decide
/-- HV20, HV21. -/
theorem test_HV20 :
    ({ State.reset with ie := true } : State).endBadCommand.irq = true ∧
      (({ State.reset with ie := true } : State).endBadCommand.writeCtrl toy 0).irq = false := by decide
/-- T1, T5, T6, T7 of 95_test_vectors.md section 3. -/
theorem test_counter_blocks :
    counterBlock 1 = [1, 0, 0, 0, 0, 0, 0, 0, 0, 0, 0, 0, 0, 0, 0, 0] ∧
      counterBlock 0x100 = [0, 1, 0, 0, 0, 0, 0, 0, 0, 0, 0, 0, 0, 0, 0, 0] ∧
      counterBlock 0x0102030405060708 = [8, 7, 6, 5, 4, 3, 2, 1, 0, 0, 0, 0, 0, 0, 0, 0] ∧
      counterBlock (BitVec.allOnes 64) = [255, 255, 255, 255, 255, 255, 255, 255, 0, 0, 0, 0, 0, 0, 0, 0] := by decide
/-- T11: one byte, width 1, counter 1; the second byte of CBUF keeps its value. -/
theorem test_T11 :
    (({ inStage .eCipher with clen := 1, cbuf := [(1, 0xAB)] } : State).afterBlock
      { toy with aes := fun _ b => if b = counterBlock 1 then ByteReg.ofBytes 16 [0xC7, 0xB5] else ByteReg.zero 16 }).cbuf =
        [(0, 0xC7), (1, 0xAB)] := by decide
/-- The first and the last bytes of E1 of 95_test_vectors.md section 5, from its stage values. -/
def containerE1 : Bytes :=
  containerBytes toy 0x3610A686 5 salt0 [0x05, 0xA9] [0x4B, 0xCD, 0xA4, 0x93, 0xA4, 0xB2, 0xAA]
    [0xC1, 0xF5, 0xC2, 0xE3, 0x6C, 0x14, 0x8A, 0xAF, 0xB5, 0x02]
theorem test_E1_local :
    containerE1.take 45 =
      [0x50, 0x4B, 0x03, 0x04, 0x33, 0x00, 0x01, 0x00, 0x63, 0x00, 0x00, 0x00, 0x21, 0x00, 0x86, 0xA6,
       0x10, 0x36, 0x23, 0x00, 0x00, 0x00, 0x05, 0x00, 0x00, 0x00, 0x04, 0x00, 0x0B, 0x00, 0x64, 0x61,
       0x74, 0x61, 0x01, 0x99, 0x07, 0x00, 0x01, 0x00, 0x41, 0x45, 0x03, 0x08, 0x00] := by decide
theorem test_E1_central :
    containerE1.drop 80 =
      [0x50, 0x4B, 0x01, 0x02, 0x33, 0x00, 0x33, 0x00, 0x01, 0x00, 0x63, 0x00, 0x00, 0x00, 0x21, 0x00,
       0x86, 0xA6, 0x10, 0x36, 0x23, 0x00, 0x00, 0x00, 0x05, 0x00, 0x00, 0x00, 0x04, 0x00, 0x0B, 0x00,
       0x00, 0x00, 0x00, 0x00, 0x00, 0x00, 0x00, 0x00, 0x00, 0x00, 0x00, 0x00, 0x00, 0x00, 0x64, 0x61,
       0x74, 0x61, 0x01, 0x99, 0x07, 0x00, 0x01, 0x00, 0x41, 0x45, 0x03, 0x08, 0x00, 0x50, 0x4B, 0x05,
       0x06, 0x00, 0x00, 0x00, 0x00, 0x01, 0x00, 0x01, 0x00, 0x3D, 0x00, 0x00, 0x00, 0x50, 0x00, 0x00,
       0x00, 0x00, 0x00] := by decide
/-- 30_encoding.md R113: the record of `sw CMD, 0x01`. -/
theorem test_record :
    Access.record { op := .write 0 4 1, okay := true, data := 0 } = "W 4 00000000 00000001".toList := by decide
/-- DV rows: an empty operand is Params; a container of 72 bytes and one with another signature are BadFormat. -/
theorem test_params :
    (loaded .eCheck).engine toy = .next { loaded .eCheck with stage := 2 } ∧
      ({ loaded .dCheck with pwlen := 0 } : State).engine toy =
        .next { loaded .dCheck with pwlen := 0, raised := some .params, stage := 18 } := ⟨rfl, rfl⟩
theorem test_badFormat :
    ({ inStage .dFormat with ilen := 72 } : State).engine toy =
        .next { inStage .dFormat with ilen := 72, raised := some .badFormat, stage := 18 } := rfl
theorem test_reset_form : State.reset.mem.wf hostBlank = true ∧ State.reset.cbuf.wf innerBlank = true := by decide

/-! ### A step runs the word placed for it -/

theorem test_step_encode :
    step (State.reset.withFetchWord 8 0x01) =
      .next
        { State.reset with
          busy := true, stage := 1, last := some { op := .write 0 4 1, okay := true, data := 0 } } := rfl
/-- What a step raised and how many draws it had made. -/
def raisedAndDraws : Result → Option (Option ErrKind × Nat)
  | .next t => some (t.raised, t.draws)
  | .fault _ => none
  | .refused _ => none
/-- EOCD at the head: four bytes read, BadFormat. -/
theorem test_step_eocd : raisedAndDraws (step (State.reset.withFetchWord 32 0x06054B50)) = some (some .badFormat, 4) := by
  decide
/-- LFH alone at the head: method marker, extra length and extra id read too, BadFormat. -/
theorem test_step_lfh : raisedAndDraws (step (State.reset.withFetchWord 32 0x04034B50)) = some (some .badFormat, 10) := by
  decide
/-- AE_EXTRA behind a local file header: its data size, version, vendor and strength read too. -/
theorem test_step_aeExtra : raisedAndDraws (step (State.reset.withFetchWord 16 0x9901)) = some (some .badFormat, 17) := by
  decide

/-! ### The obligations' hypotheses can be met -/

theorem witness_DecodeReadsBackEveryEncoding :
    (Instr.reserved04To07 0x04 0xFFFFFF).WellFormed ∧ (Instr.reserved80ToFF 0xFF 0).WellFormed ∧ Instr.aeExtra.WellFormed := by
  decide

theorem witness_TransactionRecordsAreUnambiguous :
    let x : Access := { op := .read 0x1000 1, okay := true, data := 7 }
    let y : Access := { op := .read 0x1000 1, okay := false, data := 7 }
    let u : Access := { op := .write 0x1000000 4 7, okay := true, data := 0 }
    let v : Access := { op := .write 0x1000000 4 7, okay := false, data := 1 }
    x ≠ y ∧ u ≠ v ∧ (∀ z ∈ [x, u], legalWidth z.op.size = true) ∧ (∀ z ∈ [y, v], legalWidth z.op.size = true) ∧
      x.record = y.record ∧ u.record = v.record ∧ encodeProgram [x, u] = encodeProgram [y, v] := by
  decide

/-- The clauses about a run: a bus operation, a poll, and the four kinds of step that perform no access. -/
theorem witness_TransactionRecordsAreUnambiguous_runs :
    (let s := { State.reset with host := [lw addrSTATUS] }
     s.HostMoves [] ∧ s.host = .bus (.read 8 4) :: [] ∧
       step s = .next { State.reset with last := some { op := .read 8 4, okay := true, data := 0 } }) ∧
    (let s := { State.reset with host := waitDone }
     s.HostMoves [] ∧ s.host = .poll 8 3 2 :: [] ∧
       step s = .next { s with last := some { op := .read 8 4, okay := true, data := 0 } }) ∧
    (let s := { loaded .dFormat with turns := [.engine] }
     s.EngineMoves [] ∧ step s = .next ((loaded .dFormat).raise .badFormat)) ∧
    (let s := { State.reset with turns := [.stall] }
     s.turns = .stall :: [] ∧ step s = .next State.reset) ∧
    (let s := { State.reset with turns := [.reset true], host := [lw addrSTATUS] }
     s.turns = .reset true :: [] ∧ step s = .next State.reset) ∧
    (State.reset.HostMoves [] ∧ State.reset.host = [] ∧ step State.reset = .next State.reset) :=
  ⟨⟨.inr ⟨rfl, rfl, rfl⟩, rfl, rfl⟩, ⟨.inr ⟨rfl, rfl, rfl⟩, rfl, rfl⟩, ⟨.inl rfl, rfl⟩, ⟨rfl, rfl⟩, ⟨rfl, rfl⟩,
    .inr ⟨rfl, rfl, rfl⟩, rfl, rfl⟩

/-- The first two operations of Program 5 of 95_test_vectors.md and their records. -/
theorem test_program5 :
    ({ State.reset with host := issue 0x7F ++ [lw addrSTATUS] } : State).programEncoding 2 =
      ["W 4 00000000 0000007F".toList, "R 4 00000008 00000002".toList] := by decide

/-- An idle block: for the dispatches of ENCODE, DECODE and the reserved commands. -/
theorem witness_EncodeDispatchStartsAtECheck : State.reset.endBadCommand.busy = false := by decide
theorem witness_DecodeDispatchStartsAtDCheck : State.reset.endBadCommand.busy = false := by decide
theorem witness_ReservedCommandsEndAtOnce : State.reset.busy = false := by decide

theorem witness_NoCommandStartsInsideAnother :
    (Instr.encode 0).place = .command ∧ (Instr.reserved80ToFF 0xFF 0).place = .command ∧ (inStage .eCrc).busy = true := by
  decide

/-- Both clauses; in the first the host moves by a prescribed turn and by itself. -/
theorem witness_CmdWriteDispatchesByItsCode :
    (let s := { State.reset with host := [sw addrCMD 0x7F], turns := [.host, .stall] }
     s.HostMoves [.stall] ∧ s.host = .bus (.write 0 4 0x7F) :: [] ∧ s.busy = false) ∧
    (let s := { State.reset with host := [sw addrCMD 0x01] }
     s.HostMoves [] ∧ s.host = .bus (.write 0 4 0x01) :: [] ∧ s.busy = false) ∧
    (let s := { inStage .eCrc with host := [sw addrCMD 0x02], turns := [.host] }
     s.HostMoves [] ∧ s.host = .bus (.write 0 4 0x02) :: [] ∧ s.busy = true) :=
  ⟨⟨.inl rfl, rfl, rfl⟩, ⟨.inr ⟨rfl, rfl, rfl⟩, rfl, rfl⟩, ⟨.inl rfl, rfl, rfl⟩⟩

theorem witness_StepRunsTheCommandWritten :
    let s := { State.reset with host := [sw addrCMD 0x100] }
    s.HostMoves [] ∧ s.busy = false ∧ s.host = .bus (.write 0 4 0x100) :: [] ∧
      decode .command (le32 0x100) = .ok (.nop 1, []) :=
  ⟨.inr ⟨rfl, rfl, rfl⟩, rfl, rfl, rfl⟩

theorem witness_StepRunsTheRecordAtTheHead :
    let s := State.reset.withFetchWord 32 0x06054B50
    s.EngineMoves [] ∧ s.stage = Stage.dFormat.code ∧ 73 ≤ s.ilen.toNat ∧
      decode .record (s.container Config.platform 0 4) = .ok (.eocd, []) :=
  ⟨.inl rfl, by decide, by decide, by rfl⟩

theorem witness_LfhRunsTheExtraFieldBehindIt :
    let s := State.reset.withFetchWord 16 0x9901
    s.stage = Stage.dFormat.code ∧ s.Holds (ibufBase + 8) [0x63, 0x00] ∧ s.Holds (ibufBase + 28) [0x0B, 0x00] ∧
      decode .extra ((s.drew 4).container Config.platform 34 2) = .ok (.aeExtra, []) :=
  ⟨by decide, by unfold State.Holds; decide, by unfold State.Holds; decide, by rfl⟩

theorem witness_StepOfTheEngineIsTheStage :
    (inStage .eCrc).EngineMoves [] ∧ { State.reset with turns := [.engine, .host] }.EngineMoves [.host] :=
  ⟨.inr ⟨rfl, rfl, rfl⟩, .inl rfl⟩

/-- E_EMIT, for LFH, AE_EXTRA, CFH and EOCD. -/
theorem witness_LfhIsWrittenAtEmit : (inStage .eEmit).stage = Stage.eEmit.code := by decide
theorem witness_AeExtraIsWrittenAtEmit : (inStage .eEmit).stage = Stage.eEmit.code := by decide
theorem witness_CfhIsWrittenAtEmit : (inStage .eEmit).stage = Stage.eEmit.code := by decide
theorem witness_EocdIsWrittenAtEmit : (inStage .eEmit).stage = Stage.eEmit.code := by decide
theorem witness_OtherRecordsAtTheHeadAreBadFormat : (inStage .dFormat).stage = Stage.dFormat.code := by decide
theorem witness_RecordsAreTouchedAtTwoStagesOnly :
    Instr.aeExtra.place ≠ .command ∧ (inStage .dPvv).stage ≠ Stage.eEmit.code ∧
      (inStage .dPvv).stage ≠ Stage.dFormat.code := by decide

theorem witness_FirstStageChecksTheOperands :
    (loaded .eCheck).stage = Stage.eCheck.code ∧ (loaded .dCheck).stage = Stage.dCheck.code := by decide

theorem witness_CrcIsTakenOverThePlaintext :
    let s := loaded .eCrc
    let plain : Bytes := [0x78]
    s.stage = Stage.eCrc.code ∧ plain.length = s.ilen.toNat ∧ s.Holds ibufBase plain :=
  ⟨by decide, by decide, by unfold State.Holds; decide⟩

/-- Both clauses, at an answer of CBUF_SIZE bytes and at one more. -/
theorem witness_DeflateFillsCbufOrRaises :
    let s := loaded .eDeflate
    let plain : Bytes := [0x78]
    let full : Platform := { toy with deflate := fun _ _ => List.replicate 300 1 }
    let big : Platform := { toy with deflate := fun _ _ => List.replicate 301 1 }
    s.cbuf.wf innerBlank = true ∧ s.stage = Stage.eDeflate.code ∧ plain.length = s.ilen.toNat ∧ s.Holds ibufBase plain ∧
      (failing.Bounded ∧ failing.fails (s.draws + plain.length) = true) ∧
      (big.Bounded ∧ big.cbufSize < (big.deflate (s.draws + plain.length) plain).length) ∧
      (full.Bounded ∧ full.fails (s.draws + plain.length) = false ∧
        (full.deflate (s.draws + plain.length) plain).length ≤ full.cbufSize) :=
  ⟨by decide, by decide, by decide, by unfold State.Holds; decide, ⟨failing_bounded, by decide⟩,
    ⟨by constructor <;> decide, by change 300 < (List.replicate 301 (1 : Byte)).length; rw [List.length_replicate]; decide⟩,
    ⟨by constructor <;> decide, by decide, by change (List.replicate 300 (1 : Byte)).length ≤ 300; rw [List.length_replicate]⟩⟩

theorem witness_SaltIsDrawnOrRaises :
    let s := loaded .eSalt
    let short : Platform := { toy with rng := fun _ _ => List.replicate 15 0 }
    s.stage = Stage.eSalt.code ∧ failing.fails s.draws = true ∧ (short.rng s.draws 16).length ≠ 16 ∧
      toy.fails s.draws = false ∧ (toy.rng s.draws 16).length = 16 := by decide

theorem witness_EncodeDerivesItsKeys :
    let s := loaded .eKdf
    let pw : Bytes := [0x6B]
    let long : Platform := { toy with kdf := fun _ _ _ _ => List.replicate 67 0 }
    (s.stage = Stage.eKdf.code ∧ pw.length = s.pwlen.toNat ∧ s.Holds pbufBase pw) ∧
      failing.fails (s.draws + pw.length) = true ∧ (long.kdf pw s.salt.toList 1000 66).length ≠ 66 ∧
      toy.fails (s.draws + pw.length) = false ∧ (toy.kdf pw s.salt.toList 1000 66).length = 66 :=
  ⟨⟨by decide, by decide, by unfold State.Holds; decide⟩, by decide⟩

theorem witness_DecodeDerivesItsKeys :
    let s := (loaded .dKdf).putHost (ibufBase + 45) salt0
    let pw : Bytes := [0x6B]
    (s.stage = Stage.dKdf.code ∧ salt0.length = 16 ∧ s.Holds (ibufBase + 45) salt0 ∧ pw.length = s.pwlen.toNat ∧
      s.Holds pbufBase pw) ∧
      failing.fails (s.draws + 16 + pw.length) = true ∧
      toy.fails (s.draws + 16 + pw.length) = false ∧ (toy.kdf pw salt0 1000 66).length = 66 :=
  ⟨⟨by decide, by decide, by unfold State.Holds; decide, by decide, by unfold State.Holds; decide⟩, by decide⟩

/-- E_CIPHER at the first block, whole and alone, and D_CIPHER at the second of two, with one lane. -/
theorem witness_OneBlockOfTheCipher :
    (let s := { inStage .eCipher with clen := 16 }
     s.stage = Stage.eCipher.code ∧ s.cbuf.wf innerBlank = true ∧ 16 * s.bidx.toNat < s.clen.toNat ∧
       s.ctr ≠ BitVec.allOnes 64 ∧ failing.fails s.draws = true ∧ toy.fails s.draws = false) ∧
    (let s := { inStage .dCipher with clen := 17, bidx := 1, ctr := 1 }
     s.bidx ≠ 0 ∧ s.stage = Stage.dCipher.code ∧ s.cbuf.wf innerBlank = true ∧ 16 * s.bidx.toNat < s.clen.toNat ∧
       s.ctr ≠ BitVec.allOnes 64) := by decide

/-- No block, and two blocks. -/
theorem witness_CipherStageXorsTheKeystream :
    (∀ n : Fin 18,
      let s := { inStage .eCipher with clen := BitVec.ofNat 32 n.val }
      s.stage = Stage.eCipher.code ∧ s.ctr = 0 ∧ s.bidx = 0 ∧ s.cbuf.wf innerBlank = true) ∧
    ∀ j, toy.fails j = false := ⟨by decide, fun _ => rfl⟩

/-- One byte 0x41: the keystream's first byte is the counter's, 1. -/
theorem witness_DecryptionUndoesEncryption :
    let s := { inStage .eCipher with clen := 1, cbuf := [(0, 0x41)] }
    let t := (s.afterBlock toy).goto .eHmac
    let s' := { inStage .dCipher with clen := 1, mem := [(ibufBase + 63, 0x40)] }
    (∀ d, toy.fails d = false) ∧ s.stage = Stage.eCipher.code ∧ s.ctr = 0 ∧ s.bidx = 0 ∧ s.cbuf.wf innerBlank = true ∧
      s.engineSteps toy (cipherSteps s.clen.toNat) = .next t ∧ s'.stage = Stage.dCipher.code ∧ s'.ctr = 0 ∧ s'.bidx = 0 ∧
      s'.cbuf.wf innerBlank = true ∧ s'.akey = s.akey ∧ s'.clen = s.clen ∧ s'.Holds (ibufBase + 63) t.payload :=
  ⟨fun _ => rfl, by decide, by decide, by decide, by decide, by rfl, by decide, by decide, by decide, by decide, by decide,
    by decide, by unfold State.Holds; decide⟩

theorem witness_TagIsTakenOverTheCiphertext :
    let s := inStage .eHmac
    let short : Platform := { toy with hmac := fun _ _ => List.replicate 19 0 }
    s.stage = Stage.eHmac.code ∧ failing.fails s.draws = true ∧ (short.hmac s.hkey.toList s.payload).length ≠ 20 ∧
      toy.fails s.draws = false ∧ (toy.hmac s.hkey.toList s.payload).length = 20 := by decide

/-- No payload, and the longest. -/
theorem witness_EmitWritesTheContainer :
    toy.Bounded ∧ (inStage .eEmit).stage = Stage.eEmit.code ∧ (inStage .eEmit).clen.toNat ≤ toy.cbufSize ∧
      ({ inStage .eEmit with clen := 300 } : State).clen.toNat ≤ toy.cbufSize :=
  ⟨toy_bounded, by decide, by decide, by decide⟩

theorem witness_ContainerLayout :
    salt0.length = 16 ∧ ([0x05, 0xA9] : Bytes).length = 2 ∧ ([1, 2, 3, 4, 5, 6, 7, 8, 9, 10] : Bytes).length = 10 := by decide

/-- A container that meets every condition, ending with its local part, and one byte that does not. -/
theorem witness_FormatStageChecksTheContainer :
    (let z := containerE1.take 80
     let s := ({ inStage .dFormat with ilen := 80 } : State).putHost ibufBase z
     s.stage = Stage.dFormat.code ∧ z.length = s.ilen.toNat ∧ s.Holds ibufBase z ∧ 73 ≤ z.length ∧
       rd32 z 0 = 0x04034B50 ∧ rd16 z 8 = 99 ∧ rd16 z 28 = 11 ∧ rd16 z 34 = 0x9901 ∧ rd16 z 36 = 7 ∧ rd16 z 38 = 1 ∧
       byteAt z 40 = 0x41 ∧ byteAt z 41 = 0x45 ∧ byteAt z 42 = 3 ∧ 28 ≤ (rd32 z 18).toNat ∧
       73 + ((rd32 z 18).toNat - 28) = z.length) ∧
    (let z : Bytes := [0x78]
     let s := loaded .dFormat
     s.stage = Stage.dFormat.code ∧ z.length = s.ilen.toNat ∧ s.Holds ibufBase z) :=
  ⟨⟨by decide, by decide, State.putHost_holds _ _ _, by decide⟩, by decide, by decide, by unfold State.Holds; decide⟩

theorem witness_WrongPasswordIsRaisedOnMismatch :
    let s := { inStage .dPvv with mem := [(ibufBase + 61, 0x05), (ibufBase + 62, 0xA9)] }
    let s' := { inStage .dPvv with mem := [(ibufBase + 61, 0x00), (ibufBase + 62, 0x00)] }
    (s.stage = Stage.dPvv.code ∧ ([0x05, 0xA9] : Bytes).length = 2 ∧ s.Holds (ibufBase + 61) [0x05, 0xA9] ∧
      [0x05, 0xA9] ≠ s.pvv.toList) ∧
    (s'.Holds (ibufBase + 61) [0x00, 0x00] ∧ [0x00, 0x00] = s'.pvv.toList) :=
  ⟨⟨by decide, by decide, by unfold State.Holds; decide, by decide⟩, by unfold State.Holds; decide, by decide⟩

/-- Bypassed; failing; and verified, with a tag that matches and one that does not. -/
theorem witness_TagIsVerifiedUnlessBypassed :
    let s := { inStage .dTag with clen := 1 }.putHost (ibufBase + 63) (0x40 :: List.replicate 10 7)
    let w := { inStage .dTag with clen := 1 }.putHost (ibufBase + 63) (0x40 :: List.replicate 10 8)
    (s.stage = Stage.dTag.code ∧ ([0x40] : Bytes).length = s.clen.toNat ∧ s.Holds (ibufBase + 63) [0x40] ∧
      s.Holds (ibufBase + (63 + 1)) (List.replicate 10 7) ∧ w.Holds (ibufBase + 63) [0x40] ∧
      w.Holds (ibufBase + (63 + 1)) (List.replicate 10 8)) ∧
    (toy.testHook = true ∧ ({ s with tbyp := true } : State).tbyp = true) ∧
    (¬(toy.testHook = true ∧ s.tbyp = true) ∧ failing.fails (s.draws + 1) = true ∧ toy.fails (s.draws + 1) = false ∧
      (toy.hmac s.hkey.toList [0x40]).length = 20 ∧ (toy.hmac s.hkey.toList [0x40]).take 10 = List.replicate 10 7 ∧
      (toy.hmac w.hkey.toList [0x40]).take 10 ≠ List.replicate 10 8) :=
  ⟨⟨by decide, by decide, by unfold State.Holds; decide, by unfold State.Holds; decide, by unfold State.Holds; decide,
    by unfold State.Holds; decide⟩, by decide, by decide⟩

theorem witness_DecodeCopiesTheCiphertextFirst :
    let s := { inStage .dCipher with clen := 1, mem := [(ibufBase + 63, 0x40)] }
    s.stage = Stage.dCipher.code ∧ s.bidx = 0 ∧ s.cbuf.wf innerBlank = true ∧ ([0x40] : Bytes).length = s.clen.toNat ∧
      s.Holds (ibufBase + 63) [0x40] :=
  ⟨by decide, by decide, by decide, by decide, by unfold State.Holds; decide⟩

/-- The three clauses, at USZ = OBUF_SIZE + 1 and at USZ = OBUF_SIZE. -/
theorem witness_InflateFillsXbufOrRaises :
    let s := { inStage .dInflate with usz := 501 }
    let t := { inStage .dInflate with usz := 500 }
    let full : Platform := { toy with inflate := fun _ n => List.replicate n 1 }
    s.stage = Stage.dInflate.code ∧ s.xbuf.wf innerBlank = true ∧ t.stage = Stage.dInflate.code ∧
      t.xbuf.wf innerBlank = true ∧ toy.obufSize < s.usz.toNat ∧ t.usz.toNat ≤ failing.obufSize ∧
      failing.fails t.draws = true ∧ (toy.inflate t.payload t.usz.toNat).length ≠ t.usz.toNat ∧
      t.usz.toNat ≤ full.obufSize ∧ full.fails t.draws = false ∧
      (full.inflate t.payload t.usz.toNat).length = t.usz.toNat :=
  ⟨by decide, by decide, by decide, by decide, by decide, by decide, by decide, by decide, by decide, by decide,
    List.length_replicate⟩

theorem witness_PlaintextIsCheckedThenCommitted :
    (inStage .dCrc).stage = Stage.dCrc.code ∧ (inStage .dCommit).stage = Stage.dCommit.code ∧
      toy.crc (inStage .dCrc).inflated ≠ (inStage .dCrc).crcr := by decide

theorem witness_FinishReportsAndWipes : (inStage .finish).stage = Stage.finish.code := by decide

theorem witness_EachStageRaisesItsOwnKinds :
    let s := { loaded .dCheck with pwlen := 0 }
    s.raised = none ∧ s.engine toy = .next (s.raise .params) ∧ (s.raise .params).raised = some .params :=
  ⟨by decide, by rfl, by decide⟩

/-- A stage that writes no host buffer, and E_EMIT, which writes OBUF. -/
theorem witness_OnlyTwoStagesWriteTheHostBuffers :
    ((loaded .eCheck).engine toy = .next ((loaded .eCheck).goto .eCrc) ∧
      (loaded .eCheck).stage ≠ Stage.eEmit.code ∧ (loaded .eCheck).stage ≠ Stage.dCommit.code) ∧
    (inStage .eEmit).engine toy = .next ((inStage .eEmit).eEmit toy) :=
  ⟨⟨by rfl, by decide, by decide⟩, by rfl⟩

/-- A command that has just been dispatched, with one byte of input and one of password, is a good state of every instance. -/
theorem loaded_inv (p : Platform) (hp : p.Bounded) (st : Stage) (ts : List Turn) (hst : st = .eCheck ∨ st = .dCheck) :
    ({ loaded st with turns := ts } : State).Inv p := by
  obtain ⟨h1, h2, h3, h4, h5, h6, h7⟩ := hp
  have hmem : ∀ a v, (loaded st).mem.read? a = some v → inBuffers p a := by
    intro a v h
    simp only [loaded, Memory.read?, pbufBase, ibufBase] at h
    unfold inBuffers pbufBase ibufBase obufBase
    split at h
    · omega
    · split at h
      · omega
      · cases h
  have no : ∀ l, Stage.eCheck ∉ l → Stage.dCheck ∉ l → ¬({ loaded st with turns := ts } : State).stageIn l := by
    rintro l hl hl' ⟨x, hx, he⟩
    have he' : st.code = x.code := he
    rcases hst with rfl | rfl <;> cases x <;>
      first | exact absurd hx hl | exact absurd hx hl' | exact absurd he' (by decide)
  refine
    { memWf := show (loaded .eCheck).mem.wf hostBlank = true by decide
      memIn := hmem
      cbufWf := rfl
      cbufIn := by intro a v h; cases h
      xbufWf := rfl
      xbufIn := by intro a v h; cases h
      stageLegal := show st.code.toNat ≤ 18 by rcases hst with rfl | rfl <;> decide
      busyStage := show true = decide (st.code ≠ Stage.idle.code) by rcases hst with rfl | rfl <;> decide
      doneIdle := by intro h; cases h
      errLegal := Nat.zero_le 11
      errBusy := fun _ => rfl
      hookOff := fun _ => rfl
      idleWiped := by intro h; cases h
      raisedAtFinish := fun _ => rfl
      raisedKind := by intro h; cases h
      olenBusy := fun _ _ => rfl
      olenFits := Nat.zero_le _
      operands := fun h => absurd h (no _ (by decide) (by decide))
      cipherFresh := fun _ => ⟨rfl, rfl⟩
      cipherRuns := fun h => absurd h (no _ (by decide) (by decide))
      ctrBound := Nat.zero_le _
      packedFits := fun h => absurd h (no _ (by decide) (by decide))
      parsedFits := fun h => absurd h (no _ (by decide) (by decide))
      uszFits := fun h => absurd h (no _ (by decide) (by decide)) }

/-- Whether a command has ended, and its ERR. -/
def ended : Result → Option (Bool × BitVec 4)
  | .next t => some (t.busy, t.err)
  | .fault _ => none
  | .refused _ => none

theorem next_of_ended {r : Result} {b : Bool} {e : BitVec 4} (h : ended r = some (b, e)) :
    ∃ t, r = .next t ∧ t.busy = b ∧ t.err = e := by
  cases r with
  | next t => simp only [ended, Option.some.injEq, Prod.mk.injEq] at h; exact ⟨t, rfl, h⟩
  | fault _ => cases h
  | refused _ => cases h

/-- An ENCODE of one byte that succeeds (nine engine steps), and a DECODE of one byte that is no container (three). -/
theorem witness_CommandsArePrecise :
    toy.Bounded ∧ (loaded .eCheck).Inv toy ∧ (loaded .eCheck).busy = true ∧ (loaded .eCheck).stage = Stage.eCheck.code ∧
      (∃ t, (loaded .eCheck).engineSteps toy 9 = .next t ∧ t.busy = false ∧ t.err = 0) ∧
      (loaded .dCheck).Inv toy ∧ (loaded .dCheck).busy = true ∧ (loaded .dCheck).stage = Stage.dCheck.code ∧
      ∃ t, (loaded .dCheck).engineSteps toy 3 = .next t ∧ t.busy = false ∧ t.err = 7 :=
  ⟨toy_bounded, loaded_inv toy toy_bounded _ [] (.inl rfl), by decide, by decide, next_of_ended (by decide +kernel),
    loaded_inv toy toy_bounded _ [] (.inr rfl), by decide, by decide, next_of_ended (by decide)⟩

theorem witness_EveryCommandEnds :
    (loaded .eCheck).Inv Config.platform ∧ (loaded .eCheck).busy = true ∧ (loaded .eCheck).turns = [] :=
  ⟨loaded_inv _ Config.platform_bounded _ [] (.inl rfl), by decide, by decide⟩

theorem witness_EncodeMakesTheContainer :
    let s := loaded .eCheck
    let plain : Bytes := [0x78]
    let pw : Bytes := [0x6B]
    let salt := toy.rng (s.draws + 2 * plain.length + 1) 16
    let dk := toy.kdf pw salt 1000 66
    toy.Bounded ∧ (∀ d, toy.fails d = false) ∧ s.stage = Stage.eCheck.code ∧ s.cbuf.wf innerBlank = true ∧
      plain.length = s.ilen.toNat ∧ plain ≠ [] ∧ plain.length ≤ toy.ibufSize ∧ s.Holds ibufBase plain ∧
      pw.length = s.pwlen.toNat ∧ pw ≠ [] ∧ pw.length ≤ toy.pbufSize ∧ s.Holds pbufBase pw ∧
      (toy.deflate (s.draws + 2 * plain.length) plain).length ≤ toy.cbufSize ∧ salt.length = 16 ∧ dk.length = 66 ∧
      (toy.hmac ((dk.drop 32).take 32) (cipherBytes toy (dk.take 32) plain)).length = 20 :=
  ⟨toy_bounded, fun _ => rfl, by decide, by decide, by decide, by decide, by decide, by unfold State.Holds; decide, by decide,
    by decide, by decide, by unfold State.Holds; decide, by decide, by decide, by decide, by decide⟩

/-- The container ENCODE makes of the one byte "x" in the small instance. -/
def smallContainer : Bytes :=
  containerBytes toy (toy.crc [0x78]) 1 salt0 (List.replicate 2 0x5A) (cipherBytes toy (List.replicate 32 0x5A) [0x78])
    (List.replicate 10 7)

theorem smallContainer_length : smallContainer.length = 157 := (length_containerBytes _ _ _ _ _ _ _).trans (by decide)

theorem witness_DecodeRecoversThePlaintext :
    let s := ({ loaded .dCheck with ilen := 157 } : State).putHost ibufBase smallContainer
    let plain : Bytes := [0x78]
    let pw : Bytes := [0x6B]
    let dk := toy.kdf pw salt0 1000 66
    let body := cipherBytes toy (dk.take 32) plain
    let mac := toy.hmac ((dk.drop 32).take 32) body
    toy.Bounded ∧ (∀ d, toy.fails d = false) ∧ toy.inflate plain plain.length = plain ∧ plain.length ≤ toy.obufSize ∧
      salt0.length = 16 ∧ dk.length = 66 ∧ mac.length = 20 ∧ plain.length ≤ toy.cbufSize ∧
      smallContainer = containerBytes toy (toy.crc plain) plain.length salt0 (dk.drop 64) body (mac.take 10) ∧
      s.stage = Stage.dCheck.code ∧ s.cbuf.wf innerBlank = true ∧ s.xbuf.wf innerBlank = true ∧
      smallContainer.length = s.ilen.toNat ∧ smallContainer.length ≤ toy.ibufSize ∧ s.Holds ibufBase smallContainer ∧
      pw.length = s.pwlen.toNat ∧ pw ≠ [] ∧ pw.length ≤ toy.pbufSize ∧ s.Holds pbufBase pw :=
  ⟨toy_bounded, fun _ => rfl, by decide, by decide, by decide, by decide, by decide, by decide, by decide, by decide, by decide,
    by decide, smallContainer_length, smallContainer_length ▸ (by decide : 157 ≤ 256), State.putHost_holds _ _ _, by decide, by decide,
    by decide, State.Holds.putHost (by unfold State.Holds; decide) (.inl (by decide))⟩

/-- An access with BUSERR (the hole behind OLEN) and one without (OLEN), each the last or first of its range. -/
theorem witness_BusErrorExactly :
    ((BusOp.read 0x1C 4).size = 4 ∧ ¬((0x1C : Nat) + 4 ≤ 0x1C) ∧ ¬(0x1000 ≤ (0x1C : Nat)) ∧ ¬(0x1000000 ≤ (0x1C : Nat)) ∧
      ¬(0x2000000 ≤ (0x1C : Nat))) ∧
    ((BusOp.read 0x18 4).size = 4 ∧ (BusOp.read 0x18 4).addr.toNat + 4 ≤ 0x1C ∧ (BusOp.read 0x18 4).addr.toNat % 4 = 0 ∧
      (BusOp.read 0x18 4).isWrite = false ∧ State.reset.busy = false ∧
      State.reset.access (.read 0x18 4) =
        .next { State.reset with last := some { op := .read 0x18 4, okay := true, data := 0 } }) :=
  ⟨by decide, by decide, by decide, by decide, by decide, by decide, by rfl⟩

theorem witness_RegisterReadsReturnTheRegisters :
    State.reset.endBadCommand.err.toNat = 11 ∧ State.reset.endBadCommand.err.toNat ≤ 11 ∧ (inStage .eCrc).err.toNat ≤ 11 := by
  decide

theorem witness_RegisterWritesStoreTheirBits : State.reset.busy = false := by decide

/-- The first byte of PBUF, and the last byte of IBUF. -/
theorem witness_BufferWritesReadBack :
    State.reset.busy = false ∧ (0x1000 : Word).toNat % 1 = 0 ∧ (0x1000 : Word).toNat + 1 ≤ 0x1000 + Config.platform.pbufSize ∧
      (let a : Word := BitVec.ofNat 32 (0x1000000 + Config.platform.ibufSize - 1)
       a.toNat % 1 = 0 ∧ 0x1000000 ≤ a.toNat ∧ a.toNat + 1 = 0x1000000 + Config.platform.ibufSize) := by
  obtain ⟨h1, h2, h3, h4, h5, h6, h7⟩ := Config.platform_bounded
  refine ⟨by decide, by decide, by change 0x1000 + 1 ≤ _; omega, ?_⟩
  simp only [BitVec.toNat_ofNat]
  omega

/-- The first word of OBUF, the first byte of PBUF, the last byte of IBUF. -/
theorem witness_BufferReadsReturnTheBytes :
    State.reset.busy = false ∧ (0x2000000 : Word).toNat % 4 = 0 ∧
      (0x2000000 : Word).toNat + 4 ≤ 0x2000000 + Config.platform.obufSize ∧
      (0x1000 : Word).toNat + 1 ≤ 0x1000 + Config.platform.pbufSize ∧
      (let a : Word := BitVec.ofNat 32 (0x1000000 + Config.platform.ibufSize - 1)
       a.toNat % 1 = 0 ∧ 0x1000000 ≤ a.toNat ∧ a.toNat + 1 = 0x1000000 + Config.platform.ibufSize) := by
  obtain ⟨h1, h2, h3, h4, h5, h6, h7⟩ := Config.platform_bounded
  refine ⟨by decide, by decide, by change 0x2000000 + 4 ≤ _; omega, by change 0x1000 + 1 ≤ _; omega, ?_⟩
  simp only [BitVec.toNat_ofNat]
  omega

theorem witness_BusyBlockDropsWritesAndBufferReads :
    (inStage .eCrc).busy = true ∧ (BusOp.write 0 4 2).isWrite = true ∧ 0x1000 ≤ (BusOp.read 0x1000 1).addr.toNat := by decide

theorem witness_HiddenStateCannotBeRead :
    (inStage .eHmac).SameOutside { inStage .eHmac with akey := ByteReg.ofBytes 32 salt0, crcr := 1 } :=
  ⟨rfl, rfl, rfl, rfl, rfl, rfl, rfl, rfl, rfl, rfl, rfl, rfl, rfl⟩

/-- The four clauses with hypotheses, the codes 1, 2, 3 and 0xFF among them. -/
theorem witness_IrqFollowsDoneAndEnable :
    ((inStage .finish).stage = Stage.finish.code ∧ (inStage .finish).engine toy = .next (inStage .finish).finish) ∧
    (State.reset.busy = false ∧ 3 ≤ (opOf 3).toNat ∧ 3 ≤ (opOf 0xFF).toNat ∧
      exec (decodeCommand 3) State.reset = .next State.reset.endBadCommand) ∧
    ((opOf 1).toNat = 1 ∧ (opOf 2).toNat = 2 ∧ exec (decodeCommand 2) State.reset = .next (State.reset.startCommand .dCheck)) ∧
    ((2 : Word).getLsbD 1 = true ∧
      State.reset.access (.write 8 4 2) =
        .next { State.reset with last := some { op := .write 8 4 2, okay := true, data := 0 } }) :=
  ⟨⟨by decide, by rfl⟩, ⟨by decide, by decide, by decide, by rfl⟩, ⟨by decide, by decide, by rfl⟩, by decide, by rfl⟩

theorem witness_WaitDoneWaitsForTheCommand :
    (let s := { inStage .eCrc with host := waitDone, turns := [.host] }
     s.host = waitDone ++ [] ∧ s.turns = .host :: [] ∧ s.busy = true ∧ s.done = false) ∧
    (let s := { State.reset.endBadCommand with host := waitDone }
     s.host = waitDone ++ [] ∧ s.HostMoves [] ∧ s.busy = false ∧ s.done = true) :=
  ⟨⟨by rfl, by decide, by decide, by decide⟩, by rfl, .inr ⟨rfl, rfl, rfl⟩, by decide, by decide⟩

theorem witness_ResetClearsTheBlock :
    { inStage .dCipher with turns := [.reset false] }.turns = .reset false :: [] ∧
      { inStage .dCipher with turns := [.reset true] }.turns = .reset true :: [] := by decide

theorem witness_StepKeepsGoodStates :
    ({ loaded .eCheck with turns := [.stall] } : State).Inv Config.platform ∧
      step { loaded .eCheck with turns := [.stall] } = .next (loaded .eCheck) :=
  ⟨loaded_inv _ Config.platform_bounded _ _ (.inl rfl), by rfl⟩

theorem witness_GoodStatesNeverStop : (loaded .dCheck).Inv Config.platform :=
  loaded_inv _ Config.platform_bounded _ [] (.inr rfl)

end Sys2Proof.Tests
end

/-! PROOFS. Which accesses get BUSERR (44_host_access.md R240), and what the port answers to an access that gets none. -/

namespace Sys2Proof.Machine

/-! ### The resource of an address -/

/-- The holes of the address map (20_memory.md R61, R62). -/
theorem resourceOf_eq_none_iff (p : Platform) (a n : Nat) :
    resourceOf p a n = none ↔
      ¬(a + n ≤ 0x1C) ∧ ¬(0x1000 ≤ a ∧ a + n ≤ 0x1000 + p.pbufSize) ∧
        ¬(0x1000000 ≤ a ∧ a + n ≤ 0x1000000 + p.ibufSize) ∧ ¬(0x2000000 ≤ a ∧ a + n ≤ 0x2000000 + p.obufSize) := by
  simp only [resourceOf, ite_eq_iff, reduceCtorEq, and_false, false_or, and_true]
  rfl

/-- An access that one resource holds is to a register exactly below 0x100 and to a buffer exactly from 0x1000 on. -/
theorem address_of_resourceOf {p : Platform} (hp : p.Bounded) {a n : Nat} (hn : 1 ≤ n) {r : Resource}
    (h : resourceOf p a n = some r) :
    (r = .registers ↔ a < 0x100) ∧ (r ≠ .registers ↔ 0x1000 ≤ a) ∧ (r = .obuf ↔ 0x2000000 ≤ a) := by
  have hpbuf := hp.pbuf_le
  have hibuf := hp.ibuf_le
  have hrange := (resourceOf_iff p hp a n hn r).mp h
  cases r <;> simp at hrange ⊢ <;> omega

/-! ### The accesses that get BUSERR -/

/-- What a resource turns away: another width at a register, a write to OBUF, and while a command runs every write and every
access to a buffer (44_host_access.md R240). -/
theorem Resource.accepts_eq_false_iff (busy : Bool) (n : Nat) (isWrite : Bool) (r : Resource) :
    r.accepts busy n isWrite = false ↔
      (r = .registers ∧ n ≠ 4) ∨ (r = .obuf ∧ isWrite = true) ∨ (busy = true ∧ isWrite = true) ∨
        (busy = true ∧ r ≠ .registers) := by
  cases r <;> cases busy <;> simp [Resource.accepts, imp_iff_not_or]

theorem legalWidth_iff (n : Nat) : legalWidth n = true ↔ n = 1 ∨ n = 2 ∨ n = 4 := by
  simp [legalWidth, or_assoc]

/-- An access to a hole gets BUSERR (20_memory.md R62). -/
theorem State.busErr_hole {p : Platform} {s : State} {op : BusOp} (h : resourceOf p op.addr.toNat op.size = none) :
    s.busErr p op = true := by
  rw [State.busErr, h]

/-- An access of a legal width that one resource holds gets BUSERR when it is misaligned or the resource turns it away. -/
theorem State.busErr_resource_iff {p : Platform} {s : State} {op : BusOp} {r : Resource}
    (hn : op.size = 1 ∨ op.size = 2 ∨ op.size = 4) (h : resourceOf p op.addr.toNat op.size = some r) :
    s.busErr p op = true ↔
      op.addr.toNat % op.size ≠ 0 ∨ r.accepts s.busy op.size op.isWrite = false := by
  simp [State.busErr, h, (legalWidth_iff op.size).mpr hn, ← imp_iff_not_or]

/-- busErr(a, n, dir) of 44_host_access.md R240, for the widths the bus has. -/
theorem State.busErr_iff {p : Platform} (hp : p.Bounded) (s : State) {op : BusOp}
    (hn : op.size = 1 ∨ op.size = 2 ∨ op.size = 4) :
    s.busErr p op = true ↔
      resourceOf p op.addr.toNat op.size = none ∨ op.addr.toNat % op.size ≠ 0 ∨
        (op.addr.toNat < 0x100 ∧ op.size ≠ 4) ∨ (0x2000000 ≤ op.addr.toNat ∧ op.isWrite = true) ∨
        (s.busy = true ∧ op.isWrite = true) ∨ (s.busy = true ∧ 0x1000 ≤ op.addr.toNat) := by
  cases h : resourceOf p op.addr.toNat op.size with
  | none => simp [State.busErr_hole h]
  | some r =>
    obtain ⟨hreg, hbuf, hobuf⟩ := address_of_resourceOf hp (by omega) h
    rw [State.busErr_resource_iff hn h, Resource.accepts_eq_false_iff, hreg, hbuf, hobuf]
    simp

/-! ### The answer to the others -/

/-- A read with no BUSERR is answered OKAY. -/
theorem State.last_busRead {p : Platform} {s t : State} {op : BusOp} (h : s.busRead p op = .next t) :
    ∃ data, t.last = some { op := op, okay := true, data := data } := by
  rw [State.busRead] at h
  split at h
  · split at h
    · cases h
    · cases h
      exact ⟨_, rfl⟩
  · cases h
    exact ⟨_, rfl⟩

/-- A write with no BUSERR to another address than CMD's is answered OKAY, with data 0. -/
theorem State.last_busWrite (p : Platform) (s : State) (op : BusOp) (v : Word) :
    (s.busWrite p op v).last = some { op := op, okay := true, data := 0 } := by
  rw [State.busWrite]
  split <;> rfl

/-- An access with no BUSERR is answered OKAY. -/
theorem State.last_access_okay {s t : State} {op : BusOp} (hb : s.busErr Config.platform op = false)
    (h : s.access op = .next t) : ∃ data, t.last = some { op := op, okay := true, data := data } := by
  cases op with
  | read a n =>
    rw [State.access_read hb] at h
    exact State.last_busRead h
  | write a n v =>
    by_cases ha : a.toNat = 0
    · rw [State.access_cmd hb ha] at h
      exact ⟨0, last_execCommand h⟩
    · rw [State.access_write hb ha] at h
      cases h
      exact ⟨0, State.last_busWrite ..⟩

/-- Settles O47: the conditions of R240 are those of `State.busErr`; with it the port alone answers (R68), without it the answer
is OKAY. -/
theorem busErrorExactly : Obligations.BusErrorExactly := by
  intro s op hn p a n hole err
  have herr : s.busErr Config.platform op = true ↔ err := by
    rw [State.busErr_iff Config.platform_bounded s hn, resourceOf_eq_none_iff]
  constructor
  · intro h
    exact State.access_busErr (herr.mpr h)
  · intro h t ht
    exact State.last_access_okay (Bool.eq_false_iff.mpr (mt herr.mp h)) ht

end Sys2Proof.Machine

/-! PROOFS. Where every record and field of a container stands (30_encoding.md R94, R95, R99 to R104). -/

namespace Sys2Proof.Machine

/-! ### Strings that stand at an offset -/

/-- The bytes of `z` from offset `o` on begin with `bs`. -/
def StandsAt (z : Bytes) (o : Nat) (bs : Bytes) : Prop := bs <+: z.drop o

/-- A string stands at its own start. -/
theorem standsAt_self (z : Bytes) : StandsAt z 0 z := ⟨[], List.append_nil z⟩

/-- Of two joined strings, the second stands behind the first. -/
theorem standsAt_append {z xs ys : Bytes} {o : Nat} :
    StandsAt z o (xs ++ ys) ↔ StandsAt z o xs ∧ StandsAt z (o + xs.length) ys := by
  simp only [StandsAt, ← List.drop_drop]
  constructor
  · rintro ⟨rest, h⟩
    simp [← h]
  · rintro ⟨⟨_, h⟩, ⟨rest, h'⟩⟩
    rw [← h, List.drop_left] at h'
    exact ⟨rest, by rw [← h, ← h', List.append_assoc]⟩

/-- The slice at a string's offset, of its length, is the string. -/
theorem StandsAt.slice {z bs : Bytes} {o n : Nat} (h : StandsAt z o bs) (hn : bs.length = n) :
    (z.drop o).take n = bs := by
  obtain ⟨_, h⟩ := h
  rw [← h, List.take_left' hn]

/-- The half word at the offset of `le16 v` is `v`. -/
theorem StandsAt.rd16_eq {z : Bytes} {o : Nat} {v : BitVec 16} (h : StandsAt z o (le16 v)) : rd16 z o = v := by
  have hslice := rd16_slice z o 2 0 (Nat.le_refl _)
  rw [h.slice (length_le16 v)] at hslice
  exact hslice.symm.trans (rd16_le16 v [])

/-- The word at the offset of `le32 v` is `v`. -/
theorem StandsAt.rd32_eq {z : Bytes} {o : Nat} {v : BitVec 32} (h : StandsAt z o (le32 v)) : rd32 z o = v := by
  have hslice := rd32_slice z o 4 0 (Nat.le_refl _)
  rw [h.slice (length_le32 v)] at hslice
  exact hslice.symm.trans (rd32_le32 v [])

/-! ### The fields of each record -/

/-- The AE extra field, byte by byte (30_encoding.md R99). -/
theorem aeExtraBytes_eq :
    aeExtraBytes = [0x01, 0x99, 0x07, 0x00, 0x01, 0x00, 0x41, 0x45, 0x03, 0x08, 0x00] := by
  decide

section Fields

variable {p : Platform} {crc : BitVec 32} {n usize o : Nat} {z : Bytes}

/-- The fields both headers have, from the general purpose bit flag on (30_encoding.md R95, R101). -/
theorem sharedFields_fields (h : StandsAt z o (sharedFields p crc n usize)) :
    rd16 z o = 0x0001 ∧ rd16 z (o + 2) = 99 ∧ rd16 z (o + 4) = p.mtime ∧ rd16 z (o + 6) = p.mdate ∧
      rd32 z (o + 8) = crc ∧ rd32 z (o + 12) = BitVec.ofNat 32 (n + 28) ∧ rd32 z (o + 16) = BitVec.ofNat 32 usize ∧
      rd16 z (o + 20) = 4 ∧ rd16 z (o + 22) = 11 := by
  simp only [sharedFields, List.append_assoc, standsAt_append, length_le16, length_le32, Nat.add_assoc,
    Nat.reduceAdd] at h
  obtain ⟨hflag, hmethod, hmtime, hmdate, hcrc, hcsize, husize, hname, hextra⟩ := h
  exact ⟨hflag.rd16_eq, hmethod.rd16_eq, hmtime.rd16_eq, hmdate.rd16_eq, hcrc.rd32_eq, hcsize.rd32_eq,
    husize.rd32_eq, hname.rd16_eq, hextra.rd16_eq⟩

/-- The local file header's fields (30_encoding.md R95). -/
theorem lfhBytes_fields (h : StandsAt z o (lfhBytes p crc n usize)) :
    rd32 z o = 0x04034B50 ∧ rd16 z (o + 4) = 0x0033 ∧ rd16 z (o + 6) = 0x0001 ∧ rd16 z (o + 8) = 99 ∧
      rd16 z (o + 10) = p.mtime ∧ rd16 z (o + 12) = p.mdate ∧ rd32 z (o + 14) = crc ∧
      rd32 z (o + 18) = BitVec.ofNat 32 (n + 28) ∧ rd32 z (o + 22) = BitVec.ofNat 32 usize ∧
      rd16 z (o + 26) = 4 ∧ rd16 z (o + 28) = 11 := by
  simp only [lfhBytes, List.append_assoc, standsAt_append, length_le16, length_le32, Nat.add_assoc, Nat.reduceAdd] at h
  obtain ⟨hsig, hversion, hshared⟩ := h
  exact ⟨hsig.rd32_eq, hversion.rd16_eq, sharedFields_fields hshared⟩

/-- The central file header's fields, with its file name and its AE extra field (30_encoding.md R101, R102). -/
theorem cfhBytes_fields (h : StandsAt z o (cfhBytes p crc n usize)) :
    rd32 z o = 0x02014B50 ∧ rd16 z (o + 4) = 0x0033 ∧ rd16 z (o + 6) = 0x0033 ∧
      (rd16 z (o + 8) = 0x0001 ∧ rd16 z (o + 10) = 99 ∧ rd16 z (o + 12) = p.mtime ∧ rd16 z (o + 14) = p.mdate ∧
        rd32 z (o + 16) = crc ∧ rd32 z (o + 20) = BitVec.ofNat 32 (n + 28) ∧
        rd32 z (o + 24) = BitVec.ofNat 32 usize ∧ rd16 z (o + 28) = 4 ∧ rd16 z (o + 30) = 11) ∧
      rd16 z (o + 32) = 0 ∧ rd16 z (o + 34) = 0 ∧ rd16 z (o + 36) = 0 ∧ rd32 z (o + 38) = 0 ∧ rd32 z (o + 42) = 0 ∧
      (z.drop (o + 46)).take 4 = p.label.toList ∧ (z.drop (o + 50)).take 11 = aeExtraBytes := by
  simp only [cfhBytes, List.append_assoc, standsAt_append, length_le16, length_le32, length_sharedFields,
    ByteReg.length_toList, Nat.add_assoc, Nat.reduceAdd] at h
  obtain ⟨hsig, hmadeBy, hneeded, hshared, hcomment, hdisk, hattr, hexternal, hoffset, hname, hextra⟩ := h
  exact ⟨hsig.rd32_eq, hmadeBy.rd16_eq, hneeded.rd16_eq, sharedFields_fields hshared, hcomment.rd16_eq, hdisk.rd16_eq,
    hattr.rd16_eq, hexternal.rd32_eq, hoffset.rd32_eq, hname.slice (ByteReg.length_toList _),
    hextra.slice length_aeExtraBytes⟩

/-- The end record's fields (30_encoding.md R103, R104). -/
theorem eocdBytes_fields (h : StandsAt z o (eocdBytes n)) :
    rd32 z o = 0x06054B50 ∧ rd16 z (o + 4) = 0 ∧ rd16 z (o + 6) = 0 ∧ rd16 z (o + 8) = 1 ∧ rd16 z (o + 10) = 1 ∧
      rd32 z (o + 12) = 61 ∧ rd32 z (o + 16) = BitVec.ofNat 32 (n + 73) ∧ rd16 z (o + 20) = 0 := by
  simp only [eocdBytes, List.append_assoc, standsAt_append, length_le16, length_le32, Nat.add_assoc, Nat.reduceAdd] at h
  obtain ⟨hsig, hdisk, hcentralDisk, hhere, htotal, hsize, hoffset, hcomment⟩ := h
  exact ⟨hsig.rd32_eq, hdisk.rd16_eq, hcentralDisk.rd16_eq, hhere.rd16_eq, htotal.rd16_eq, hsize.rd32_eq,
    hoffset.rd32_eq, hcomment.rd16_eq⟩

end Fields

/-! ### The container -/

/-- The parts of a container, in the order of 30_encoding.md R94's table. -/
theorem containerBytes_parts {p : Platform} {crc : BitVec 32} {usize : Nat} {salt pvv cipher tag z : Bytes}
    (hsalt : salt.length = 16) (hpvv : pvv.length = 2) (htag : tag.length = 10)
    (h : StandsAt z 0 (containerBytes p crc usize salt pvv cipher tag)) :
    let n := cipher.length
    StandsAt z 0 (lfhBytes p crc n usize) ∧ StandsAt z 30 p.label.toList ∧ StandsAt z 34 aeExtraBytes ∧
      StandsAt z 45 salt ∧ StandsAt z 61 pvv ∧ StandsAt z 63 cipher ∧ StandsAt z (63 + n) tag ∧
      StandsAt z (73 + n) (cfhBytes p crc n usize) ∧ StandsAt z (134 + n) (eocdBytes n) := by
  simpa only [containerBytes, List.append_assoc, standsAt_append, length_lfhBytes, ByteReg.length_toList,
    length_aeExtraBytes, length_cfhBytes, hsalt, hpvv, htag, Nat.add_right_comm _ cipher.length, Nat.zero_add,
    Nat.reduceAdd] using h

/-- Settles O33: R94's table places the records, and each record's own table places its fields. -/
theorem containerLayout : Obligations.ContainerLayout := by
  intro p crc usize salt pvv cipher tag hsalt hpvv htag z n
  have hlength : z.length = n + 156 := by
    rw [length_containerBytes, hsalt, hpvv, htag]
    omega
  have hcontainer : StandsAt z 0 (containerBytes p crc usize salt pvv cipher tag) := standsAt_self z
  clear_value z
  obtain ⟨hlfh, hname, hextra, hsaltAt, hpvvAt, hcipher, htagAt, hcfh, heocd⟩ :=
    containerBytes_parts hsalt hpvv htag hcontainer
  have extra : (z.drop 34).take 11 = aeExtraBytes := hextra.slice length_aeExtraBytes
  have lfh := lfhBytes_fields hlfh
  have cfh := cfhBytes_fields hcfh
  have eocd := eocdBytes_fields heocd
  simp only [Nat.zero_add] at lfh
  simp only [Nat.add_right_comm _ cipher.length, Nat.reduceAdd, ← extra] at cfh eocd
  have fields := And.intro hlength <| And.intro lfh <| And.intro (hname.slice (ByteReg.length_toList _)) <|
    And.intro (extra.trans aeExtraBytes_eq) <| And.intro (hsaltAt.slice hsalt) <| And.intro (hpvvAt.slice hpvv) <|
    And.intro (hcipher.slice rfl) <| And.intro (htagAt.slice htag) <| And.intro cfh eocd
  simpa only [n, and_assoc] using fields

end Sys2Proof.Machine

/-! PROOFS. The counter block of the cipher, byte by byte (41_ctr_cipher.md R152). -/

namespace Sys2Proof.Machine

/-- A value's byte `i` by division: its bits from `8i` on, modulo 2^8 (00_scope.md R16). -/
theorem byteOf_eq_ofNat_div {w : Nat} (v : BitVec w) (i : Nat) : byteOf v i = BitVec.ofNat 8 (v.toNat / 2 ^ (8 * i)) := by
  rw [byteOf, BitVec.extractLsb', Nat.shiftRight_eq_div_pow]

/-- `le64` lists the value's bytes from the lowest up. -/
theorem byteAt_le64 (v : BitVec 64) {i : Nat} (hi : i < 8) : byteAt (le64 v) i = byteOf v i :=
  byteAt_map_range (byteOf v) 8 i hi

@[simp] theorem length_counterBlock (c : BitVec 64) : (counterBlock c).length = 16 := by
  rw [counterBlock, List.length_append, length_le64, List.length_replicate]

/-- The low half of the counter block is the counter, lowest byte first. -/
theorem byteAt_counterBlock_low (c : BitVec 64) {i : Nat} (hi : i < 8) : byteAt (counterBlock c) i = byteOf c i := by
  rw [counterBlock, byteAt_append_left (by simpa using hi), byteAt_le64 c hi]

/-- The high half of the counter block is zero. -/
theorem byteAt_counterBlock_high (c : BitVec 64) {i : Nat} (hlow : 8 ≤ i) (hi : i < 16) :
    byteAt (counterBlock c) i = 0 := by
  have hlane : i - (le64 c).length < 8 := by
    rw [length_le64]
    omega
  rw [counterBlock, byteAt_append_right (by simpa using hlow), byteAt, List.getD_replicate 0 hlane]

/-- Settles O27: the counter's bytes stand in the low half by `byteAt_counterBlock_low`, zeros in the high half; the rule's
example is evaluated. -/
theorem counterBlockIsLittleEndian : Obligations.CounterBlockIsLittleEndian := by
  refine ⟨fun c => ⟨length_counterBlock c, fun i hi => ?_, fun i => byteAt_counterBlock_high c⟩, by decide⟩
  rw [byteAt_counterBlock_low c hi, byteOf_eq_ofNat_div]

end Sys2Proof.Machine

/-! PROOFS. The container as E_EMIT writes it (42_encode.md R178, 30_encoding.md R94). -/

namespace Sys2Proof.Machine

/-! ### Writes one behind the other -/

/-- Storing two joined strings is storing the first and then the second behind it. -/
theorem Memory.putBytes_append (blank : Option Byte) (m : Memory) (a : Nat) (xs ys : Bytes) :
    m.putBytes blank a (xs ++ ys) = (m.putBytes blank a xs).putBytes blank (a + xs.length) ys := by
  induction xs generalizing m a with
  | nil => rfl
  | cons x xs ih =>
    rw [List.cons_append, Memory.putBytes, Memory.putBytes, ih, List.length_cons, Nat.add_assoc, Nat.add_comm 1]

/-- Writing two joined strings is writing the first and then the second behind it. -/
theorem State.putHost_append (s : State) (a : Nat) (xs ys : Bytes) :
    s.putHost a (xs ++ ys) = (s.putHost a xs).putHost (a + xs.length) ys := by
  simp only [State.putHost, Memory.putBytes_append]

/-! ### The container in two parts -/

/-- The local header with its file name and its AE extra field, as E_EMIT writes them: container bytes 0 to 44
(30_encoding.md R94). -/
def State.localHeader (p : Platform) (s : State) : Bytes :=
  lfhBytes p s.crcr s.clen.toNat s.ilen.toNat ++ p.label.toList ++ aeExtraBytes

/-- The payload, the central header and the end record, as E_EMIT writes them: the container from byte 45 on
(30_encoding.md R94). -/
def State.behindLocalHeader (p : Platform) (s : State) : Bytes :=
  s.salt.toList ++ s.pvv.toList ++ s.payload ++ s.tagc.toList ++
    cfhBytes p s.crcr s.clen.toNat s.ilen.toNat ++ eocdBytes s.clen.toNat

@[simp] theorem State.length_localHeader (p : Platform) (s : State) : (s.localHeader p).length = 45 := by
  simp [State.localHeader]

@[simp] theorem State.length_behindLocalHeader (p : Platform) (s : State) :
    (s.behindLocalHeader p).length = s.clen.toNat + 111 := by
  simp only [State.behindLocalHeader, List.length_append, ByteReg.length_toList, State.length_payload,
    length_cfhBytes, length_eocdBytes]
  omega

/-- The two parts, joined, are the container of the state. -/
theorem State.containerBytes_eq (p : Platform) (s : State) :
    containerBytes p s.crcr s.ilen.toNat s.salt.toList s.pvv.toList s.payload s.tagc.toList =
      s.localHeader p ++ s.behindLocalHeader p := by
  simp only [containerBytes, State.localHeader, State.behindLocalHeader, State.length_payload, List.append_assoc]

/-! ### E_EMIT -/

/-- E_EMIT's ten writes are three: the two parts of the container, and between them the central copy of the AE extra field, which
the second part writes again. -/
theorem State.emitAll_eq_parts (p : Platform) (s : State) :
    s.emitAll p =
      ((s.putHost obufBase (s.localHeader p)).putHost (obufBase + (73 + s.clen.toNat + 50)) aeExtraBytes).putHost
        (obufBase + 45) (s.behindLocalHeader p) := by
  rw [State.emitAll_eq]
  simp only [State.localHeader, State.behindLocalHeader, State.putHost_append, List.length_append, length_lfhBytes,
    length_cfhBytes, ByteReg.length_toList, State.length_payload, obufBase, ← Nat.add_assoc,
    Nat.add_right_comm _ s.clen.toNat, Nat.reduceAdd]

/-- After E_EMIT's writes OBUF holds the container: the other writes reach no byte of the local header, and what stands behind it
is written last. -/
theorem State.emitAll_holds (p : Platform) (s : State) :
    (s.emitAll p).Holds obufBase
      (containerBytes p s.crcr s.ilen.toNat s.salt.toList s.pvv.toList s.payload s.tagc.toList) := by
  rw [State.containerBytes_eq, State.emitAll_eq_parts, State.holds_append, State.length_localHeader]
  constructor
  · have hlocal := State.putHost_holds s obufBase (s.localHeader p)
    refine (hlocal.putHost ?_).putHost ?_
    · left
      rw [State.length_localHeader]
      omega
    · left
      rw [State.length_localHeader]
  · exact State.putHost_holds _ (obufBase + 45) (s.behindLocalHeader p)

/-- Outside the container's N + 156 bytes E_EMIT's writes leave the host buffers as they are. -/
theorem State.emitAll_read? (p : Platform) (s : State) (a : Nat)
    (h : a < obufBase ∨ obufBase + (s.clen.toNat + 156) ≤ a) : (s.emitAll p).mem.read? a = s.mem.read? a := by
  rw [State.emitAll_eq_parts, State.putHost_read? _ _ _ _ ?behind, State.putHost_read? _ _ _ _ ?central,
    State.putHost_read? _ _ _ _ ?header]
  case behind => rw [State.length_behindLocalHeader]; omega
  case central => rw [length_aeExtraBytes]; omega
  case header => rw [State.length_localHeader]; omega

/-- E_EMIT leaves the host buffers as its writes do. -/
theorem State.eEmit_mem (p : Platform) (s : State) : (s.eEmit p).mem = (s.emitAll p).mem := by
  rw [State.eEmit, State.succeed_mem, State.setOlen_mem]

/-- E_EMIT leaves the container's length in OLEN. -/
theorem State.eEmit_olen (p : Platform) (s : State) :
    (s.eEmit p).olen = BitVec.ofNat 32 (s.clen.toNat + 156) := by
  rw [State.eEmit, State.succeed_olen, State.setOlen_olen]

/-- E_EMIT changes the host buffers and OLEN, and goes to FINISH with success (42_encode.md R178). -/
theorem State.eEmit_only (p : Platform) (s : State) :
    s.eEmit p =
      { s with mem := (s.eEmit p).mem, olen := (s.eEmit p).olen, raised := none, stage := Stage.finish.code } := by
  obtain ⟨m, hm⟩ : ∃ m, s.emitAll p = { s with mem := m } := ⟨_, State.emitAll_only p s⟩
  rw [State.eEmit, hm]
  rfl

/-- Settles O32: the container's bytes and the frame are those of E_EMIT's writes; N + 156 fits OLEN by the bounds of R11. -/
theorem emitWritesTheContainer : Obligations.EmitWritesTheContainer := by
  intro p s hp hstage hlen
  have hstep : s.engine p = .next (s.eEmit p) := State.engine_of_stage hstage
  have holen : (s.eEmit p).olen.toNat = s.clen.toNat + 156 := by
    have hfits := hp.obuf_ge
    have hobuf := hp.obuf_le
    rw [State.eEmit_olen, BitVec.toNat_ofNat, Nat.mod_eq_of_lt (by omega)]
  have hholds := (State.emitAll_holds p s).of_mem (State.eEmit_mem p s)
  have hframe := State.emitAll_read? p s
  rw [← State.eEmit_mem] at hframe
  exact ⟨s.eEmit p, hstep, State.eEmit_only p s, holen, hholds, hframe⟩

end Sys2Proof.Machine

/-! PROOFS. The other stages of ENCODE: the operand check, the salt and the tag (42_encode.md R171, R174, R177). -/

namespace Sys2Proof.Machine

/-! ### The operand check -/

/-- When the operands are not in order (42_encode.md R171, 43_decode.md R201). -/
theorem State.operandsOk_eq_false_iff (p : Platform) (s : State) :
    s.operandsOk p = false ↔
      s.ilen = 0 ∨ s.pwlen = 0 ∨ p.ibufSize < s.ilen.toNat ∨ p.pbufSize < s.pwlen.toNat := by
  rw [← Bool.not_eq_true, State.operandsOk_iff]
  simp only [ne_eq, not_and_or, not_not, not_le]

/-- The first stage of either command is the operand check. -/
theorem State.engine_firstStage {p : Platform} {s : State} {first next : Stage}
    (hpair : (first = .eCheck ∧ next = .eCrc) ∨ (first = .dCheck ∧ next = .dFormat)) (hstage : s.stage = first.code) :
    s.engine p = .next (if s.operandsOk p then s.goto next else s.raise .params) := by
  rw [State.engine_of_stage hstage]
  obtain ⟨rfl, rfl⟩ | ⟨rfl, rfl⟩ := hpair
  · rfl
  · rfl

/-- Settles O21: the check fails exactly on R171's four conditions. -/
theorem firstStageChecksTheOperands : Obligations.FirstStageChecksTheOperands := by
  intro p s first next hpair hstage
  rw [State.engine_firstStage hpair hstage]
  simp only [← State.operandsOk_eq_false_iff]
  cases s.operandsOk p with
  | true => rfl
  | false => rfl

/-! ### The salt and the tag -/

/-- A provider's call is in order when it does not fail and its answer has the length asked for (00_scope.md R13). -/
theorem not_failed_or_ne_iff (failed : Bool) (m n : Nat) :
    ¬(failed = true ∨ m ≠ n) ↔ failed = false ∧ m = n := by
  rw [not_or, Bool.not_eq_true, not_not]

/-- Settles O24, by the two cases of E_SALT. -/
theorem saltIsDrawnOrRaises : Obligations.SaltIsDrawnOrRaises := by
  intro p s hstage r
  have hstep : s.engine p = .next (s.eSalt p) := State.engine_of_stage hstage
  rw [hstep]
  obtain ⟨hbad, heq⟩ | ⟨hok, heq⟩ := State.eSalt_cases p s
  · rw [heq]
    exact ⟨fun _ => rfl, fun hanswers hlen => absurd hbad ((not_failed_or_ne_iff ..).mpr ⟨hanswers, hlen⟩)⟩
  · rw [heq]
    exact ⟨fun hbad => absurd hbad ((not_failed_or_ne_iff ..).mpr hok),
      fun _ hlen => ⟨_, rfl, rfl, ByteReg.toList_ofBytes hlen⟩⟩

/-- Settles O31, by the two cases of E_HMAC. -/
theorem tagIsTakenOverTheCiphertext : Obligations.TagIsTakenOverTheCiphertext := by
  intro p s hstage r
  have hstep : s.engine p = .next (s.eHmac p) := State.engine_of_stage hstage
  rw [hstep]
  obtain ⟨hbad, heq⟩ | ⟨hok, heq⟩ := State.eHmac_cases p s
  · rw [heq]
    exact ⟨fun _ => rfl, fun hanswers hlen => absurd hbad ((not_failed_or_ne_iff ..).mpr ⟨hanswers, hlen⟩)⟩
  · rw [heq]
    exact ⟨fun hbad => absurd hbad ((not_failed_or_ne_iff ..).mpr hok),
      fun _ hlen => ⟨_, rfl, rfl, State.keepDigest_toList (s.drew 1) hlen⟩⟩

end Sys2Proof.Machine

/-! PROOFS. The last stages of DECODE: the inflated data, its check and its delivery (43_decode.md R209 to R212). -/

namespace Sys2Proof.Machine

/-! ### Inflating -/

/-- Storing a string at the front of XBUF leaves every byte behind it as it is. -/
theorem State.putXbuf_inner_of_le {s : State} (hw : s.xbuf.wf innerBlank = true) {r : Bytes} {k : Nat}
    (hk : r.length ≤ k) : (s.putXbuf 0 r).xbuf.inner k = s.xbuf.inner k := by
  rw [State.putXbuf_xbuf, Memory.inner_putBytes hw, if_neg (by omega)]

/-- Settles O38, by the three cases of D_INFLATE; each excludes the other two clauses. -/
theorem inflateFillsXbufOrRaises : Obligations.InflateFillsXbufOrRaises := by
  intro p s hstage hw r
  have hstep : s.engine p = .next (s.dInflate p) := State.engine_of_stage hstage
  rw [hstep]
  obtain ⟨hover, heq⟩ | ⟨hfits, hbad, heq⟩ | ⟨hfits, hok, heq⟩ := State.dInflate_cases p s
  · rw [heq]
    have hclash : ¬s.usz.toNat ≤ p.obufSize := Nat.not_le.mpr hover
    exact ⟨fun _ => rfl, fun hfits => absurd hfits hclash, fun hfits => absurd hfits hclash⟩
  · rw [heq]
    exact ⟨fun hover => absurd hfits (Nat.not_le.mpr hover), fun _ _ => rfl,
      fun _ hanswers hlen => absurd hbad ((not_failed_or_ne_iff ..).mpr ⟨hanswers, hlen⟩)⟩
  · rw [heq]
    refine ⟨fun hover => absurd hfits (Nat.not_le.mpr hover),
      fun _ hbad => absurd hbad ((not_failed_or_ne_iff ..).mpr hok), fun _ _ hlen => ?_⟩
    exact ⟨_, rfl, rfl, State.inflated_of_putBytes hw rfl hlen.symm, fun _ hk => State.putXbuf_inner_of_le hw hk⟩

/-! ### The check and the delivery -/

/-- D_COMMIT leaves the host buffers as its one write does. -/
theorem State.dCommit_mem (s : State) : s.dCommit.mem = (s.putHost obufBase s.inflated).mem := by
  rw [State.dCommit, State.succeed_mem, State.setOlen_mem]

/-- D_COMMIT changes the host buffers and OLEN, and goes to FINISH with success (43_decode.md R212). -/
theorem State.dCommit_only (s : State) :
    s.dCommit =
      { s with mem := s.dCommit.mem, olen := s.usz, raised := none, stage := Stage.finish.code } := rfl

/-- After D_COMMIT the inflated data stands in OBUF. -/
theorem State.dCommit_holds (s : State) : s.dCommit.Holds obufBase s.inflated :=
  (State.putHost_holds s obufBase s.inflated).of_mem s.dCommit_mem

/-- Outside `OBUF[0..USZ)` D_COMMIT leaves the host buffers as they are. -/
theorem State.dCommit_read? (s : State) (a : Nat) (h : a < obufBase ∨ obufBase + s.usz.toNat ≤ a) :
    s.dCommit.mem.read? a = s.mem.read? a := by
  rw [State.dCommit_mem]
  exact State.putHost_read? s obufBase s.inflated a (by rwa [State.length_inflated])

/-- Settles O39: D_CRC by its two cases, D_COMMIT by its one write and the frame of that write. -/
theorem plaintextIsCheckedThenCommitted : Obligations.PlaintextIsCheckedThenCommitted := by
  intro p s
  constructor
  · intro hstage
    have hstep : s.engine p = .next (s.dCrc p) := State.engine_of_stage hstage
    rw [hstep]
    obtain ⟨hcrc, heq⟩ | ⟨hcrc, heq⟩ := State.dCrc_cases p s
    · rw [heq, if_pos hcrc]
      rfl
    · rw [heq, if_neg hcrc]
      rfl
  · intro hstage
    have hstep : s.engine p = .next s.dCommit := State.engine_of_stage hstage
    exact ⟨s.dCommit, hstep, s.dCommit_only, s.dCommit_holds, s.dCommit_read?⟩

end Sys2Proof.Machine

/-! PROOFS. The dispatch of a CMD write (44_host_access.md R246 to R248). -/

namespace Sys2Proof.Machine

/-! ### The command rows -/

/-- On an idle block a dispatch does what the command starts with. -/
theorem State.dispatch_idle {s : State} (h : s.busy = false) (start : State → State) :
    s.dispatch start = .next (start s) := by
  rw [State.dispatch, h]
  rfl

/-- NOP leaves every state, idle or not, as it is. -/
theorem exec_nop (junk : BitVec 24) (s : State) : exec (.nop junk) s = .next s := by
  show Host.Outcome.next (if s.busy then s else s) = .next s
  rw [ite_self]

/-- ENCODE on an idle block. -/
theorem exec_encode_idle {s : State} (h : s.busy = false) (junk : BitVec 24) :
    exec (.encode junk) s = .next (s.startCommand .eCheck) :=
  State.dispatch_idle h fun s => s.startCommand .eCheck

/-- DECODE on an idle block. -/
theorem exec_decode_idle {s : State} (h : s.busy = false) (junk : BitVec 24) :
    exec (.decode junk) s = .next (s.startCommand .dCheck) :=
  State.dispatch_idle h fun s => s.startCommand .dCheck

/-- A word whose code is a reserved one ends at once with BadCommand, whichever reserved row covers it (R247). -/
theorem exec_decodeCommand_reserved {v : Word} (h : 3 ≤ (opOf v).toNat) (s : State) :
    exec (decodeCommand v) s = s.dispatch State.endBadCommand := by
  have h0 : ¬(opOf v).toNat = 0x00 := by omega
  have h1 : ¬(opOf v).toNat = 0x01 := by omega
  have h2 : ¬(opOf v).toNat = 0x02 := by omega
  simp only [decodeCommand, if_neg h0, if_neg h1, if_neg h2]
  split_ifs <;> rfl

/-- What a command word does on an idle block depends on bits 7:0 alone (R246). -/
theorem exec_decodeCommand_idle {s : State} (hb : s.busy = false) (v : Word) :
    exec (decodeCommand v) s = .next
      (if opOf v = 0x00 then s
       else if opOf v = 0x01 then s.startCommand .eCheck
       else if opOf v = 0x02 then s.startCommand .dCheck
       else s.endBadCommand) := by
  by_cases h0 : opOf v = 0x00
  · have hd : decodeCommand v = .nop (junkOf v) := by simp [decodeCommand, h0]
    rw [hd, exec_nop, if_pos h0]
  by_cases h1 : opOf v = 0x01
  · have hd : decodeCommand v = .encode (junkOf v) := by simp [decodeCommand, h1]
    rw [hd, exec_encode_idle hb, if_neg h0, if_pos h1]
  by_cases h2 : opOf v = 0x02
  · have hd : decodeCommand v = .decode (junkOf v) := by simp [decodeCommand, h2]
    rw [hd, exec_decode_idle hb, if_neg h0, if_neg h1, if_pos h2]
  · have hres : 3 ≤ (opOf v).toNat := by bv_omega
    rw [exec_decodeCommand_reserved hres, State.dispatch_idle hb, if_neg h0, if_neg h1, if_neg h2]

/-- Settles O5. -/
theorem nopChangesNothing : Obligations.NopChangesNothing :=
  ⟨exec_nop, by decide⟩

/-- Settles O8: the arm of every reserved row is the same dispatch. -/
theorem reservedCommandsEndAtOnce : Obligations.ReservedCommandsEndAtOnce := by
  intro op junk s hb t
  have hend : s.dispatch State.endBadCommand = .next t := State.dispatch_idle hb _
  have hstatus : t.statusWord = 0x2 := by
    show bit s.busy ||| (bit true <<< 1) = 0x2
    rw [hb]
    decide
  exact ⟨hend, hend, hend, hend, hend, hend, hend, hstatus, rfl⟩

/-! ### The CMD write as a step -/

/-- A write to a register gets BUSERR exactly while a command runs (44_host_access.md R240). -/
theorem State.busErr_registerWrite (p : Platform) (s : State) {a : Word} (hwindow : a.toNat + 4 ≤ 0x1C)
    (hal : a.toNat % 4 = 0) (v : Word) : s.busErr p (.write a 4 v) = s.busy := by
  have herr : s.busErr p (.write a 4 v) = (s.busy && true) := State.busErr_register hwindow hal rfl
  rw [herr, Bool.and_true]

/-- Settles O10: the host's turn is one access to CMD, which the idle block runs and the busy block answers with BUSERR. -/
theorem cmdWriteDispatchesByItsCode : Obligations.CmdWriteDispatchesByItsCode := by
  intro s ts v rest hmoves hhost
  have hstep : step s = ((s.setTurns ts).setHost rest).access (.write 0 4 v) := by
    rw [step_host hmoves]
    exact State.hostTurn_bus hhost
  have herr : ((s.setTurns ts).setHost rest).busErr Config.platform (.write 0 4 v) = s.busy :=
    State.busErr_registerWrite _ _ (by decide) (by decide) v
  constructor
  · intro hb u
    rw [hstep, State.access_cmd (herr.trans hb) rfl]
    exact exec_decodeCommand_idle (s := u) hb v
  · intro hb
    rw [hstep, State.access_busErr (herr.trans hb)]
    rfl

end Sys2Proof.Machine

/-! PROOFS. The host's writes to the registers and its accesses to the buffers on an idle block (44_host_access.md R242 to R245). -/

namespace Sys2Proof.Machine

/-! ### Register writes -/

/-- A write to a register other than CMD on an idle block stores what the register takes and is answered OKAY. -/
theorem State.access_writeRegister {s : State} (hb : s.busy = false) {a : Word}
    (ha : 0 < a.toNat ∧ a.toNat + 4 ≤ 0x1C ∧ a.toNat % 4 = 0) (v : Word) :
    s.access (.write a 4 v) =
      .next ((s.writeRegister Config.platform a.toNat v).respond (.write a 4 v) true 0) := by
  obtain ⟨hcmd, hwindow, hal⟩ := ha
  have herr : s.busErr Config.platform (.write a 4 v) = false :=
    (State.busErr_registerWrite _ s hwindow hal v).trans hb
  have hr : resourceOf Config.platform a.toNat 4 = some .registers := by rw [resourceOf, if_pos hwindow]
  rw [State.access_write herr hcmd.ne', State.busWrite, BusOp.addr, BusOp.size, hr]

/-- A write to STATUS is a write to DONE: bit 1 clears it (R249). -/
theorem State.writeStatus_eq (s : State) (v : Word) :
    s.writeStatus v = { s with done := if v.getLsbD 1 = true then false else s.done } := by
  rw [State.writeStatus]
  split <;> rfl

/-- Settles O50: each register's write is the port's answer and what `State.writeRegister` stores; STATUS alone stores by a
condition. -/
theorem registerWritesStoreTheirBits : Obligations.RegisterWritesStoreTheirBits := by
  intro s v hb p okay
  have hstatus : s.access (.write 0x08 4 v) = .next ((s.writeStatus v).respond (.write 0x08 4 v) true 0) :=
    State.access_writeRegister hb (by decide) v
  rw [State.writeStatus_eq] at hstatus
  exact ⟨State.access_writeRegister hb (by decide) v, hstatus, State.access_writeRegister hb (by decide) v,
    State.access_writeRegister hb (by decide) v, State.access_writeRegister hb (by decide) v,
    State.access_writeRegister hb (by decide) v⟩

end Sys2Proof.Machine

namespace Sys2Proof

/-! ### Bytes as a number -/

/-- The value of byte `i` of a word. -/
theorem toNat_byteOf {w : Nat} (v : BitVec w) (i : Nat) : (byteOf v i).toNat = v.toNat / 2 ^ (8 * i) % 2 ^ 8 := by
  rw [byteOf, BitVec.extractLsb'_toNat, Nat.shiftRight_eq_div_pow]

/-- The bytes of `le32`. -/
theorem byteAt_le32 (v : BitVec 32) {k : Nat} (hk : k < 4) : byteAt (le32 v) k = byteOf v k := by
  interval_cases k <;> rfl

/-- Past its end a byte string reads as 0x00. -/
theorem byteAt_eq_zero {bs : Bytes} {k : Nat} (h : bs.length ≤ k) : byteAt bs k = 0 := by
  rw [byteAt, List.getD_eq_default _ _ h]

/-- A concatenation as a number. -/
theorem toNat_append_eq_add {m n : Nat} (x : BitVec m) (y : BitVec n) :
    (x ++ y).toNat = x.toNat * 2 ^ n + y.toNat := by
  rw [BitVec.toNat_append, ← Nat.shiftLeft_add_eq_or_of_lt y.isLt, Nat.shiftLeft_eq]

/-- `rd32` as a number: four bytes, the lowest first (00_scope.md R16). -/
theorem toNat_rd32 (bs : Bytes) (o : Nat) :
    (rd32 bs o).toNat = ((List.range 4).map fun k => (byteAt bs (o + k)).toNat * 2 ^ (8 * k)).sum := by
  simp only [rd32, toNat_append_eq_add, List.range_succ, List.range_zero, List.map_append, List.sum_append,
    List.nil_append, List.map_nil, List.map_cons, List.sum_nil, List.sum_cons, Nat.add_zero]
  omega

/-- Terms that are 0 from `n` on leave a sum. -/
theorem sum_range_of_zero_from {f : Nat → Nat} {n m : Nat} (hnm : n ≤ m) (hf : ∀ k, n ≤ k → f k = 0) :
    ((List.range m).map f).sum = ((List.range n).map f).sum := by
  obtain ⟨d, rfl⟩ := Nat.exists_eq_add_of_le hnm
  have htail : (((List.range d).map (n + ·)).map f).sum = 0 := by
    refine List.sum_eq_zero fun x hx => ?_
    obtain ⟨k, -, rfl⟩ := by simpa using hx
    exact hf _ (Nat.le_add_right n k)
  rw [List.range_add, List.map_append, List.sum_append, htail, Nat.add_zero]

/-- The low `n` bytes of a number add up to the number without the bits above them. -/
theorem sum_bytes_eq_mod (x n : Nat) :
    ((List.range n).map fun k => x / 2 ^ (8 * k) % 2 ^ 8 * 2 ^ (8 * k)).sum = x % 2 ^ (8 * n) := by
  induction n with
  | zero => simp [Nat.mod_one]
  | succ n ih =>
    rw [List.range_succ, List.map_append, List.sum_append, ih, Nat.mul_succ, Nat.pow_add, Nat.mod_mul,
      Nat.mul_comm (2 ^ (8 * n))]
    simp

end Sys2Proof

namespace Sys2Proof.Machine

/-- The data word of up to four bytes: zero-extended, the lowest address lowest (44_host_access.md R244). -/
theorem wordOfBytes_eq {bs : Bytes} (h : bs.length ≤ 4) :
    wordOfBytes bs =
      BitVec.ofNat 32 ((List.range bs.length).map fun k => (byteAt bs k).toNat * 2 ^ (8 * k)).sum := by
  have hzero (k : Nat) (hk : bs.length ≤ k) : (byteAt bs k).toNat * 2 ^ (8 * k) = 0 := by
    rw [byteAt_eq_zero hk]
    exact Nat.zero_mul _
  calc wordOfBytes bs = BitVec.ofNat 32 (rd32 bs 0).toNat := by rw [BitVec.ofNat_toNat, BitVec.setWidth_eq, wordOfBytes]
    _ = _ := by simp only [toNat_rd32, Nat.zero_add, sum_range_of_zero_from h hzero]

theorem length_bytesOfWord (v : Word) {n : Nat} (hn : n ≤ 4) : (bytesOfWord v n).length = n := by
  rw [bytesOfWord, List.length_take]
  exact Nat.min_eq_left hn

/-- The low bytes of a word, read back as a word, are its low bits. -/
theorem wordOfBytes_bytesOfWord (v : Word) {n : Nat} (hn : n ≤ 4) :
    wordOfBytes (bytesOfWord v n) = BitVec.ofNat 32 (v.toNat % 2 ^ (8 * n)) := by
  have hlen := length_bytesOfWord v hn
  have hbyte (k : Nat) (hk : k < n) : (byteAt (bytesOfWord v n) k).toNat = v.toNat / 2 ^ (8 * k) % 2 ^ 8 := by
    have hslice : byteAt (bytesOfWord v n) k = byteAt (le32 v) (0 + k) := byteAt_slice (le32 v) 0 n k hk
    rw [hslice, Nat.zero_add, byteAt_le32 v (by omega), toNat_byteOf]
  rw [wordOfBytes_eq (by omega), hlen, ← sum_bytes_eq_mod]
  refine congrArg (fun l => BitVec.ofNat 32 (List.sum l)) (List.map_congr_left fun k hk => ?_)
  rw [hbyte k (List.mem_range.mp hk)]

/-! ### Buffer accesses -/

/-- A buffer read on an idle block. -/
theorem State.access_readBuffer {s : State} (hb : s.busy = false) {a : Word} {n : Nat} {r : Resource}
    (hr : resourceOf Config.platform a.toNat n = some r) (hreg : r ≠ .registers) (hal : a.toNat % n = 0)
    (hn : n = 1 ∨ n = 2 ∨ n = 4) :
    s.access (.read a n) = .next (s.readBuffer Config.platform (.read a n)) := by
  have herr : s.busErr Config.platform (.read a n) = (decide (r = .obuf) && false) :=
    State.busErr_buffer hr hreg hal hn hb
  rw [Bool.and_false] at herr
  rw [State.access_read herr, State.busRead, BusOp.addr, BusOp.size, hr]
  cases r with
  | registers => exact absurd rfl hreg
  | pbuf | ibuf | obuf => rfl

/-- A write to PBUF or IBUF on an idle block. -/
theorem State.access_writeBuffer {s : State} (hb : s.busy = false) {a : Word} {n : Nat} {r : Resource}
    (hr : resourceOf Config.platform a.toNat n = some r) (hin : r = .pbuf ∨ r = .ibuf) (hal : a.toNat % n = 0)
    (hn : n = 1 ∨ n = 2 ∨ n = 4) (v : Word) :
    s.access (.write a n v) = .next (s.writeBuffer (.write a n v) v) := by
  have hreg : r ≠ .registers := by rcases hin with rfl | rfl <;> decide
  have hobuf : r ≠ .obuf := by rcases hin with rfl | rfl <;> decide
  have herr : s.busErr Config.platform (.write a n v) = (decide (r = .obuf) && true) :=
    State.busErr_buffer hr hreg hal hn hb
  rw [decide_eq_false hobuf, Bool.false_and] at herr
  have hcmd : a.toNat ≠ 0 := by
    have := (address_of_resourceOf Config.platform_bounded (by omega) hr).2.1.mp hreg
    omega
  rw [State.access_write herr hcmd, State.busWrite, BusOp.addr, BusOp.size, hr]
  rcases hin with rfl | rfl <;> rfl

/-- What a buffer write stores is held. -/
theorem State.writeBuffer_holds (s : State) (a : Word) (n : Nat) (v : Word) :
    (s.writeBuffer (.write a n v) v).Holds a.toNat (bytesOfWord v n) :=
  (State.putHost_holds s a.toNat (bytesOfWord v n)).of_mem rfl

/-- Outside its bytes a buffer write leaves the host buffers as they are. -/
theorem State.writeBuffer_read? (s : State) (a : Word) {n : Nat} (hn : n ≤ 4) (v : Word) {b : Nat}
    (hb : b < a.toNat ∨ a.toNat + n ≤ b) :
    (s.writeBuffer (.write a n v) v).mem.read? b = s.mem.read? b :=
  State.putHost_read? s a.toNat (bytesOfWord v n) b (by rwa [length_bytesOfWord v hn])

/-- A buffer read of a held string of up to four bytes is answered with that string, whatever the draws. -/
theorem State.last_readBuffer_of_holds {p : Platform} {s : State} {a : Word} {bs : Bytes} (h : s.Holds a.toNat bs) :
    (s.readBuffer p (.read a bs.length)).last =
      some { op := .read a bs.length, okay := true, data := wordOfBytes bs } := by
  have hread : s.bytesAt p a.toNat bs.length = bs := State.bytesAt_of_holds h
  show some (Access.mk _ true (wordOfBytes (s.bytesAt p a.toNat bs.length))) = _
  rw [hread]

/-- Settles O51: what was written is held at its address, so the read gives it whatever the draws. -/
theorem bufferWritesReadBack : Obligations.BufferWritesReadBack := by
  intro s a n v hb hn hal hrange
  obtain ⟨r, hin, hr⟩ : ∃ r, (r = .pbuf ∨ r = .ibuf) ∧ resourceOf Config.platform a.toNat n = some r := by
    have hiff := resourceOf_iff Config.platform Config.platform_bounded a.toNat n (by omega)
    obtain h | h := hrange
    · exact ⟨.pbuf, .inl rfl, (hiff .pbuf).mpr h⟩
    · exact ⟨.ibuf, .inr rfl, (hiff .ibuf).mpr h⟩
  have hreg : r ≠ .registers := by rcases hin with rfl | rfl <;> decide
  have hn4 : n ≤ 4 := by omega
  let t := s.writeBuffer (.write a n v) v
  have hholds : t.Holds a.toNat (bytesOfWord v n) := State.writeBuffer_holds s a n v
  have hread : t.access (.read a n) = .next (t.readBuffer Config.platform (.read a n)) :=
    State.access_readBuffer (s := t) hb hr hreg hal hn
  have hlast := State.last_readBuffer_of_holds (p := Config.platform) hholds
  rw [length_bytesOfWord v hn4, wordOfBytes_bytesOfWord v hn4] at hlast
  exact ⟨t, State.access_writeBuffer hb hr hin hal hn v, rfl, hholds,
    fun _ hout => State.writeBuffer_read? s a hn4 v hout, _, hread, hlast, rfl⟩

/-- Settles O52: the data word is the sum of the bytes read, each at its place. -/
theorem bufferReadsReturnTheBytes : Obligations.BufferReadsReturnTheBytes := by
  intro s a n hb hn hal hrange byte
  obtain ⟨r, hreg, hr⟩ : ∃ r, r ≠ .registers ∧ resourceOf Config.platform a.toNat n = some r := by
    have hiff := resourceOf_iff Config.platform Config.platform_bounded a.toNat n (by omega)
    obtain h | h | h := hrange
    · exact ⟨.pbuf, by decide, (hiff .pbuf).mpr h⟩
    · exact ⟨.ibuf, by decide, (hiff .ibuf).mpr h⟩
    · exact ⟨.obuf, by decide, (hiff .obuf).mpr h⟩
  have hdata : wordOfBytes (s.bytesAt Config.platform a.toNat n) =
      BitVec.ofNat 32 ((List.range n).map fun k => byte k * 2 ^ (8 * k)).sum := by
    rw [wordOfBytes_eq (by rw [State.length_bytesAt]; omega), State.length_bytesAt]
    refine congrArg (fun l => BitVec.ofNat 32 (List.sum l)) (List.map_congr_left fun k hk => ?_)
    rw [State.byteAt_bytesAt _ _ _ _ _ (List.mem_range.mp hk)]
    rfl
  rw [State.access_readBuffer hb hr hreg hal hn, ← hdata]
  rfl

end Sys2Proof.Machine

/-! PROOFS. A command from its dispatch to its end: what each of its engine steps leaves of what the host sees, and what FINISH
reports (60_exceptions.md R262, R266). -/

namespace Sys2Proof.Machine

/-! ### What the host sees while a command runs -/

/-- The host's view without DONE, ERR and OLEN: the part a command that fails leaves as it was (60_exceptions.md R266), and BUSY. -/
structure HostView where
  tbyp : Bool
  ie : Bool
  busy : Bool
  ilen : Word
  pwlen : Word
  mem : Memory

/-- The host's view of a state. -/
def State.hostView (s : State) : HostView :=
  { tbyp := s.tbyp, ie := s.ie, busy := s.busy, ilen := s.ilen, pwlen := s.pwlen, mem := s.mem }

/-- A stage that does a command's work: neither IDLE nor FINISH. -/
abbrev Stage.Works (st : Stage) : Prop := st ≠ .idle ∧ st ≠ .finish

/-- What FINISH finds after a command dispatched in `s`: a raised kind and the host's view of `s`, or no kind and a view that differs
in `OBUF[0..OLEN)` alone. -/
inductive State.Concluded (s t : State) : Prop where
  | failed (k : ErrKind) (hraised : t.raised = some k) (hview : t.hostView = s.hostView)
  | succeeded (hraised : t.raised = none) (hview : t.hostView = { s.hostView with mem := t.mem })
      (hmem : ∀ a, a < obufBase ∨ obufBase + t.olen.toNat ≤ a → t.mem.read? a = s.mem.read? a)

/-- Where a command dispatched in `s` can be: at a working stage with the host's view unchanged (and a payload that fits CBUF once
there is one, which keeps E_EMIT's OLEN from wrapping), before FINISH, or behind it. -/
inductive State.Phase (p : Platform) (s : State) : State → Prop where
  | working {t : State} (st : Stage) (hst : st.Works) (hstage : t.stage = st.code) (hview : t.hostView = s.hostView)
      (hfits : st ∈ packedStages → t.clen.toNat ≤ p.cbufSize) : State.Phase p s t
  | concluded {t : State} (hstage : t.stage = Stage.finish.code) (hend : s.Concluded t) : State.Phase p s t
  | ended {t : State} (hend : s.Concluded t) : State.Phase p s t.finish

/-- Away from the stages of ENCODE at which CLEN is the payload's length, nothing is asked of it (42_encode.md R173). -/
theorem Stage.not_packed {st : Stage} {P : Prop} (hst : st ∉ packedStages := by decide) : st ∈ packedStages → P :=
  fun hpacked => absurd hpacked hst

section Phases

variable {p : Platform} {s t : State}

/-- How a command ends depends on the host's view of the state it started from, and on nothing else of that state. -/
theorem State.Concluded.of_view {u : State} (h : u.Concluded t) (hview : u.hostView = s.hostView) : s.Concluded t := by
  obtain ⟨k, hraised, hview'⟩ | ⟨hraised, hview', hmem⟩ := h
  · exact .failed k hraised (hview'.trans hview)
  · refine .succeeded hraised (by rw [hview', hview]) fun a ha => (hmem a ha).trans ?_
    exact congrArg (fun v : HostView => v.mem.read? a) hview

/-- Where a command is depends on the host's view of the state it started from, and on nothing else of that state. -/
theorem State.Phase.of_view {u : State} (h : u.Phase p t) (hview : u.hostView = s.hostView) : s.Phase p t := by
  cases h with
  | working st hst hstage hview' hfits => exact .working st hst hstage (hview'.trans hview) hfits
  | concluded hstage hend => exact .concluded hstage (hend.of_view hview)
  | ended hend => exact .ended (hend.of_view hview)

/-- `raise` concludes a command. -/
theorem State.Phase.raise (k : ErrKind) (hview : t.hostView = s.hostView) : s.Phase p (t.raise k) :=
  .concluded rfl (.failed k rfl hview)

/-- Going on to a working stage, with a payload that fits CBUF where the stage has one. -/
theorem State.Phase.goto (st : Stage) (hview : t.hostView = s.hostView)
    (hfits : st ∈ packedStages → t.clen.toNat ≤ p.cbufSize) (hst : st.Works := by decide) : s.Phase p (t.goto st) :=
  .working st hst rfl hview hfits

/-- CTR_INIT on entry to a cipher stage leaves the host's view and CLEN. -/
theorem State.Phase.enterCipher (st : Stage) (hview : t.hostView = s.hostView)
    (hfits : st ∈ packedStages → t.clen.toNat ≤ p.cbufSize) (hst : st.Works := by decide) :
    s.Phase p (t.enterCipher st) :=
  .working st hst rfl hview hfits

end Phases

/-! ### The shared operations of the stages -/

/-- Key derivation raises, or goes on as the command's own stage says. -/
theorem State.kdf_phase {p : Platform} {s : State} {after : State → State}
    (hafter : ∀ t : State, t.hostView = s.hostView → t.clen = s.clen → s.Phase p (after t)) :
    s.Phase p (s.kdf p after) := by
  obtain ⟨-, heq⟩ | ⟨-, heq⟩ := State.kdf_cases p after s <;> rw [heq]
  · exact .raise _ rfl
  · exact hafter _ rfl rfl

/-- A block of the cipher leaves the host's view. -/
theorem State.hostView_afterBlock (p : Platform) (s : State) : (s.afterBlock p).hostView = s.hostView := by
  simp only [State.hostView, State.afterBlock_tbyp, State.afterBlock_ie, State.afterBlock_busy, State.afterBlock_ilen,
    State.afterBlock_pwlen, State.afterBlock_mem]

/-- A block of the cipher raises, stays in its stage or goes on to the next one; CLEN stays. -/
theorem State.ctrBlock_phase {p : Platform} {s t : State} {st next : Stage} (hst : st.Works) (hnext : next.Works)
    (hstage : s.stage = st.code) (hfits : st ∈ packedStages → s.clen.toNat ≤ p.cbufSize)
    (hfits' : next ∈ packedStages → s.clen.toNat ≤ p.cbufSize) (h : s.ctrBlock p next = .next t) : s.Phase p t := by
  obtain ⟨-, heq⟩ | ⟨-, -, heq⟩ | ⟨-, -, -, heq⟩ | ⟨-, -, -, ⟨-, heq⟩ | ⟨-, heq⟩⟩ := State.ctrBlock_cases p next s
  all_goals rw [heq] at h; cases h
  · exact .goto next rfl hfits' hnext
  · exact .raise _ rfl
  · exact .goto next (s.hostView_afterBlock p) (by rwa [State.afterBlock_clen]) hnext
  · exact .working st hst (by rwa [State.afterBlock_stage]) (s.hostView_afterBlock p) (by rwa [State.afterBlock_clen])

/-! ### The stages of ENCODE -/

section Stages

variable (p : Platform) (s : State)

theorem State.eCheck_phase : s.Phase p (s.eCheck p) := by
  obtain ⟨-, heq⟩ | ⟨-, heq⟩ := State.eCheck_cases p s <;> rw [heq]
  · exact .goto .eCrc rfl Stage.not_packed
  · exact .raise _ rfl

/-- E_DEFLATE takes an answer only when it fits CBUF, and CLEN is then its length. -/
theorem State.eDeflate_phase : s.Phase p (s.eDeflate p) := by
  obtain ⟨-, heq⟩ | ⟨⟨-, hlen⟩, heq⟩ := State.eDeflate_cases p s <;> rw [heq]
  · exact .raise _ rfl
  · refine .goto .eSalt rfl fun _ => ?_
    rw [State.storePacked_clen, BitVec.toNat_ofNat]
    exact (Nat.mod_le _ _).trans hlen

theorem State.eSalt_phase (hfits : s.clen.toNat ≤ p.cbufSize) : s.Phase p (s.eSalt p) := by
  obtain ⟨-, heq⟩ | ⟨-, heq⟩ := State.eSalt_cases p s <;> rw [heq]
  · exact .raise _ rfl
  · exact .goto .eKdf rfl fun _ => hfits

theorem State.eKdf_phase (hfits : s.clen.toNat ≤ p.cbufSize) : s.Phase p (s.eKdf p) :=
  State.kdf_phase fun _ hview hclen => .enterCipher .eCipher hview fun _ => by rwa [hclen]

theorem State.eHmac_phase (hfits : s.clen.toNat ≤ p.cbufSize) : s.Phase p (s.eHmac p) := by
  obtain ⟨-, heq⟩ | ⟨-, heq⟩ := State.eHmac_cases p s <;> rw [heq]
  · exact .raise _ rfl
  · exact .goto .eEmit rfl fun _ => hfits

/-- E_EMIT writes the container alone, whose length OLEN then is. -/
theorem State.eEmit_phase (hp : p.Bounded) (hstage : s.stage = Stage.eEmit.code) (hfits : s.clen.toNat ≤ p.cbufSize) :
    s.Phase p (s.eEmit p) := by
  obtain ⟨t, hstep, honly, holen, -, hframe⟩ := emitWritesTheContainer p s hp hstage hfits
  have heq : s.eEmit p = t := Host.Outcome.next.inj ((State.engine_of_stage hstage).symm.trans hstep)
  rw [heq]
  refine .concluded (congrArg State.stage honly) (.succeeded (congrArg State.raised honly) (congrArg State.hostView honly) ?_)
  rwa [holen]

/-! ### The stages of DECODE -/

theorem State.dCheck_phase : s.Phase p (s.dCheck p) := by
  obtain ⟨-, heq⟩ | ⟨-, heq⟩ := State.dCheck_cases p s <;> rw [heq]
  · exact .goto .dFormat rfl Stage.not_packed
  · exact .raise _ rfl

theorem State.checkBounds_phase : s.Phase p (s.checkBounds p) := by
  obtain ⟨-, heq⟩ | ⟨-, heq⟩ := State.checkBounds_cases p s <;> rw [heq]
  · exact .raise _ rfl
  · exact .goto .dKdf rfl Stage.not_packed

theorem State.checkAeExtra_phase : s.Phase p (s.checkAeExtra p) := by
  obtain ⟨-, heq⟩ | ⟨-, heq⟩ := State.checkAeExtra_cases p s <;> rw [heq]
  · exact (State.checkBounds_phase p (s.drew 7)).of_view rfl
  · exact .raise _ rfl

theorem State.checkLfh_phase : s.Phase p (s.checkLfh p) := by
  obtain ⟨-, heq⟩ | ⟨-, heq⟩ := State.checkLfh_cases p s <;> rw [heq]
  · exact (State.checkAeExtra_phase p (s.drew 6)).of_view rfl
  · exact .raise _ rfl

theorem State.dFormat_phase (hstage : s.stage = Stage.dFormat.code) : s.Phase p (s.dFormat p) := by
  obtain ⟨-, heq⟩ | ⟨-, -, heq⟩ | ⟨-, -, heq⟩ := State.dFormat_cases p s hstage <;> rw [heq]
  · exact .raise _ rfl
  · exact .raise _ rfl
  · exact (State.checkLfh_phase p (s.drew 4)).of_view rfl

theorem State.dKdf_phase : s.Phase p (s.dKdf p) :=
  (State.kdf_phase (s := (s.drew 16).setSalt (s.container p 45 16)) fun _ hview _ =>
    .goto .dPvv hview Stage.not_packed).of_view rfl

theorem State.dPvv_phase : s.Phase p (s.dPvv p) := by
  obtain ⟨-, heq⟩ | ⟨-, heq⟩ := State.dPvv_cases p s <;> rw [heq]
  · exact .goto .dTag rfl Stage.not_packed
  · exact .raise _ rfl

theorem State.dTag_phase : s.Phase p (s.dTag p) := by
  have hview : ∀ (n : Nat) (r : Bytes), (((s.drew n).keepDigest r).drew 10).hostView = s.hostView := fun _ _ => rfl
  obtain ⟨-, heq⟩ | ⟨-, -, heq⟩ | ⟨-, -, ⟨-, heq⟩ | ⟨-, heq⟩⟩ := State.dTag_cases p s <;> rw [heq]
  · exact .enterCipher .dCipher rfl Stage.not_packed
  · exact .raise _ rfl
  · exact .enterCipher .dCipher (hview _ _) Stage.not_packed
  · exact .raise _ (hview _ _)

/-- D_CIPHER: the copy of the ciphertext before the first block changes CBUF and the draws alone. -/
theorem State.dCipher_phase {t : State} (hstage : s.stage = Stage.dCipher.code) (h : s.dCipher p = .next t) :
    s.Phase p t := by
  have hblock : ∀ u : State, u.stage = s.stage → u.hostView = s.hostView → u.ctrBlock p .dInflate = .next t →
      s.Phase p t := fun u hu hview h =>
    (State.ctrBlock_phase (st := .dCipher) (by decide) (by decide) (hu.trans hstage)
      Stage.not_packed Stage.not_packed h).of_view hview
  rw [State.dCipher] at h
  split at h
  · exact hblock (s.loadCiphertext p) rfl rfl h
  · exact hblock s rfl rfl h

theorem State.dInflate_phase : s.Phase p (s.dInflate p) := by
  obtain ⟨-, heq⟩ | ⟨-, -, heq⟩ | ⟨-, -, heq⟩ := State.dInflate_cases p s <;> rw [heq]
  · exact .raise _ rfl
  · exact .raise _ rfl
  · exact .goto .dCrc rfl Stage.not_packed

theorem State.dCrc_phase : s.Phase p (s.dCrc p) := by
  obtain ⟨-, heq⟩ | ⟨-, heq⟩ := State.dCrc_cases p s <;> rw [heq]
  · exact .goto .dCommit rfl Stage.not_packed
  · exact .raise _ rfl

/-- D_COMMIT writes the inflated data alone, whose length OLEN then is. -/
theorem State.dCommit_phase : s.Phase p s.dCommit :=
  .concluded rfl (.succeeded rfl rfl s.dCommit_read?)

end Stages

/-! ### A run of engine steps -/

/-- The engine step at a working stage. -/
theorem State.runStage_phase {p : Platform} {s t : State} {st : Stage} (hp : p.Bounded) (hst : st.Works)
    (hstage : s.stage = st.code) (hfits : st ∈ packedStages → s.clen.toNat ≤ p.cbufSize)
    (h : s.runStage p st = .next t) : s.Phase p t := by
  cases st with
  | idle => exact absurd rfl hst.1
  | finish => exact absurd rfl hst.2
  | eCheck => cases h; exact s.eCheck_phase p
  | eCrc => cases h; exact .goto .eDeflate rfl Stage.not_packed
  | eDeflate => cases h; exact s.eDeflate_phase p
  | eSalt => cases h; exact s.eSalt_phase p (hfits (by decide))
  | eKdf => cases h; exact s.eKdf_phase p (hfits (by decide))
  | eCipher => exact State.ctrBlock_phase hst (by decide) hstage hfits (fun _ => hfits (by decide)) h
  | eHmac => cases h; exact s.eHmac_phase p (hfits (by decide))
  | eEmit => cases h; exact s.eEmit_phase p hp hstage (hfits (by decide))
  | dCheck => cases h; exact s.dCheck_phase p
  | dFormat => cases h; exact s.dFormat_phase p hstage
  | dKdf => cases h; exact s.dKdf_phase p
  | dPvv => cases h; exact s.dPvv_phase p
  | dTag => cases h; exact s.dTag_phase p
  | dCipher => exact s.dCipher_phase p hstage h
  | dInflate => cases h; exact s.dInflate_phase p
  | dCrc => cases h; exact s.dCrc_phase p
  | dCommit => cases h; exact s.dCommit_phase p

/-- Every engine step keeps a command in one of its phases. -/
theorem State.Phase.engine {p : Platform} {s t u : State} (hp : p.Bounded) (h : s.Phase p t)
    (hstep : t.engine p = .next u) : s.Phase p u := by
  cases h with
  | working st hst hstage hview hfits =>
    rw [State.engine_of_stage hstage] at hstep
    exact (State.runStage_phase hp hst hstage hfits hstep).of_view hview
  | concluded hstage hend =>
    rw [State.engine_of_stage hstage] at hstep
    cases hstep
    exact .ended hend
  | @ended t hend =>
    have hidle : t.finish.stage = Stage.idle.code := rfl
    rw [State.engine_of_stage hidle] at hstep
    cases hstep
    exact .ended hend

/-- Every run of engine steps keeps a command in one of its phases. -/
theorem State.Phase.engineSteps {p : Platform} {s t u : State} (hp : p.Bounded) (h : s.Phase p t) (k : Nat)
    (hrun : t.engineSteps p k = .next u) : s.Phase p u := by
  induction k generalizing t with
  | zero =>
    cases hrun
    exact h
  | succ k ih =>
    obtain ⟨v, hstep, hrest⟩ := State.engineSteps_cases hrun
    exact ih (h.engine hp hstep) hrest

/-! ### The end of a command -/

/-- Before FINISH the host's view is the one at dispatch but for the host buffers, BUSY = 1 included (10_state.md R24). -/
theorem State.Concluded.view {s t : State} (h : s.Concluded t) : t.hostView = { s.hostView with mem := t.mem } := by
  obtain ⟨_, -, hview⟩ | ⟨-, hview, -⟩ := h
  · have hmem : t.mem = s.mem := congrArg HostView.mem hview
    rw [hview, hmem]
    rfl
  · exact hview

/-- A command that has ended is behind FINISH. -/
theorem State.Phase.ended_of_idle {p : Platform} {s t : State} (h : s.Phase p t) (hs : s.busy = true)
    (ht : t.busy = false) : ∃ u, s.Concluded u ∧ t = u.finish := by
  have hdiffer : t.busy ≠ s.busy := by rw [hs, ht]; exact Bool.false_ne_true
  cases h with
  | working st hst hstage hview hfits => exact absurd (congrArg HostView.busy hview) hdiffer
  | concluded hstage hend => exact absurd (congrArg HostView.busy hend.view) hdiffer
  | @ended u hend => exact ⟨u, hend, rfl⟩

/-- No error kind has the code of success (60_exceptions.md R260). -/
theorem ErrKind.code_ne_zero (k : ErrKind) : k.code ≠ 0 := by
  cases k <;> decide

/-- FINISH after a raised kind: ERR is not 0, OLEN is (60_exceptions.md R262). -/
theorem State.finish_of_raised {s : State} {k : ErrKind} (h : s.raised = some k) : s.finish.err ≠ 0 ∧ s.finish.olen = 0 := by
  rw [State.finish_err, State.finish_olen, h]
  exact ⟨k.code_ne_zero, rfl⟩

/-- FINISH after success: ERR is 0, OLEN stays (60_exceptions.md R262). -/
theorem State.finish_of_success {s : State} (h : s.raised = none) : s.finish.err = 0 ∧ s.finish.olen = s.olen := by
  rw [State.finish_err, State.finish_olen, h]
  exact ⟨rfl, rfl⟩

/-- FINISH leaves the block wiped (60_exceptions.md R265). -/
theorem State.finish_wiped (s : State) : s.finish.Wiped := rfl

/-- What FINISH reports: an error with OLEN = 0 and the host buffers as at dispatch, or success with new bytes in `OBUF[0..OLEN)`
alone (60_exceptions.md R266). -/
theorem State.Concluded.finish_report {s t : State} (h : s.Concluded t) :
    (t.finish.err ≠ 0 → t.finish.olen = 0 ∧ t.finish.mem = s.mem) ∧
    (t.finish.err = 0 → ∀ a, a < obufBase ∨ obufBase + t.finish.olen.toNat ≤ a →
      t.finish.mem.read? a = s.mem.read? a) := by
  obtain ⟨_, hraised, hview⟩ | ⟨hraised, -, hmem⟩ := h
  · obtain ⟨herr, holen⟩ := State.finish_of_raised hraised
    exact ⟨fun _ => ⟨holen, congrArg HostView.mem hview⟩, fun h => absurd h herr⟩
  · obtain ⟨herr, holen⟩ := State.finish_of_success hraised
    rw [holen]
    exact ⟨fun h => absurd herr h, fun _ => hmem⟩

/-- Settles O43: along every run of engine steps the command is in one of its phases, so a state in which it has ended is FINISH's,
which reports a raised kind or success. -/
theorem commandsArePrecise : Obligations.CommandsArePrecise := by
  intro p s t k hp _ hbusy hfirst hrun hended
  have hstart : s.Phase p s := by
    obtain hstage | hstage := hfirst
    · exact .working .eCheck (by decide) hstage rfl Stage.not_packed
    · exact .working .dCheck (by decide) hstage rfl Stage.not_packed
  obtain ⟨u, hend, rfl⟩ := (hstart.engineSteps hp k hrun).ended_of_idle hbusy hended
  have hview := hend.view
  exact ⟨rfl, u.finish_wiped, congrArg HostView.tbyp hview, congrArg HostView.ie hview, congrArg HostView.ilen hview,
    congrArg HostView.pwlen hview, hend.finish_report⟩

end Sys2Proof.Machine

/-! PROOFS. The decoder and the encoder undo each other (30_encoding.md R90 to R92, R111). -/

namespace Sys2Proof

/-! ### Command words -/

/-- The four bytes of a word at the command place decode to its row. -/
theorem decode_command_le32 (v : Word) (rest : Bytes) :
    decode .command (le32 v ++ rest) = .ok (decodeCommand v, rest) := by
  have hword : decode .command (le32 v ++ rest) = .ok (decodeCommand (rd32 (le32 v ++ []) 0), rest) := rfl
  rw [hword, rd32_le32]

/-- The code of a command row: the table's, or the one a reserved row carries (30_encoding.md R91, R92). -/
def Instr.code : Instr → Byte
  | .nop _ => 0x00
  | .encode _ => 0x01
  | .decode _ => 0x02
  | .reserved03 _ => 0x03
  | .reserved04To07 op _ | .reserved08To0F op _ | .reserved10To1F op _ | .reserved20To3F op _ | .reserved40To7F op _
  | .reserved80ToFF op _ => op
  | .lfh | .cfh | .eocd | .aeExtra => 0x00

/-- The ignored bits of a command row. -/
def Instr.junk : Instr → BitVec 24
  | .nop junk | .encode junk | .decode junk | .reserved03 junk => junk
  | .reserved04To07 _ junk | .reserved08To0F _ junk | .reserved10To1F _ junk | .reserved20To3F _ junk
  | .reserved40To7F _ junk | .reserved80ToFF _ junk => junk
  | .lfh | .cfh | .eocd | .aeExtra => 0

/-- A command row's encoding is the word of its code and its ignored bits. -/
theorem encode_of_command {i : Instr} (h : i.place = .command) : encode i = le32 (commandWord i.code i.junk) := by
  cases i with
  | lfh | cfh | eocd | aeExtra => cases h
  | _ => rfl

/-- The command map, on a code and ignored bits (30_encoding.md R91, R92). -/
theorem decodeCommand_commandWord (op : Byte) (junk : BitVec 24) :
    decodeCommand (commandWord op junk) =
      if op.toNat = 0x00 then .nop junk
      else if op.toNat = 0x01 then .encode junk
      else if op.toNat = 0x02 then .decode junk
      else if op.toNat = 0x03 then .reserved03 junk
      else if op.toNat ≤ 0x07 then .reserved04To07 op junk
      else if op.toNat ≤ 0x0F then .reserved08To0F op junk
      else if op.toNat ≤ 0x1F then .reserved10To1F op junk
      else if op.toNat ≤ 0x3F then .reserved20To3F op junk
      else if op.toNat ≤ 0x7F then .reserved40To7F op junk
      else .reserved80ToFF op junk := by
  simp only [decodeCommand, opOf_commandWord, junkOf_commandWord]

/-- A well-formed command row is the one its word decodes to: the rows' ranges of codes do not overlap. -/
theorem decodeCommand_of_row {i : Instr} (hplace : i.place = .command) (hwf : i.WellFormed) :
    decodeCommand (commandWord i.code i.junk) = i := by
  rw [decodeCommand_commandWord]
  cases i with
  | lfh | cfh | eocd | aeExtra => cases hplace
  | nop | encode | decode | reserved03 => rfl
  | reserved04To07 op junk | reserved08To0F op junk | reserved10To1F op junk | reserved20To3F op junk
  | reserved40To7F op junk | reserved80ToFF op junk =>
    have hrange := of_decide_eq_true hwf
    simp only [Instr.code, Instr.junk]
    grind

/-- The row a word decodes to is a well-formed command that carries the word's code and its ignored bits. -/
theorem decodeCommand_row (v : Word) :
    (decodeCommand v).place = .command ∧ (decodeCommand v).WellFormed ∧ (decodeCommand v).code = opOf v ∧
      (decodeCommand v).junk = junkOf v := by
  have hcode (n : Nat) (hn : n < 256) (h : (opOf v).toNat = n) : BitVec.ofNat 8 n = opOf v :=
    BitVec.eq_of_toNat_eq (by rw [h, BitVec.toNat_ofNat, Nat.mod_eq_of_lt hn])
  unfold decodeCommand
  dsimp only
  split_ifs with h0 h1 h2 h3 h7 hF h1F h3F h7F
  · exact ⟨rfl, rfl, hcode _ (by decide) h0, rfl⟩
  · exact ⟨rfl, rfl, hcode _ (by decide) h1, rfl⟩
  · exact ⟨rfl, rfl, hcode _ (by decide) h2, rfl⟩
  · exact ⟨rfl, rfl, hcode _ (by decide) h3, rfl⟩
  all_goals exact ⟨rfl, decide_eq_true (by omega), rfl, rfl⟩

/-! ### The obligations -/

/-- Settles O1: a command word is its code and its ignored bits, which `decodeCommand_of_row` reads back; each record has one
fixed word. -/
theorem decodeReadsBackEveryEncoding : Obligations.DecodeReadsBackEveryEncoding := by
  intro i rest hwf
  cases hplace : i.place with
  | command => rw [encode_of_command hplace, decode_command_le32, decodeCommand_of_row hplace hwf]
  | record | extra =>
    cases i with
    | lfh | cfh | eocd | aeExtra => cases hplace <;> rfl
    | _ => cases hplace

/-- Settles O2: the row of a word carries the word's two parts, so its encoding is the word. -/
theorem everyWordIsExactlyOneCommand : Obligations.EveryWordIsExactlyOneCommand := by
  intro v
  obtain ⟨hplace, hwf, hcode, hjunk⟩ := decodeCommand_row v
  refine ⟨hplace, hwf, ?_⟩
  rw [encode_of_command hplace, hcode, hjunk, commandWord_opOf_junkOf]

/-- Settles O3, by evaluating the decoder on the ten words. -/
theorem writtenOutWordsDecode : Obligations.WrittenOutWordsDecode := by
  unfold Obligations.WrittenOutWordsDecode
  decide

end Sys2Proof

/-! PROOFS. What a step runs: the command word the host writes, the record at a container's head, the stage that STAGE names. -/

namespace Sys2Proof.Machine

/-! ### The command rows -/

/-- Settles O6. -/
theorem encodeDispatchStartsAtECheck : Obligations.EncodeDispatchStartsAtECheck :=
  fun junk _ hb => exec_encode_idle hb junk

/-- Settles O7. -/
theorem decodeDispatchStartsAtDCheck : Obligations.DecodeDispatchStartsAtDCheck :=
  fun junk _ hb => exec_decode_idle hb junk

/-- While a command runs a dispatch changes nothing. -/
theorem State.dispatch_busy {s : State} (h : s.busy = true) (start : State → State) : s.dispatch start = .next s := by
  rw [State.dispatch, h]
  rfl

/-- The meaning of every command row is a dispatch. -/
theorem exec_command {i : Instr} (h : i.place = .command) : ∃ start, ∀ s, exec i s = s.dispatch start := by
  cases i with
  | lfh | cfh | eocd | aeExtra => cases h
  | nop => exact ⟨fun s => s, fun _ => rfl⟩
  | encode => exact ⟨fun s => s.startCommand .eCheck, fun _ => rfl⟩
  | decode => exact ⟨fun s => s.startCommand .dCheck, fun _ => rfl⟩
  | _ => exact ⟨State.endBadCommand, fun _ => rfl⟩

/-- Settles O9. -/
theorem noCommandStartsInsideAnother : Obligations.NoCommandStartsInsideAnother := by
  intro i s hplace hb
  obtain ⟨start, hexec⟩ := exec_command hplace
  rw [hexec, State.dispatch_busy hb]

/-- Settles O11: the host's turn is one access to CMD, and the word it carries is the one decoded. -/
theorem stepRunsTheCommandWritten : Obligations.StepRunsTheCommandWritten := by
  intro s ts v rest i hmoves hb hhost hdecode
  have hi : decodeCommand v = i := by
    have hword := decode_command_le32 v []
    rw [List.append_nil, hdecode] at hword
    cases hword
    rfl
  have herr : ((s.setTurns ts).setHost rest).busErr Config.platform (.write 0 4 v) = false :=
    (State.busErr_registerWrite _ _ (by decide) (by decide) v).trans hb
  rw [step_host hmoves, State.hostTurn_bus (s := s.setTurns ts) hhost, State.access_cmd herr rfl, hi]
  rfl

/-! ### The record rows -/

/-- The record that is read where the head of the container decodes to one. -/
theorem State.fetchRecord_of_decode {p : Platform} {s : State} {i : Instr} {r : Bytes}
    (hstage : s.stage = Stage.dFormat.code) (hlen : 73 ≤ s.ilen.toNat)
    (hdecode : decode .record (s.container p 0 4) = .ok (i, r)) : s.fetchRecord p = some (i, s.drew 4) := by
  rw [State.fetchRecord, if_pos ⟨hstage, hlen⟩, hdecode]

/-- Settles O12. -/
theorem stepRunsTheRecordAtTheHead : Obligations.StepRunsTheRecordAtTheHead := by
  intro s ts i r hmoves hstage hlen hdecode
  have hfetch : (s.setTurns ts).fetchRecord Config.platform = some (i, (s.setTurns ts).drew 4) :=
    State.fetchRecord_of_decode hstage hlen hdecode
  rw [step_engine hmoves, State.engineTurn, hfetch]
  rfl

/-- The extra field that begins with an id the decoder takes is the AE one (30_encoding.md R111). -/
theorem decode_extra_eq_ok {bs r : Bytes} {i : Instr} (hlen : bs.length = 2) (h : decode .extra bs = .ok (i, r)) :
    i = .aeExtra ∧ rd16 bs 0 = 0x9901 := by
  obtain ⟨b0, b1, rfl⟩ := List.length_eq_two.mp hlen
  simp only [decode, decodeExtraId] at h
  by_cases hid : rd16 [b0, b1] 0 = idAeExtra
  · rw [if_pos hid] at h
    cases h
    exact ⟨rfl, hid⟩
  · rw [if_neg hid] at h
    cases h

/-- Settles O13: with the marker and the length right, `State.checkLfh` goes on to the AE extra field. -/
theorem lfhRunsTheExtraFieldBehindIt : Obligations.LfhRunsTheExtraFieldBehindIt := by
  intro s i r hstage hmethod hextra hdecode
  obtain ⟨rfl, hid⟩ := decode_extra_eq_ok (State.length_container _ _ _ _) hdecode
  have hmethod' : s.container Config.platform 8 2 = [0x63, 0x00] := State.container_of_holds hmethod rfl
  have hextra' : (s.drew 2).container Config.platform 28 2 = [0x0B, 0x00] :=
    State.container_of_holds (s := s.drew 2) hextra rfl
  have hlfh : exec .lfh s = .next (s.checkLfh Config.platform) := execLfh_dFormat hstage
  have hfield : exec .aeExtra (s.drew 6) = .next ((s.drew 6).checkAeExtra Config.platform) :=
    execAeExtra_dFormat (s := s.drew 6) hstage
  obtain ⟨-, heq⟩ | ⟨hbad, -⟩ := State.checkLfh_cases Config.platform s
  · rw [hlfh, heq]
    exact hfield.symm
  · refine absurd ⟨?_, ?_, hid⟩ hbad
    · rw [hmethod']
      decide
    · rw [hextra']
      decide

/-- A record row means the same to the host's `exec` and to the engine. -/
theorem exec_record {i : Instr} (h : i.place ≠ .command) (s : State) :
    exec i s = .next (s.runRecord Config.platform i) := by
  cases i with
  | lfh | cfh | eocd | aeExtra => rfl
  | _ => exact absurd rfl h

/-- The engine's turn is the stage that STAGE names: the record it reads at the container's head is the one D_FORMAT checks. -/
theorem State.engineTurn_eq_engine (s : State) : s.engineTurn = s.engine Config.platform := by
  rw [State.engineTurn]
  cases hfetch : s.fetchRecord Config.platform with
  | none => rfl
  | some r =>
    obtain ⟨i, s1⟩ := r
    obtain ⟨hstage, hlen, -, hi⟩ := State.fetchRecord_some hfetch
    have hplace : i.place ≠ .command := by
      obtain rfl | rfl | rfl := hi <;> decide
    have hformat : s.engine Config.platform = .next (s.dFormat Config.platform) := State.engine_of_stage hstage
    rw [hformat, State.dFormat, if_neg (Nat.not_lt.mpr hlen), hfetch]
    exact exec_record hplace s1

/-- Settles O14. -/
theorem stepOfTheEngineIsTheStage : Obligations.StepOfTheEngineIsTheStage := by
  intro s ts hmoves
  rw [step_engine hmoves, State.engineTurn_eq_engine]
  rfl

/-- Settles O19. -/
theorem otherRecordsAtTheHeadAreBadFormat : Obligations.OtherRecordsAtTheHeadAreBadFormat :=
  fun _ hstage => ⟨execCfh_dFormat hstage, execEocd_dFormat hstage⟩

/-- Settles O20: every record row is an `onRecord`. -/
theorem recordsAreTouchedAtTwoStagesOnly : Obligations.RecordsAreTouchedAtTwoStagesOnly := by
  intro i s hplace hemit hformat
  rw [exec_record hplace]
  cases i with
  | lfh | cfh | eocd | aeExtra =>
    simp only [State.runRecord, State.runLfh, State.runCfh, State.runEocd, State.runAeExtra,
      State.onRecord_other hemit hformat]
  | _ => exact absurd rfl hplace

end Sys2Proof.Machine

/-! PROOFS. The host's accesses: all that one can do, what register reads return, and that the internal state plays no part in them
(44_host_access.md R240 to R246, 10_state.md R48). -/

namespace Sys2Proof.Machine

/-! ### All that an access can do -/

/-- All the results an access can have: BUSERR; a register's value, or the fault of an ERR code that is never written; the bytes of a
buffer; and, on an idle block alone, a command's dispatch, a register's new value or new bytes in PBUF or IBUF. -/
inductive State.Answers (s : State) (op : BusOp) : Result → Prop where
  | busErr : s.Answers op (.next (s.respond op false 0))
  | register (v : Word) : s.Answers op (.next (s.respond op true v))
  | errCode (h : 12 ≤ s.err.toNat) : s.Answers op (.fault .errCodeNeverWritten)
  | load : s.Answers op (.next (s.readBuffer Config.platform op))
  | command (hidle : s.busy = false) (v : Word) : s.Answers op (exec (decodeCommand v) (s.respond op true 0))
  | store (hidle : s.busy = false) (a : Nat) (v : Word) :
      s.Answers op (.next ((s.writeRegister Config.platform a v).respond op true 0))
  | fill (hidle : s.busy = false) (v : Word)
      (hrange : ∀ k, k < (bytesOfWord v op.size).length → inBuffers Config.platform (op.addr.toNat + k)) :
      s.Answers op (.next (s.writeBuffer op v))

/-- An access with no BUSERR has a legal width, is held by one resource, and that resource accepts it. -/
theorem State.accepted_of_busErr {p : Platform} {s : State} {op : BusOp} (h : s.busErr p op = false) :
    (op.size = 1 ∨ op.size = 2 ∨ op.size = 4) ∧
      ∃ r, resourceOf p op.addr.toNat op.size = some r ∧ r.accepts s.busy op.size op.isWrite = true := by
  rw [State.busErr] at h
  split at h
  · cases h
  · next r hr =>
    simp only [Bool.not_eq_false', Bool.and_eq_true] at h
    obtain ⟨⟨hwidth, -⟩, haccepts⟩ := h
    exact ⟨(legalWidth_iff _).mp hwidth, r, hr, haccepts⟩

/-- No resource accepts a write while a command runs, and OBUF accepts none at all. -/
theorem Resource.accepts_write {busy : Bool} {n : Nat} {r : Resource} (h : r.accepts busy n true = true) :
    busy = false ∧ r ≠ .obuf := by
  cases r <;> cases busy <;> simp_all [Resource.accepts]

/-- Every access has one of these results. -/
theorem State.access_answers (s : State) (op : BusOp) : s.Answers op (s.access op) := by
  cases herr : s.busErr Config.platform op with
  | true =>
    rw [State.access_busErr herr]
    exact .busErr
  | false =>
    obtain ⟨hwidth, r, hr, haccepts⟩ := State.accepted_of_busErr herr
    cases op with
    | read a n =>
      rw [State.access_read herr, State.busRead]
      split
      · split
        · next h => exact .errCode h.2
        · exact .register _
      · exact .load
    | write a n v =>
      obtain ⟨hidle, hobuf⟩ := Resource.accepts_write haccepts
      by_cases ha : a.toNat = 0
      · rw [State.access_cmd herr ha]
        exact .command hidle v
      · rw [State.access_write herr ha, State.busWrite, hr]
        cases r with
        | registers => exact .store hidle a.toNat v
        | obuf => exact absurd rfl hobuf
        | pbuf | ibuf =>
          refine .fill hidle v fun k hk => ?_
          have hlen : (bytesOfWord v n).length ≤ n := by simp [bytesOfWord]
          have hrange := (resourceOf_iff _ Config.platform_bounded _ _ (by omega) _).mp hr
          simp only [BusOp.size, BusOp.addr, inBuffers, pbufBase, ibufBase] at hk hrange ⊢
          omega

/-! ### Register reads -/

/-- A read of one of the seven registers, at any time, is answered with its value; a code in ERR above 11 is excluded. -/
theorem State.access_readRegister {s : State} {a : Word} (ha : a.toNat + 4 ≤ 0x1C ∧ a.toNat % 4 = 0)
    (herr : a.toNat = 0x0C → s.err.toNat ≤ 11) :
    s.access (.read a 4) = .next (s.respond (.read a 4) true (s.readRegister Config.platform a.toNat)) := by
  obtain ⟨hwindow, hal⟩ := ha
  have hbus : s.busErr Config.platform (.read a 4) = (s.busy && false) := State.busErr_register hwindow hal rfl
  rw [Bool.and_false] at hbus
  have hr : resourceOf Config.platform a.toNat 4 = some .registers := by rw [resourceOf, if_pos hwindow]
  rw [State.access_read hbus, State.busRead, BusOp.addr, BusOp.size, hr]
  exact if_neg fun h => by have := herr h.1; omega

/-- A word of two flags: the first in bit 0, the second in bit 1 (10_state.md R23 to R25). -/
theorem bit_or_bit (x y : Bool) :
    bit x ||| (bit y <<< 1) = (if x = true then 1 else 0) + (if y = true then 2 else 0) := by
  cases x <;> cases y <;> decide

/-- Settles O48: the read's answer is `State.readRegister`, register by register. -/
theorem registerReadsReturnTheRegisters : Obligations.RegisterReadsReturnTheRegisters := by
  intro s herr p answers
  have hread (a : Word) (ha : a.toNat + 4 ≤ 0x1C ∧ a.toNat % 4 = 0) : answers a (s.readRegister p a.toNat) :=
    State.access_readRegister ha fun _ => herr
  have hctrl : s.ctrlWord p =
      (if p.testHook = true ∧ s.tbyp = true then 1 else 0) + (if s.ie = true then 2 else 0) := by
    simp only [State.ctrlWord, bit_or_bit, State.bypass, Bool.and_eq_true]
  have herrWord : s.errWord = BitVec.ofNat 32 s.err.toNat := by
    simp [State.errWord, zext]
  have h4 := hread 0x04 (by decide)
  have h8 := hread 0x08 (by decide)
  have hC := hread 0x0C (by decide)
  exact ⟨hread 0x00 (by decide), hctrl ▸ h4, (bit_or_bit s.busy s.done) ▸ h8, herrWord ▸ hC, hread 0x10 (by decide),
    hread 0x14 (by decide)⟩

/-- Settles O49. -/
theorem olenReadsZeroWhileBusy : Obligations.OlenReadsZeroWhileBusy :=
  fun s => State.access_readRegister (s := s) (a := 0x18) (by decide) (fun h => absurd h (by decide))

/-! ### A busy block -/

/-- Settles O53: no resource accepts such an access, so it gets BUSERR. -/
theorem busyBlockDropsWritesAndBufferReads : Obligations.BusyBlockDropsWritesAndBufferReads := by
  intro s op hb hdrop
  cases herr : s.busErr Config.platform op with
  | true => exact State.access_busErr herr
  | false =>
    obtain ⟨hwidth, r, hr, haccepts⟩ := State.accepted_of_busErr herr
    obtain ⟨-, hbuf, -⟩ := address_of_resourceOf Config.platform_bounded (by omega) hr
    have hdropped : r.accepts s.busy op.size op.isWrite = false := by
      refine (Resource.accepts_eq_false_iff ..).mpr (.inr (.inr ?_))
      obtain hwrite | haddr := hdrop
      · exact .inl ⟨hb, hwrite⟩
      · exact .inr ⟨hb, hbuf.mpr haddr⟩
    rw [hdropped] at haccepts
    cases haccepts

/-! ### The internal state is hidden -/

/-- A state without its internal part: what a host access can depend on, and zeros for the rest. -/
def State.outside (s : State) : State :=
  { State.reset with
    tbyp := s.tbyp, ie := s.ie, busy := s.busy, done := s.done, err := s.err, ilen := s.ilen, pwlen := s.pwlen
    olen := s.olen, mem := s.mem, last := s.last, host := s.host, turns := s.turns, draws := s.draws }

/-- States agree outside when they are the same without their internal parts. -/
theorem State.sameOutside_iff {s t : State} : s.SameOutside t ↔ s.outside = t.outside := by
  simp [State.SameOutside, State.outside, State.ext_iff]

/-- A result without the internal part of its state. -/
def outsideOf : Result → Result
  | .next s => .next s.outside
  | .fault f => .fault f
  | .refused r => .refused r

/-- A command's dispatch does outside what it does to the state without its internal part. -/
theorem outsideOf_exec_outside {s : State} (hb : s.busy = false) (v : Word) :
    outsideOf (exec (decodeCommand v) s) = outsideOf (exec (decodeCommand v) s.outside) := by
  rw [exec_decodeCommand_idle hb, exec_decodeCommand_idle (s := s.outside) hb]
  split_ifs <;> rfl

/-- A register write does outside what it does to the state without its internal part. -/
theorem outside_writeRegister (p : Platform) (s : State) (a : Nat) (v : Word) :
    (s.writeRegister p a v).outside = (s.outside.writeRegister p a v).outside := by
  simp only [State.writeRegister, State.writeStatus]
  split_ifs <;> rfl

/-- An access does outside what it does to the state without its internal part. -/
theorem outsideOf_access (s : State) (op : BusOp) : outsideOf (s.access op) = outsideOf (s.outside.access op) := by
  cases herr : s.busErr Config.platform op with
  | true => rw [State.access_busErr herr, State.access_busErr (s := s.outside) herr]; rfl
  | false =>
    cases op with
    | read a n =>
      rw [State.access_read herr, State.access_read (s := s.outside) herr, State.busRead, State.busRead]
      split
      · have hsplit {x y : Result} :
            (if a.toNat = 0x0C ∧ 12 ≤ s.outside.err.toNat then x else y) =
              if a.toNat = 0x0C ∧ 12 ≤ s.err.toNat then x else y := rfl
        rw [BusOp.addr, hsplit, apply_ite outsideOf, apply_ite outsideOf]
        rfl
      · rfl
    | write a n v =>
      obtain ⟨-, _, -, haccepts⟩ := State.accepted_of_busErr herr
      have hidle := (Resource.accepts_write haccepts).1
      by_cases ha : a.toNat = 0
      · rw [State.access_cmd herr ha, State.access_cmd (s := s.outside) herr ha]
        exact (outsideOf_exec_outside (s := s.respond (.write a n v) true 0) hidle v).trans
          (outsideOf_exec_outside (s := s.outside.respond (.write a n v) true 0) hidle v).symm
      · rw [State.access_write herr ha, State.access_write (s := s.outside) herr ha, State.busWrite, State.busWrite]
        split
        · have hstored := outside_writeRegister Config.platform s a.toNat v
          exact congrArg (fun u : State => Host.Outcome.next (u.respond (.write a n v) true 0)) hstored
        · rfl

/-- A command's dispatch answers a next state. -/
theorem exec_decodeCommand_next (v : Word) (s : State) : ∃ t, exec (decodeCommand v) s = .next t := by
  obtain ⟨start, hexec⟩ := exec_command (decodeCommand_row v).1
  exact ⟨_, hexec s⟩

/-- An access answers a next state; only a read of ERR with a code that is never written stops. -/
theorem State.access_next_or_fault (s : State) (op : BusOp) :
    (∃ t, s.access op = .next t) ∨ (12 ≤ s.err.toNat ∧ s.access op = .fault .errCodeNeverWritten) := by
  have hanswers := s.access_answers op
  generalize s.access op = r at hanswers ⊢
  cases hanswers with
  | errCode h => exact .inr ⟨h, rfl⟩
  | command hidle v => exact .inl (exec_decodeCommand_next v _)
  | busErr | register v | load | store hidle a v | fill hidle v hrange => exact .inl ⟨_, rfl⟩

/-- Settles O54: what an access leaves outside depends on what the state is outside alone. -/
theorem hiddenStateCannotBeRead : Obligations.HiddenStateCannotBeRead := by
  intro s t op hsame
  have heq : outsideOf (s.access op) = outsideOf (t.access op) := by
    rw [outsideOf_access s, outsideOf_access t, State.sameOutside_iff.mp hsame]
  obtain ⟨s', hs⟩ | ⟨-, hs⟩ := s.access_next_or_fault op <;> obtain ⟨t', ht⟩ | ⟨-, ht⟩ := t.access_next_or_fault op
  all_goals rw [hs, ht] at heq
  · exact .inl ⟨s', t', hs, ht, State.sameOutside_iff.mpr (Host.Outcome.next.inj heq)⟩
  · cases heq
  · cases heq
  · exact .inr ⟨_, hs, ht⟩

/-! ### The interrupt line, polling and reset -/

/-- Settles O55: FINISH and a reserved command set DONE, the other dispatches and a write to STATUS clear it. -/
theorem irqFollowsDoneAndEnable : Obligations.IrqFollowsDoneAndEnable := by
  refine ⟨fun s => Bool.and_eq_true _ _ ▸ Iff.rfl, ?_, ?_, ?_, ?_⟩
  · intro p s t hstage hstep
    rw [State.engine_of_stage hstage] at hstep
    cases hstep
    exact Bool.true_and _
  · intro s t v hb hcode hexec
    rw [exec_decodeCommand_reserved hcode, State.dispatch_idle hb] at hexec
    cases hexec
    exact Bool.true_and _
  · intro s t v hb hcode hexec
    have h0 : opOf v ≠ 0x00 := by
      intro h
      rw [h] at hcode
      revert hcode
      decide
    rw [exec_decodeCommand_idle hb, if_neg h0] at hexec
    have h12 : opOf v = 0x01 ∨ opOf v = 0x02 := by bv_omega
    obtain h | h := h12
    · rw [if_pos h] at hexec
      cases hexec
      exact Bool.false_and _
    · rw [if_neg (by rw [h]; decide), if_pos h] at hexec
      cases hexec
      exact Bool.false_and _
  · intro s t v hb hv hwrite
    obtain ⟨-, hstatus, -⟩ := registerWritesStoreTheirBits s v hb
    rw [hstatus, if_pos hv] at hwrite
    cases hwrite
    exact Bool.false_and _

/-- A poll of STATUS that reads its two flags. -/
theorem State.hostTurn_waitDone {s : State} {rest : List HostOp} (h : s.host = waitDone ++ rest) :
    s.hostTurn =
      .next (if s.statusWord &&& 0x3 = 0x2 then (s.respond (.read 0x08 4) true s.statusWord).setHost rest
        else s.respond (.read 0x08 4) true s.statusWord) := by
  have hread : s.access (.read addrSTATUS 4) = .next (s.respond (.read 0x08 4) true s.statusWord) :=
    State.access_readRegister (by decide) (fun h => absurd h (by decide))
  rw [State.hostTurn_poll h, hread]
  rfl

/-- Settles O56. -/
theorem waitDoneWaitsForTheCommand : Obligations.WaitDoneWaitsForTheCommand := by
  intro s ts rest hhost
  constructor
  · intro hturns hb hd
    have hstatus : (s.setTurns ts).statusWord = 1 := by
      show bit s.busy ||| (bit s.done <<< 1) = 1
      rw [hb, hd]
      decide
    rw [step_host (.inl hturns), State.hostTurn_waitDone (s := s.setTurns ts) hhost, hstatus]
    rfl
  · intro hmoves hb hd
    have hstatus : (s.setTurns ts).statusWord = 2 := by
      show bit s.busy ||| (bit s.done <<< 1) = 2
      rw [hb, hd]
      decide
    rw [step_host hmoves, State.hostTurn_waitDone (s := s.setTurns ts) hhost, hstatus]
    rfl

/-- Settles O57: both kinds of reset leave every field of the block at its reset value. -/
theorem resetClearsTheBlock : Obligations.ResetClearsTheBlock := by
  intro s b ts hturns
  have hnothing : ∀ k, Memory.inner [] k = 0 := fun _ => rfl
  have hunwritten : ∀ a, Memory.read? [] a = none := fun _ => rfl
  refine ⟨_, step_reset hturns, ?_⟩
  cases b <;>
  exact ⟨rfl, rfl, rfl, rfl, rfl, rfl, rfl, rfl, rfl, rfl, rfl, rfl, rfl, rfl, rfl, rfl, rfl, rfl, rfl, rfl, rfl, rfl,
    rfl, hnothing, hnothing, hunwritten⟩

end Sys2Proof.Machine

/-! PROOFS. The invariant: every operation of a running command keeps what it asks, every stage does, and so does every step. -/

namespace Sys2Proof.Machine

/-! ### The memories -/

/-- Where the bytes of a memory stand, after storing a string whose bytes stand there. -/
theorem Memory.putBytes_within {blank : Option Byte} {m : Memory} {P : Nat → Prop} (hw : m.wf blank = true)
    (h : ∀ a v, m.read? a = some v → P a) {a : Nat} {bs : Bytes} (hbs : ∀ k, k < bs.length → P (a + k)) :
    ∀ b v, (m.putBytes blank a bs).read? b = some v → P b := by
  intro b v hread
  rw [Memory.read?_putBytes hw] at hread
  split at hread
  · next hin =>
    have hb := hbs (b - a) (by omega)
    rwa [Nat.add_sub_cancel' hin.1] at hb
  · exact h b v hread

/-! ### What the invariant asks of a running command -/

/-- What the counter and the lengths have to be at a working stage. -/
structure State.Ready (p : Platform) (s : State) (st : Stage) : Prop where
  operands : st ∈ operandStages → s.operandsOk p = true
  fresh : st ∈ beforeCipherStages → s.ctr = 0 ∧ s.bidx = 0
  runs : st ∈ [Stage.eCipher, Stage.dCipher] →
    s.ctr.toNat = s.bidx.toNat ∧ (s.bidx = 0 ∨ 16 * s.bidx.toNat < s.clen.toNat)
  packed : st ∈ packedStages → s.clen.toNat ≤ p.cbufSize
  parsed : st ∈ parsedStages → 73 + s.clen.toNat ≤ s.ilen.toNat
  usz : st ∈ [Stage.dCrc, Stage.dCommit] → s.usz.toNat ≤ p.obufSize

/-- What a running command's state is at every working stage. -/
structure State.Running (p : Platform) (s : State) : Prop where
  memWf : s.mem.wf hostBlank = true
  memIn : ∀ a v, s.mem.read? a = some v → inBuffers p a
  cbufWf : s.cbuf.wf innerBlank = true
  cbufIn : ∀ a v, s.cbuf.read? a = some v → a < p.cbufSize
  xbufWf : s.xbuf.wf innerBlank = true
  xbufIn : ∀ a v, s.xbuf.read? a = some v → a < p.obufSize
  busy : s.busy = true
  done : s.done = false
  err : s.err = 0
  hookOff : p.testHook = false → s.tbyp = false
  raised : s.raised = none
  olen : s.olen = 0
  ctrBound : 16 * s.ctr.toNat ≤ p.cbufSize + 15

/-- STAGE names one stage only. -/
theorem State.stageIn_iff {s : State} {st : Stage} (h : s.stage = st.code) (l : List Stage) : s.stageIn l ↔ st ∈ l := by
  constructor
  · rintro ⟨st', hmem, hst'⟩
    rwa [Stage.code_inj (h.symm.trans hst')]
  · exact fun hmem => ⟨st, hmem, h⟩

/-- The encodings of different stages differ. -/
theorem Stage.code_ne {a b : Stage} (h : a ≠ b) : a.code ≠ b.code := fun hcode => h (Stage.code_inj hcode)

/-- No stage's encoding exceeds 18 (10_state.md R40). -/
theorem Stage.code_le (st : Stage) : st.code.toNat ≤ 18 := by
  cases st <;> decide

section Running

variable {p : Platform} {s : State} {st : Stage}

/-- BUSY is 1 at every stage but IDLE. -/
theorem State.Inv.busy_of_stage (h : s.Inv p) (hs : s.stage = st.code) (hst : st ≠ .idle) : s.busy = true := by
  rw [h.busyStage, hs]
  exact decide_eq_true (Stage.code_ne hst)

/-- With BUSY = 0 the stage is IDLE. -/
theorem State.Inv.stage_of_idle (h : s.Inv p) (hb : s.busy = false) : s.stage = Stage.idle.code := by
  have hstage := h.busyStage
  rw [hb] at hstage
  exact not_not.mp (of_decide_eq_false hstage.symm)

/-- The invariant at a working stage. -/
theorem State.Inv.running (h : s.Inv p) (hs : s.stage = st.code) (hst : st.Works) : s.Running p where
  memWf := h.memWf
  memIn := h.memIn
  cbufWf := h.cbufWf
  cbufIn := h.cbufIn
  xbufWf := h.xbufWf
  xbufIn := h.xbufIn
  busy := h.busy_of_stage hs hst.1
  done := by
    have hb := h.busy_of_stage hs hst.1
    cases hd : s.done with
    | false => rfl
    | true =>
      rw [h.doneIdle hd] at hb
      cases hb
  err := h.errBusy (h.busy_of_stage hs hst.1)
  hookOff := h.hookOff
  raised := h.raisedAtFinish (hs ▸ Stage.code_ne hst.2)
  olen := h.olenBusy (h.busy_of_stage hs hst.1) (.inl (hs ▸ Stage.code_ne hst.2))
  ctrBound := h.ctrBound

/-- What the invariant asks at the stage that STAGE names. -/
theorem State.Inv.ready (h : s.Inv p) (hs : s.stage = st.code) : s.Ready p st where
  operands hmem := h.operands ((State.stageIn_iff hs _).mpr hmem)
  fresh hmem := h.cipherFresh ((State.stageIn_iff hs _).mpr hmem)
  runs hmem := h.cipherRuns ((State.stageIn_iff hs _).mpr hmem)
  packed hmem := h.packedFits ((State.stageIn_iff hs _).mpr hmem)
  parsed hmem := h.parsedFits ((State.stageIn_iff hs _).mpr hmem)
  usz hmem := h.uszFits ((State.stageIn_iff hs _).mpr hmem)

/-- A running command goes on to a stage whose demands are met, or to FINISH with a kind or with success: the invariant holds. -/
theorem State.Running.enter (h : s.Running p) {k : Option ErrKind} {olen : Word} (hidle : st ≠ .idle)
    (hk : st ≠ .finish → k = none) (hkind : k ≠ some .badCommand) (holen : olen = 0 ∨ (st = .finish ∧ k = none))
    (hfits : olen.toNat ≤ p.obufSize) (hready : s.Ready p st) :
    ({ s with stage := st.code, raised := k, olen := olen } : State).Inv p := by
  have hin (l : List Stage) : ({ s with stage := st.code, raised := k, olen := olen } : State).stageIn l ↔ st ∈ l :=
    State.stageIn_iff rfl l
  exact
    { memWf := h.memWf, memIn := h.memIn, cbufWf := h.cbufWf, cbufIn := h.cbufIn, xbufWf := h.xbufWf, xbufIn := h.xbufIn
      stageLegal := st.code_le
      busyStage := h.busy.trans (decide_eq_true (Stage.code_ne hidle)).symm
      doneIdle := fun hd => absurd (h.done.symm.trans hd) Bool.false_ne_true
      errLegal := by show s.err.toNat ≤ 11; rw [h.err]; decide
      errBusy := fun _ => h.err
      hookOff := h.hookOff
      idleWiped := fun hb => absurd (hb.symm.trans h.busy) Bool.false_ne_true
      raisedAtFinish := fun hne => hk fun hst => hne (hst ▸ rfl)
      raisedKind := hkind
      olenBusy := fun _ hnot => holen.resolve_right fun ⟨hst, hnone⟩ =>
        hnot.elim (fun hne => hne (hst ▸ rfl)) (fun hne => hne hnone)
      olenFits := hfits
      operands := fun hl => hready.operands ((hin _).mp hl)
      cipherFresh := fun hl => hready.fresh ((hin _).mp hl)
      cipherRuns := fun hl => hready.runs ((hin _).mp hl)
      ctrBound := h.ctrBound
      packedFits := fun hl => hready.packed ((hin _).mp hl)
      parsedFits := fun hl => hready.parsed ((hin _).mp hl)
      uszFits := fun hl => hready.usz ((hin _).mp hl) }

/-- Nothing is asked of the counter and the lengths at FINISH. -/
theorem State.ready_finish (p : Platform) (s : State) : s.Ready p .finish := by
  constructor <;> exact fun h => absurd h (by decide)

/-- Going on to a working stage whose demands are met. -/
theorem State.Running.goto (h : s.Running p) (hready : s.Ready p st) (hst : st.Works := by decide) :
    (s.goto st).Inv p := by
  have henter := h.enter (k := s.raised) (olen := s.olen) hst.1 (fun _ => h.raised) (by rw [h.raised]; exact nofun)
    (.inl h.olen) (by rw [h.olen]; exact Nat.zero_le _) hready
  exact henter

/-- `raise` of a kind that a stage may raise. -/
theorem State.Running.raise (h : s.Running p) (k : ErrKind) (hk : k ≠ .badCommand := by decide) : (s.raise k).Inv p := by
  have henter := h.enter (st := .finish) (k := some k) (olen := s.olen) (by decide) (fun hne => absurd rfl hne)
    (fun heq => hk (Option.some.inj heq)) (.inl h.olen) (by rw [h.olen]; exact Nat.zero_le _) (s.ready_finish p)
  exact henter

/-- The end of E_EMIT and D_COMMIT, with an output that fits OBUF. -/
theorem State.Running.deliver (h : s.Running p) {n : Word} (hn : n.toNat ≤ p.obufSize) :
    ((s.setOlen n).succeed).Inv p :=
  h.enter (st := .finish) (k := none) (olen := n) (by decide) (fun hne => absurd rfl hne) nofun (.inr ⟨rfl, rfl⟩) hn
    (s.ready_finish p)

/-! ### The operations of the stages -/

theorem State.Running.drew (h : s.Running p) (n : Nat) : (s.drew n).Running p := { h with }
theorem State.Running.setSalt (h : s.Running p) (bs : Bytes) : (s.setSalt bs).Running p := { h with }
theorem State.Running.setCrcr (h : s.Running p) (v : BitVec 32) : (s.setCrcr v).Running p := { h with }
theorem State.Running.sliceKeys (h : s.Running p) (dk : Bytes) : (s.sliceKeys dk).Running p := { h with }
theorem State.Running.keepDigest (h : s.Running p) (r : Bytes) : (s.keepDigest r).Running p := { h with }
theorem State.Running.setParsed (h : s.Running p) (n : Nat) (crc : BitVec 32) (usz : Word) :
    (s.setParsed n crc usz).Running p := { h with }
theorem State.Running.ctrInit (h : s.Running p) : (s.ctrInit).Running p := { h with ctrBound := Nat.zero_le _ }
theorem State.Running.setCtr (h : s.Running p) {c : BitVec 64} (hc : 16 * c.toNat ≤ p.cbufSize + 15) :
    (s.setCtr c).Running p := { h with ctrBound := hc }

/-- Storing into CBUF keeps its bytes below CBUF_SIZE when the string ends there. -/
theorem State.Running.putCbuf (h : s.Running p) {a : Nat} {bs : Bytes} (hfits : a + bs.length ≤ p.cbufSize) :
    (s.putCbuf a bs).Running p :=
  { h with
    cbufWf := Memory.wf_putBytes h.cbufWf a bs
    cbufIn := Memory.putBytes_within h.cbufWf h.cbufIn fun k hk => by omega }

/-- The compressed payload in CBUF, when it fits. -/
theorem State.Running.storePacked (h : s.Running p) {r : Bytes} (hfits : r.length ≤ p.cbufSize) :
    (s.storePacked r).Running p :=
  { h with
    cbufWf := Memory.wf_putBytes h.cbufWf 0 r
    cbufIn := Memory.putBytes_within h.cbufWf h.cbufIn fun k hk => by omega }

/-- Storing at the front of XBUF what fits OBUF. -/
theorem State.Running.putXbuf (h : s.Running p) {r : Bytes} (hfits : r.length ≤ p.obufSize) :
    (s.putXbuf 0 r).Running p :=
  { h with
    xbufWf := Memory.wf_putBytes h.xbufWf 0 r
    xbufIn := Memory.putBytes_within h.xbufWf h.xbufIn fun k hk => by omega }

/-- Storing into OBUF what ends there. -/
theorem State.Running.putObuf (h : s.Running p) {a : Nat} {bs : Bytes} (hbase : obufBase ≤ a)
    (hfits : a + bs.length ≤ obufBase + p.obufSize) : (s.putHost a bs).Running p :=
  { h with
    memWf := Memory.wf_putBytes h.memWf _ bs
    memIn := Memory.putBytes_within h.memWf h.memIn fun k hk => .inr (.inr (by omega)) }

/-- One block of the cipher, with the payload inside CBUF. -/
theorem State.Running.afterBlock (h : s.Running p) (hleft : s.blockBase < s.clen.toNat)
    (hfits : s.clen.toNat ≤ p.cbufSize) (hctr : s.ctr.toNat = s.bidx.toNat) : (s.afterBlock p).Running p :=
  { h with
    cbufWf := Memory.wf_putBytes h.cbufWf _ _
    cbufIn := Memory.putBytes_within h.cbufWf h.cbufIn fun k hk => by
      rw [length_xorLanes, laneCount] at hk
      omega
    ctrBound := by
      show 16 * (s.ctr + 1).toNat ≤ p.cbufSize + 15
      rw [State.blockBase] at hleft
      have : (s.ctr + 1).toNat ≤ s.ctr.toNat + 1 := by
        rw [BitVec.toNat_add]
        exact Nat.mod_le _ _
      omega }

end Running

/-! ### The stages -/

/-- The lengths that the demands of a stage speak of. -/
def State.lengths (s : State) : Word × Word × Word × Word := (s.ilen, s.pwlen, s.clen, s.usz)

/-- The cipher's counters. -/
def State.counters (s : State) : BitVec 64 × Word := (s.ctr, s.bidx)

/-- Whatever is asked of the lengths at the stage `st'` is asked at the stage `st`. -/
abbrev Stage.AsksNoMore (st' st : Stage) : Prop :=
  (st' ∈ operandStages → st ∈ operandStages) ∧ (st' ∈ packedStages → st ∈ packedStages) ∧
    (st' ∈ parsedStages → st ∈ parsedStages) ∧
    (st' ∈ [Stage.dCrc, Stage.dCommit] → st ∈ [Stage.dCrc, Stage.dCommit])

/-- A stage that asks no more of the lengths is ready as long as they stay and the counters are what it asks. -/
theorem State.Ready.recount {p : Platform} {s t : State} {st st' : Stage} (h : s.Ready p st)
    (hfresh : st' ∈ beforeCipherStages → t.ctr = 0 ∧ t.bidx = 0)
    (hruns : st' ∈ [Stage.eCipher, Stage.dCipher] →
      t.ctr.toNat = t.bidx.toNat ∧ (t.bidx = 0 ∨ 16 * t.bidx.toNat < t.clen.toNat))
    (hlen : t.lengths = s.lengths := by rfl) (hst : st'.AsksNoMore st := by decide) : t.Ready p st' := by
  obtain ⟨hops, hpacked, hparsed, husz⟩ := hst
  simp only [State.lengths, Prod.mk.injEq] at hlen
  obtain ⟨hilen, hpwlen, hclen, husz'⟩ := hlen
  exact
    { operands := fun hmem => by
        have hok := h.operands (hops hmem)
        rwa [State.operandsOk_iff, ← hilen, ← hpwlen, ← State.operandsOk_iff] at hok
      fresh := hfresh
      runs := hruns
      packed := fun hmem => by rw [hclen]; exact h.packed (hpacked hmem)
      parsed := fun hmem => by rw [hclen, hilen]; exact h.parsed (hparsed hmem)
      usz := fun hmem => by rw [husz']; exact h.usz (husz hmem) }

/-- A stage that asks no more at all is ready as long as the lengths and the counters stay. -/
theorem State.Ready.advance {p : Platform} {s t : State} {st st' : Stage} (h : s.Ready p st)
    (hlen : t.lengths = s.lengths := by rfl) (hcount : t.counters = s.counters := by rfl)
    (hst : st'.AsksNoMore st := by decide)
    (hst' : (st' ∈ beforeCipherStages → st ∈ beforeCipherStages) ∧ st' ∉ [Stage.eCipher, Stage.dCipher] := by decide) :
    t.Ready p st' := by
  refine h.recount (fun hmem => ?_) (fun hmem => absurd hmem hst'.2) hlen hst
  simp only [State.counters, Prod.mk.injEq] at hcount
  rw [hcount.1, hcount.2]
  exact h.fresh (hst'.1 hmem)

/-- Nothing is asked at a stage that is not on the list. -/
theorem Stage.not_asked {st : Stage} {l : List Stage} {P : Prop} (h : st ∉ l := by decide) : st ∈ l → P :=
  fun hmem => absurd hmem h

section Stages

variable {p : Platform} {s t : State}

/-- CTR_INIT leaves the counters as a cipher stage asks (41_ctr_cipher.md R151). -/
theorem State.Ready.ctrInit {st st' : Stage} (h : s.Ready p st) (hst : st'.AsksNoMore st := by decide) :
    s.ctrInit.Ready p st' :=
  h.recount (fun _ => ⟨rfl, rfl⟩) (fun _ => ⟨rfl, .inl rfl⟩) rfl hst

/-- Key derivation raises, or goes on as the command's own stage says. -/
theorem State.kdf_inv (h : s.Running p) {after : State → State}
    (hafter : ∀ u : State, u.Running p → u.lengths = s.lengths → u.counters = s.counters → (after u).Inv p) : (s.kdf p after).Inv p := by
  obtain ⟨-, heq⟩ | ⟨-, heq⟩ := State.kdf_cases p after s <;> rw [heq]
  · exact (h.drew _).raise .keyDerivation
  · exact hafter _ ((h.drew _).sliceKeys _) rfl rfl

/-- The operand check lets a command on with its operands in order. -/
theorem State.eCheck_inv (h : s.Running p) (hr : s.Ready p .eCheck) : (s.eCheck p).Inv p := by
  obtain ⟨hok, heq⟩ | ⟨-, heq⟩ := State.eCheck_cases p s <;> rw [heq]
  · exact h.goto ⟨fun _ => hok, fun _ => hr.fresh (by decide), Stage.not_asked, Stage.not_asked, Stage.not_asked,
      Stage.not_asked⟩
  · exact h.raise .params

theorem State.dCheck_inv (h : s.Running p) (hr : s.Ready p .dCheck) : (s.dCheck p).Inv p := by
  obtain ⟨hok, heq⟩ | ⟨-, heq⟩ := State.dCheck_cases p s <;> rw [heq]
  · exact h.goto ⟨fun _ => hok, fun _ => hr.fresh (by decide), Stage.not_asked, Stage.not_asked, Stage.not_asked,
      Stage.not_asked⟩
  · exact h.raise .params

theorem State.eCrc_inv (h : s.Running p) (hr : s.Ready p .eCrc) : (s.eCrc p).Inv p :=
  ((h.drew _).setCrcr _).goto hr.advance

/-- E_DEFLATE takes an answer only when it fits CBUF, and CLEN is then its length. -/
theorem State.eDeflate_inv (h : s.Running p) (hr : s.Ready p .eDeflate) : (s.eDeflate p).Inv p := by
  obtain ⟨-, heq⟩ | ⟨⟨-, hfits⟩, heq⟩ := State.eDeflate_cases p s <;> rw [heq]
  · exact (h.drew _).raise .compression
  · refine ((h.drew _).storePacked hfits).goto ⟨fun _ => hr.operands (by decide), fun _ => hr.fresh (by decide),
      Stage.not_asked, fun _ => ?_, Stage.not_asked, Stage.not_asked⟩
    rw [State.storePacked_clen, BitVec.toNat_ofNat]
    exact (Nat.mod_le _ _).trans hfits

theorem State.eSalt_inv (h : s.Running p) (hr : s.Ready p .eSalt) : (s.eSalt p).Inv p := by
  obtain ⟨-, heq⟩ | ⟨-, heq⟩ := State.eSalt_cases p s <;> rw [heq]
  · exact (h.drew _).raise .salt
  · exact ((h.drew _).setSalt _).goto hr.advance

theorem State.eKdf_inv (h : s.Running p) (hr : s.Ready p .eKdf) : (s.eKdf p).Inv p := by
  refine State.kdf_inv h fun u hu hlen hcount => ?_
  have hready : u.Ready p .eKdf := hr.advance hlen hcount
  exact hu.ctrInit.goto hready.ctrInit

theorem State.eHmac_inv (h : s.Running p) (hr : s.Ready p .eHmac) : (s.eHmac p).Inv p := by
  obtain ⟨-, heq⟩ | ⟨-, heq⟩ := State.eHmac_cases p s <;> rw [heq]
  · exact (h.drew _).raise .hmac
  · exact ((h.drew _).keepDigest _).goto hr.advance

/-- E_EMIT writes inside OBUF, since a payload that fits CBUF leaves room for the other 156 bytes (00_scope.md R11). -/
theorem State.eEmit_inv (hp : p.Bounded) (h : s.Running p) (hr : s.Ready p .eEmit) : (s.eEmit p).Inv p := by
  have hfits := hr.packed (by decide)
  have hroom := hp.obuf_ge
  have hwritten : (s.emitAll p).Running p := by
    rw [State.emitAll_eq_parts]
    refine ((h.putObuf (Nat.le_refl _) ?header).putObuf (by omega) ?central).putObuf (by omega) ?behind
    case header => rw [State.length_localHeader]; omega
    case central => rw [length_aeExtraBytes]; omega
    case behind => rw [State.length_behindLocalHeader]; omega
  refine hwritten.deliver ?_
  rw [BitVec.toNat_ofNat]
  exact (Nat.mod_le _ _).trans (by omega)

/-- D_FORMAT lets a command on with its payload inside the container. -/
theorem State.checkBounds_inv (h : s.Running p) (hr : s.Ready p .dFormat) : (s.checkBounds p).Inv p := by
  obtain ⟨-, heq⟩ | ⟨⟨hlow, hhigh⟩, heq⟩ := State.checkBounds_cases p s <;> rw [heq]
  · exact (h.drew _).raise .badFormat
  · refine ((h.drew _).setParsed _ _ _).goto ⟨fun _ => hr.operands (by decide), fun _ => hr.fresh (by decide),
      Stage.not_asked, Stage.not_asked, fun _ => ?_, Stage.not_asked⟩
    rw [State.setParsed_clen, State.setParsed_ilen, State.drew_ilen, BitVec.toNat_ofNat]
    exact (Nat.add_le_add_left (Nat.mod_le _ _) 73).trans hhigh

theorem State.checkAeExtra_inv (h : s.Running p) (hr : s.Ready p .dFormat) : (s.checkAeExtra p).Inv p := by
  obtain ⟨-, heq⟩ | ⟨-, heq⟩ := State.checkAeExtra_cases p s <;> rw [heq]
  · exact State.checkBounds_inv (h.drew 7) hr.advance
  · exact (h.drew 7).raise .badFormat

theorem State.checkLfh_inv (h : s.Running p) (hr : s.Ready p .dFormat) : (s.checkLfh p).Inv p := by
  obtain ⟨-, heq⟩ | ⟨-, heq⟩ := State.checkLfh_cases p s <;> rw [heq]
  · exact State.checkAeExtra_inv (h.drew 6) hr.advance
  · exact (h.drew 6).raise .badFormat

theorem State.dFormat_inv (hs : s.stage = Stage.dFormat.code) (h : s.Running p) (hr : s.Ready p .dFormat) :
    (s.dFormat p).Inv p := by
  obtain ⟨-, heq⟩ | ⟨-, -, heq⟩ | ⟨-, -, heq⟩ := State.dFormat_cases p s hs <;> rw [heq]
  · exact h.raise .badFormat
  · exact (h.drew 4).raise .badFormat
  · exact State.checkLfh_inv (h.drew 4) hr.advance

theorem State.dKdf_inv (h : s.Running p) (hr : s.Ready p .dKdf) : (s.dKdf p).Inv p :=
  State.kdf_inv ((h.drew 16).setSalt _) fun _ hu hlen hcount => hu.goto (hr.advance hlen hcount)

theorem State.dPvv_inv (h : s.Running p) (hr : s.Ready p .dPvv) : (s.dPvv p).Inv p := by
  obtain ⟨-, heq⟩ | ⟨-, heq⟩ := State.dPvv_cases p s <;> rw [heq]
  · exact (h.drew 2).goto hr.advance
  · exact (h.drew 2).raise .wrongPassword

theorem State.dTag_inv (h : s.Running p) (hr : s.Ready p .dTag) : (s.dTag p).Inv p := by
  have henter {u : State} (hu : u.Running p) (hlen : u.lengths = s.lengths) (hcount : u.counters = s.counters) :
      (u.enterCipher .dCipher).Inv p :=
    have hready : u.Ready p .dTag := hr.advance hlen hcount
    hu.ctrInit.goto hready.ctrInit
  obtain ⟨-, heq⟩ | ⟨-, -, heq⟩ | ⟨-, -, ⟨-, heq⟩ | ⟨-, heq⟩⟩ := State.dTag_cases p s <;> rw [heq]
  · exact henter h rfl rfl
  · exact (h.drew _).raise .hmac
  · exact henter (((h.drew _).keepDigest _).drew 10) rfl rfl
  · exact (((h.drew _).keepDigest _).drew 10).raise .tamper

theorem State.dInflate_inv (h : s.Running p) (hr : s.Ready p .dInflate) : (s.dInflate p).Inv p := by
  obtain ⟨-, heq⟩ | ⟨-, -, heq⟩ | ⟨hfits, ⟨-, hlen⟩, heq⟩ := State.dInflate_cases p s <;> rw [heq]
  · exact h.raise .compression
  · exact (h.drew 1).raise .compression
  · exact ((h.drew 1).putXbuf (by rwa [hlen])).goto ⟨fun _ => hr.operands (by decide), Stage.not_asked, Stage.not_asked,
      Stage.not_asked, fun _ => hr.parsed (by decide), fun _ => hfits⟩

theorem State.dCrc_inv (h : s.Running p) (hr : s.Ready p .dCrc) : (s.dCrc p).Inv p := by
  obtain ⟨-, heq⟩ | ⟨-, heq⟩ := State.dCrc_cases p s <;> rw [heq]
  · exact h.goto hr.advance
  · exact h.raise .integrity

theorem State.dCommit_inv (h : s.Running p) (hr : s.Ready p .dCommit) : s.dCommit.Inv p := by
  have hfits := hr.usz (by decide)
  exact (h.putObuf (Nat.le_refl _) (by rw [State.length_inflated]; omega)).deliver hfits

/-! ### The cipher -/

/-- The two cipher stages, each with the stage after it (42_encode.md R176, 43_decode.md R208). -/
abbrev CipherPair (here next : Stage) : Prop :=
  (here = .eCipher ∧ next = .eHmac) ∨ (here = .dCipher ∧ next = .dInflate)

/-- The counter never comes near its wrap (41_ctr_cipher.md R160). -/
theorem State.Running.ctr_ne (hp : p.Bounded) (h : s.Running p) : s.ctr ≠ BitVec.allOnes 64 := by
  have hbound := h.ctrBound
  have hobuf := hp.obuf_ge
  have hle := hp.obuf_le
  intro heq
  rw [heq, BitVec.toNat_allOnes] at hbound
  omega

/-- The counters after a block: they count the blocks, and neither wraps. -/
theorem State.afterBlock_counters (p : Platform) {s : State} (hleft : s.blockBase < s.clen.toNat)
    (hctr : s.ctr.toNat = s.bidx.toNat) :
    (s.afterBlock p).ctr.toNat = s.bidx.toNat + 1 ∧ (s.afterBlock p).bidx.toNat = s.bidx.toNat + 1 := by
  rw [State.blockBase] at hleft
  have hclen := s.clen.isLt
  rw [State.afterBlock_ctr, State.afterBlock_bidx]
  constructor <;> bv_omega

/-- A step of a cipher stage: what it asks stays true while blocks are left, and it never stops. -/
theorem State.ctrBlock_inv (hp : p.Bounded) {here next : Stage} (hpair : CipherPair here next) (hs : s.stage = here.code)
    (h : s.Running p) (hr : s.Ready p here) (hfits : s.clen.toNat ≤ p.cbufSize) :
    ∃ t, s.ctrBlock p next = .next t ∧ t.Inv p := by
  have hworks : here.Works ∧ next.Works := by
    obtain ⟨rfl, rfl⟩ | ⟨rfl, rfl⟩ := hpair <;> decide
  have hhere : here ∉ beforeCipherStages ∧ here ∈ [Stage.eCipher, Stage.dCipher] := by
    obtain ⟨rfl, -⟩ | ⟨rfl, -⟩ := hpair <;> decide
  have hnext : next ∉ beforeCipherStages ∧ next ∉ [Stage.eCipher, Stage.dCipher] ∧ next.AsksNoMore here := by
    obtain ⟨rfl, rfl⟩ | ⟨rfl, rfl⟩ := hpair <;> decide
  have hleave {u : State} (hu : u.Running p) (hlen : u.lengths = s.lengths) : (u.goto next).Inv p :=
    hu.goto (hr.recount (Stage.not_asked hnext.1) (Stage.not_asked hnext.2.1) hlen hnext.2.2) hworks.2
  obtain ⟨hctr, -⟩ := hr.runs hhere.2
  obtain ⟨-, heq⟩ | ⟨-, hwrap, -⟩ | ⟨hleft, -, -, heq⟩ | ⟨hleft, -, -, ⟨-, heq⟩ | ⟨hmore, heq⟩⟩ :=
    State.ctrBlock_cases p next s
  · exact ⟨_, heq, hleave h rfl⟩
  · exact absurd hwrap (h.ctr_ne hp)
  · refine ⟨_, heq, State.Running.raise ?_ .cipher⟩
    exact (h.drew 1).setCtr (h.afterBlock hleft hfits hctr).ctrBound
  · exact ⟨_, heq, hleave (h.afterBlock hleft hfits hctr) rfl⟩
  · refine ⟨_, heq, ?_⟩
    rw [← State.goto_self (s := s.afterBlock p) hs]
    have hruns : (s.afterBlock p).ctr.toNat = (s.afterBlock p).bidx.toNat ∧
        ((s.afterBlock p).bidx = 0 ∨ 16 * (s.afterBlock p).bidx.toNat < (s.afterBlock p).clen.toNat) := by
      obtain ⟨hctr', hbidx'⟩ := State.afterBlock_counters p hleft hctr
      rw [State.blockBase] at hmore
      exact ⟨hctr'.trans hbidx'.symm, .inr (by rw [hbidx', State.afterBlock_clen]; omega)⟩
    exact (h.afterBlock hleft hfits hctr).goto
      (hr.recount (Stage.not_asked hhere.1) (fun _ => hruns) rfl ⟨id, id, id, id⟩) hworks.1

/-- At the cipher stages the payload fits CBUF: E_DEFLATE checked it, or the container it lies in fits IBUF
(42_encode.md R173, 00_scope.md R11). -/
theorem State.Ready.payload_fits (hp : p.Bounded) {st : Stage} (hr : s.Ready p st)
    (hst : st = .eCipher ∨ st = .dCipher) : s.clen.toNat ≤ p.cbufSize := by
  obtain rfl | rfl := hst
  · exact hr.packed (by decide)
  · have hinside := hr.parsed (by decide)
    obtain ⟨-, -, hilen, -⟩ := (State.operandsOk_iff p s).mp (hr.operands (by decide))
    have hcbuf := hp.cbuf_ge
    omega

theorem State.eCipher_inv (hp : p.Bounded) (hs : s.stage = Stage.eCipher.code) (h : s.Running p)
    (hr : s.Ready p .eCipher) : ∃ t, s.eCipher p = .next t ∧ t.Inv p :=
  State.ctrBlock_inv hp (.inl ⟨rfl, rfl⟩) hs h hr (hr.payload_fits hp (.inl rfl))

/-- D_CIPHER's copy of the stored ciphertext lies inside CBUF. -/
theorem State.dCipher_inv (hp : p.Bounded) (hs : s.stage = Stage.dCipher.code) (h : s.Running p)
    (hr : s.Ready p .dCipher) : ∃ t, s.dCipher p = .next t ∧ t.Inv p := by
  have hfits := hr.payload_fits hp (.inr rfl)
  rw [State.dCipher]
  split
  · have hload : (s.loadCiphertext p).Running p := (h.drew _).putCbuf (by rwa [State.length_container, Nat.zero_add])
    exact State.ctrBlock_inv hp (.inr ⟨rfl, rfl⟩) (s := s.loadCiphertext p) hs hload
      (hr.recount Stage.not_asked hr.runs) hfits
  · exact State.ctrBlock_inv hp (.inr ⟨rfl, rfl⟩) hs h hr hfits

end Stages

/-! ### An idle block -/

/-- What the invariant asks of an idle block. -/
structure State.Resting (p : Platform) (s : State) : Prop where
  memWf : s.mem.wf hostBlank = true
  memIn : ∀ a v, s.mem.read? a = some v → inBuffers p a
  stage : s.stage = Stage.idle.code
  busy : s.busy = false
  err : s.err.toNat ≤ 11
  hookOff : p.testHook = false → s.tbyp = false
  wiped : s.Wiped
  raised : s.raised = none
  olenFits : s.olen.toNat ≤ p.obufSize

section Resting

variable {p : Platform} {s : State}

/-- The invariant on an idle block. -/
theorem State.Inv.resting (h : s.Inv p) (hb : s.busy = false) : s.Resting p where
  memWf := h.memWf
  memIn := h.memIn
  stage := h.stage_of_idle hb
  busy := hb
  err := h.errLegal
  hookOff := h.hookOff
  wiped := h.idleWiped hb
  raised := h.raisedAtFinish (h.stage_of_idle hb ▸ by decide)
  olenFits := h.olenFits

/-- An idle block that meets these demands meets the invariant: its buffers are empty and its counters 0. -/
theorem State.Resting.inv (h : s.Resting p) : s.Inv p := by
  have hin {l : List Stage} {P : Prop} (hl : Stage.idle ∉ l) (hmem : s.stageIn l) : P :=
    absurd ((State.stageIn_iff h.stage l).mp hmem) hl
  have hcbuf : s.cbuf = [] := congrArg State.cbuf h.wiped.symm
  have hxbuf : s.xbuf = [] := congrArg State.xbuf h.wiped.symm
  have hctr : s.ctr = 0 := congrArg State.ctr h.wiped.symm
  have hbusy : s.busy ≠ true := by rw [h.busy]; exact Bool.false_ne_true
  exact
    { memWf := h.memWf, memIn := h.memIn
      cbufWf := by rw [hcbuf]; rfl
      cbufIn := by rw [hcbuf]; exact nofun
      xbufWf := by rw [hxbuf]; rfl
      xbufIn := by rw [hxbuf]; exact nofun
      stageLegal := h.stage ▸ Stage.code_le _
      busyStage := by rw [h.busy, h.stage]; rfl
      doneIdle := fun _ => h.busy
      errLegal := h.err
      errBusy := fun hb => absurd hb hbusy
      hookOff := h.hookOff
      idleWiped := fun _ => h.wiped
      raisedAtFinish := fun _ => h.raised
      raisedKind := by rw [h.raised]; exact nofun
      olenBusy := fun hb => absurd hb hbusy
      olenFits := h.olenFits
      operands := hin (by decide)
      cipherFresh := hin (by decide)
      cipherRuns := hin (by decide)
      ctrBound := by rw [hctr]; exact Nat.zero_le _
      packedFits := hin (by decide)
      parsedFits := hin (by decide)
      uszFits := hin (by decide) }

/-- Every reported code is one of R260's. -/
theorem finishCode_le (k : Option ErrKind) : (finishCode k).toNat ≤ 11 := by
  cases k with
  | none => decide
  | some k => cases k <;> decide

/-- FINISH leaves a good idle block. -/
theorem State.finish_resting (h : s.Inv p) : s.finish.Resting p where
  memWf := h.memWf
  memIn := h.memIn
  stage := rfl
  busy := rfl
  err := finishCode_le s.raised
  hookOff := h.hookOff
  wiped := s.finish_wiped
  raised := rfl
  olenFits := by
    rw [State.finish_olen]
    cases s.raised with
    | none => exact h.olenFits
    | some k => exact Nat.zero_le _

/-- Reset leaves a good idle block. -/
theorem State.resetBlock_resting (p : Platform) (s : State) : s.resetBlock.Resting p where
  memWf := rfl
  memIn := nofun
  stage := rfl
  busy := rfl
  err := Nat.zero_le _
  hookOff _ := rfl
  wiped := rfl
  raised := rfl
  olenFits := Nat.zero_le _

/-- Settles O58. -/
theorem resetIsAGoodState : Obligations.ResetIsAGoodState :=
  (State.reset.resetBlock_resting Config.platform).inv

end Resting

/-! ### The engine -/

/-- Every engine step from a good state leads to a good state. -/
theorem State.Inv.engine {p : Platform} (hp : p.Bounded) {s : State} (h : s.Inv p) :
    ∃ t, s.engine p = .next t ∧ t.Inv p := by
  obtain ⟨st, hs⟩ := Stage.exists_of_le h.stageLegal
  rw [State.engine_of_stage hs]
  by_cases hidle : st = .idle
  · subst hidle
    exact ⟨s, rfl, h⟩
  by_cases hfinish : st = .finish
  · subst hfinish
    exact ⟨_, rfl, (State.finish_resting h).inv⟩
  have hrun := h.running hs ⟨hidle, hfinish⟩
  have hr := h.ready hs
  cases st with
  | idle => exact absurd rfl hidle
  | finish => exact absurd rfl hfinish
  | eCheck => exact ⟨_, rfl, State.eCheck_inv hrun hr⟩
  | eCrc => exact ⟨_, rfl, State.eCrc_inv hrun hr⟩
  | eDeflate => exact ⟨_, rfl, State.eDeflate_inv hrun hr⟩
  | eSalt => exact ⟨_, rfl, State.eSalt_inv hrun hr⟩
  | eKdf => exact ⟨_, rfl, State.eKdf_inv hrun hr⟩
  | eCipher => exact State.eCipher_inv hp hs hrun hr
  | eHmac => exact ⟨_, rfl, State.eHmac_inv hrun hr⟩
  | eEmit => exact ⟨_, rfl, State.eEmit_inv hp hrun hr⟩
  | dCheck => exact ⟨_, rfl, State.dCheck_inv hrun hr⟩
  | dFormat => exact ⟨_, rfl, State.dFormat_inv hs hrun hr⟩
  | dKdf => exact ⟨_, rfl, State.dKdf_inv hrun hr⟩
  | dPvv => exact ⟨_, rfl, State.dPvv_inv hrun hr⟩
  | dTag => exact ⟨_, rfl, State.dTag_inv hrun hr⟩
  | dCipher => exact State.dCipher_inv hp hs hrun hr
  | dInflate => exact ⟨_, rfl, State.dInflate_inv hrun hr⟩
  | dCrc => exact ⟨_, rfl, State.dCrc_inv hrun hr⟩
  | dCommit => exact ⟨_, rfl, State.dCommit_inv hrun hr⟩

/-! ### The host -/

section HostAccess

variable {p : Platform} {s : State}

/-- An update that leaves the internal registers leaves the block wiped. -/
theorem State.Wiped.map (h : s.Wiped) (f : State → State) (hf : (f s).wipe = f s.wipe := by rfl) : (f s).Wiped :=
  hf.trans (congrArg f h)

/-- The invariant says nothing of the port's answer, the host's operations, the turns and the draws. -/
theorem State.Inv.withInputs (h : s.Inv p) (last : Option Access) (host : List HostOp) (turns : List Turn) (draws : Nat) :
    ({ s with last := last, host := host, turns := turns, draws := draws } : State).Inv p :=
  { h with
    idleWiped := fun hb =>
      (h.idleWiped hb).map fun u => { u with last := last, host := host, turns := turns, draws := draws } }

theorem State.Inv.respond (h : s.Inv p) (op : BusOp) (okay : Bool) (data : Word) : (s.respond op okay data).Inv p :=
  h.withInputs _ s.host s.turns s.draws

theorem State.Inv.setHost (h : s.Inv p) (hs : List HostOp) : (s.setHost hs).Inv p :=
  h.withInputs s.last hs s.turns s.draws

theorem State.Inv.setTurns (h : s.Inv p) (ts : List Turn) : (s.setTurns ts).Inv p :=
  h.withInputs s.last s.host ts s.draws

/-- A register write on an idle block. -/
theorem State.Resting.writeRegister (h : s.Resting p) (a : Nat) (v : Word) : (s.writeRegister p a v).Resting p := by
  have hctrl : (s.writeCtrl p v).Resting p :=
    { h with
      hookOff := fun hoff => by rw [State.writeCtrl_tbyp, hoff]; exact h.hookOff hoff
      wiped := h.wiped.map (·.writeCtrl p v) }
  have hdone : s.clearDone.Resting p := { h with wiped := h.wiped.map (·.clearDone) }
  have hilen : (s.setIlen v).Resting p := { h with wiped := h.wiped.map (·.setIlen v) }
  have hpwlen : (s.setPwlen v).Resting p := { h with wiped := h.wiped.map (·.setPwlen v) }
  simp only [State.writeRegister, State.writeStatus]
  split_ifs <;> assumption

/-- New bytes in PBUF or IBUF of an idle block. -/
theorem State.Resting.putHost (h : s.Resting p) {a : Nat} {bs : Bytes} (hrange : ∀ k, k < bs.length → inBuffers p (a + k)) :
    (s.putHost a bs).Resting p :=
  { h with
    memWf := Memory.wf_putBytes h.memWf a bs
    memIn := Memory.putBytes_within h.memWf h.memIn hrange
    wiped := h.wiped.map (·.putHost a bs) }

/-- A command that ends at once. -/
theorem State.Resting.endBadCommand (h : s.Resting p) : s.endBadCommand.Resting p :=
  { h with
    err := by show ErrKind.badCommand.code.toNat ≤ 11; decide
    wiped := h.wiped.map (·.endBadCommand)
    olenFits := Nat.zero_le _ }

/-- A command that starts finds the counters at 0, as WIPE or reset left them. -/
theorem State.Resting.startCommand (h : s.Resting p) {first : Stage} (hfirst : first = .eCheck ∨ first = .dCheck) :
    (s.startCommand first).Inv p := by
  have hwiped := h.wiped.symm
  have hctr : s.ctr = 0 := congrArg State.ctr hwiped
  have hbidx : s.bidx = 0 := congrArg State.bidx hwiped
  have hrun : (s.startCommand first).Running p :=
    { h.inv with
      busy := rfl, done := rfl, err := rfl, raised := h.raised, olen := rfl }
  have hr : (s.startCommand first).Ready p first := by
    obtain rfl | rfl := hfirst <;> exact ⟨Stage.not_asked, fun _ => ⟨hctr, hbidx⟩, Stage.not_asked, Stage.not_asked,
      Stage.not_asked, Stage.not_asked⟩
  have hworks : first.Works := by
    obtain rfl | rfl := hfirst <;> decide
  exact hrun.goto hr hworks

/-- A command's dispatch on an idle block. -/
theorem State.Resting.command (h : s.Resting p) {v : Word} {t : State} (ht : exec (decodeCommand v) s = .next t) :
    t.Inv p := by
  rw [exec_decodeCommand_idle h.busy] at ht
  cases ht
  split_ifs
  · exact h.inv
  · exact h.startCommand (.inl rfl)
  · exact h.startCommand (.inr rfl)
  · exact h.endBadCommand.inv

end HostAccess

/-- An access from a good state answers a good state. -/
theorem State.Inv.access {s : State} (h : s.Inv Config.platform) (op : BusOp) :
    ∃ t, s.access op = .next t ∧ t.Inv Config.platform := by
  have hanswers := s.access_answers op
  generalize s.access op = r at hanswers ⊢
  cases hanswers with
  | busErr => exact ⟨_, rfl, h.respond op false 0⟩
  | register v => exact ⟨_, rfl, h.respond op true v⟩
  | errCode hcode => exact absurd h.errLegal (by omega)
  | load => exact ⟨_, rfl, (h.withInputs _ s.host s.turns _).respond op true _⟩
  | command hidle v =>
    obtain ⟨t, ht⟩ := exec_decodeCommand_next v (s.respond op true 0)
    exact ⟨t, ht, ((h.respond op true 0).resting hidle).command ht⟩
  | store hidle a v => exact ⟨_, rfl, ((h.resting hidle).writeRegister a v).inv.respond op true 0⟩
  | fill hidle v hrange => exact ⟨_, rfl, ((h.resting hidle).putHost hrange).inv.respond op true 0⟩

/-- The host's turn from a good state answers a good state. -/
theorem State.Inv.hostTurn {s : State} (h : s.Inv Config.platform) :
    ∃ t, s.hostTurn = .next t ∧ t.Inv Config.platform := by
  cases hhost : s.host with
  | nil => exact ⟨s, State.hostTurn_nil hhost, h⟩
  | cons op rest =>
    cases op with
    | bus op =>
      rw [State.hostTurn_bus hhost]
      exact (h.setHost rest).access op
    | poll a mask val =>
      obtain ⟨t, ht, hinv⟩ := h.access (.read a 4)
      rw [State.hostTurn_poll hhost, ht]
      refine ⟨_, rfl, ?_⟩
      split_ifs
      · exact hinv.setHost rest
      · exact hinv

/-! ### A step -/

/-- Every step from a good state answers a good state. -/
theorem State.Inv.step {s : State} (h : s.Inv Config.platform) :
    ∃ t, Machine.step s = .next t ∧ t.Inv Config.platform := by
  obtain ⟨ts, hmoves⟩ | ⟨ts, hmoves⟩ | ⟨ts, hstall⟩ | ⟨b, ts, hreset⟩ := step_cases s
  · rw [step_host hmoves]
    exact (h.setTurns ts).hostTurn
  · rw [step_engine hmoves, State.engineTurn_eq_engine]
    exact (h.setTurns ts).engine Config.platform_bounded
  · exact ⟨_, step_stall hstall, h.setTurns ts⟩
  · refine ⟨_, step_reset hreset, ?_⟩
    have hinv := (State.resetBlock_resting Config.platform (s.setTurns ts)).inv
    cases b with
    | false => exact hinv
    | true => exact hinv.setHost _

/-- Settles O59. -/
theorem stepKeepsGoodStates : Obligations.StepKeepsGoodStates := by
  intro s t h hstep
  obtain ⟨u, hu, hinv⟩ := h.step
  rw [hstep] at hu
  cases hu
  exact hinv

/-- Settles O60. -/
theorem goodStatesNeverStop : Obligations.GoodStatesNeverStop := by
  intro s h
  obtain ⟨t, ht, -⟩ := h.step
  exact ⟨t, ht⟩

end Sys2Proof.Machine

/-! PROOFS. What an engine step leaves, stage by stage: the kind it raises or the stage after it, and the host buffers; that a
command ends, and what FINISH reports. -/

namespace Sys2Proof.Machine

/-! ### FINISH -/

/-- The codes of 60_exceptions.md R260. -/
theorem toNat_finishCode (k : Option ErrKind) :
    (finishCode k).toNat =
      (match k with
       | none => 0 | some .params => 1 | some .salt => 2 | some .keyDerivation => 3 | some .compression => 4
       | some .cipher => 5 | some .hmac => 6 | some .badFormat => 7 | some .wrongPassword => 8 | some .tamper => 9
       | some .integrity => 10 | some .badCommand => 11) := by
  cases k with
  | none => rfl
  | some k => cases k <;> rfl

/-- OLEN is kept on success alone. -/
theorem finishOlen_eq (olen : Word) (k : Option ErrKind) : finishOlen olen k = if k = none then olen else 0 := by
  cases k <;> rfl

/-- Settles O40. -/
theorem finishReportsAndWipes : Obligations.FinishReportsAndWipes := by
  intro p s hstage
  have hstep : s.engine p = .next s.finish := State.engine_of_stage hstage
  have hnothing : ∀ k, Memory.inner [] k = 0 := fun _ => rfl
  exact ⟨s.finish, hstep, toNat_finishCode s.raised, finishOlen_eq s.olen s.raised, rfl, rfl, rfl, rfl, rfl, rfl, rfl, rfl,
    rfl, rfl, rfl, hnothing, hnothing, rfl, rfl, rfl, rfl, rfl, rfl, rfl, rfl, rfl, rfl, rfl, rfl, rfl, rfl, rfl⟩

/-! ### What a working stage can leave -/

/-- The kinds each stage raises (60_exceptions.md R260, R264). -/
def Stage.kinds : Stage → List ErrKind
  | .eCheck | .dCheck => [.params]
  | .eDeflate | .dInflate => [.compression]
  | .eSalt => [.salt]
  | .eKdf | .dKdf => [.keyDerivation]
  | .eCipher | .dCipher => [.cipher]
  | .eHmac => [.hmac]
  | .dFormat => [.badFormat]
  | .dPvv => [.wrongPassword]
  | .dTag => [.hmac, .tamper]
  | .dCrc => [.integrity]
  | .idle | .eCrc | .eEmit | .dCommit | .finish => []

/-- The stage each stage goes on to (42_encode.md R170, 43_decode.md R200). -/
def Stage.next : Stage → Stage
  | .eCheck => .eCrc
  | .eCrc => .eDeflate
  | .eDeflate => .eSalt
  | .eSalt => .eKdf
  | .eKdf => .eCipher
  | .eCipher => .eHmac
  | .eHmac => .eEmit
  | .dCheck => .dFormat
  | .dFormat => .dKdf
  | .dKdf => .dPvv
  | .dPvv => .dTag
  | .dTag => .dCipher
  | .dCipher => .dInflate
  | .dInflate => .dCrc
  | .dCrc => .dCommit
  | .eEmit | .dCommit => .finish
  | .finish | .idle => .idle

/-- The host buffers and the turns to come, which no stage touches but those that deliver an output. -/
def State.hostSide (s : State) : Memory × List Turn := (s.mem, s.turns)

/-- What a step at the working stage `st` leaves: a kind of its own raised; the next stage; the same cipher stage, one block on; or
the output in OBUF and success. -/
inductive State.Leaves (s : State) (st : Stage) (t : State) : Prop where
  | raised (k : ErrKind) (hk : k ∈ st.kinds) (hraised : t.raised = some k) (hstage : t.stage = Stage.finish.code)
      (hside : t.hostSide = s.hostSide)
  | wentOn (hraised : t.raised = s.raised) (hstage : t.stage = st.next.code) (hside : t.hostSide = s.hostSide)
  | repeated (hst : st = .eCipher ∨ st = .dCipher) (hleft : s.blockBase + 16 < s.clen.toNat)
      (hraised : t.raised = s.raised) (hstage : t.stage = st.code) (hside : t.hostSide = s.hostSide)
      (hbidx : t.bidx = s.bidx + 1)
  | delivered (hst : st = .eEmit ∨ st = .dCommit) (hraised : t.raised = none) (hstage : t.stage = Stage.finish.code)
      (hmem : ∀ a, a < obufBase → t.mem.read? a = s.mem.read? a) (hturns : t.turns = s.turns)

section Leaves

variable {p : Platform} {s t : State} {st : Stage}

/-- `raise` of one of the stage's kinds. -/
theorem State.Leaves.raise {k : ErrKind} (hside : t.hostSide = s.hostSide := by rfl)
    (hk : k ∈ st.kinds := by decide) : s.Leaves st (t.raise k) :=
  .raised k hk rfl rfl hside

/-- Going on to the next stage. -/
theorem State.Leaves.goto (hraised : t.raised = s.raised := by rfl) (hside : t.hostSide = s.hostSide := by rfl) :
    s.Leaves st (t.goto st.next) :=
  .wentOn hraised rfl hside

/-- CTR_INIT on entry to a cipher stage leaves the host's side. -/
theorem State.Leaves.enterCipher (hraised : t.raised = s.raised) (hside : t.hostSide = s.hostSide) :
    s.Leaves st (t.enterCipher st.next) :=
  .wentOn hraised rfl hside

/-- What a step leaves is said of the host's side, the kind and the cipher's progress before it, and of nothing else. -/
theorem State.Leaves.congr {u : State} (h : u.Leaves st t) (hside : u.hostSide = s.hostSide := by rfl)
    (hraised : u.raised = s.raised := by rfl) (hbidx : u.bidx = s.bidx := by rfl) (hclen : u.clen = s.clen := by rfl) :
    s.Leaves st t := by
  cases h with
  | raised k hk hraised' hstage hside' => exact .raised k hk hraised' hstage (hside'.trans hside)
  | wentOn hraised' hstage hside' => exact .wentOn (hraised'.trans hraised) hstage (hside'.trans hside)
  | repeated hst hleft hraised' hstage hside' hbidx' =>
    rw [State.blockBase, hbidx, hclen] at hleft
    exact .repeated hst hleft (hraised'.trans hraised) hstage (hside'.trans hside) (by rw [hbidx', hbidx])
  | delivered hst hraised' hstage hmem hturns =>
    have hmem' : u.mem = s.mem := congrArg Prod.fst hside
    exact .delivered hst hraised' hstage (hmem' ▸ hmem) (hturns.trans (congrArg Prod.snd hside))

/-- The turns to come are outside the block. -/
theorem State.Leaves.turns (h : s.Leaves st t) : t.turns = s.turns := by
  cases h with
  | raised _ _ _ _ hside | wentOn _ _ hside | repeated _ _ _ _ hside => exact congrArg Prod.snd hside
  | delivered _ _ _ _ hturns => exact hturns

/-- Key derivation raises, or goes on as the command's own stage says. -/
theorem State.kdf_leaves {after : State → State} (hk : .keyDerivation ∈ st.kinds)
    (hafter : ∀ u : State, u.raised = s.raised → u.hostSide = s.hostSide → s.Leaves st (after u)) :
    s.Leaves st (s.kdf p after) := by
  obtain ⟨-, heq⟩ | ⟨-, heq⟩ := State.kdf_cases p after s <;> rw [heq]
  · exact .raise rfl hk
  · exact hafter _ rfl rfl

/-- A block of the cipher. -/
theorem State.ctrBlock_leaves (hpair : CipherPair st st.next) (hs : s.stage = st.code)
    (h : s.ctrBlock p st.next = .next t) : s.Leaves st t := by
  have hk : ErrKind.cipher ∈ st.kinds := by
    obtain ⟨rfl, -⟩ | ⟨rfl, -⟩ := hpair <;> decide
  have hst : st = .eCipher ∨ st = .dCipher := hpair.imp And.left And.left
  obtain ⟨-, heq⟩ | ⟨-, -, heq⟩ | ⟨-, -, -, heq⟩ | ⟨-, -, -, ⟨-, heq⟩ | ⟨hleft, heq⟩⟩ :=
    State.ctrBlock_cases p st.next s
  all_goals rw [heq] at h; cases h
  · exact .goto
  · exact .raise rfl hk
  · exact .goto
  · exact .repeated hst hleft rfl hs rfl rfl

theorem State.checkBounds_leaves : s.Leaves .dFormat (s.checkBounds p) := by
  obtain ⟨-, heq⟩ | ⟨-, heq⟩ := State.checkBounds_cases p s <;> rw [heq]
  · exact .raise
  · exact .goto

theorem State.checkAeExtra_leaves : s.Leaves .dFormat (s.checkAeExtra p) := by
  obtain ⟨-, heq⟩ | ⟨-, heq⟩ := State.checkAeExtra_cases p s <;> rw [heq]
  · exact State.checkBounds_leaves.congr
  · exact .raise

theorem State.checkLfh_leaves : s.Leaves .dFormat (s.checkLfh p) := by
  obtain ⟨-, heq⟩ | ⟨-, heq⟩ := State.checkLfh_cases p s <;> rw [heq]
  · exact State.checkAeExtra_leaves.congr
  · exact .raise

theorem State.dTag_leaves : s.Leaves .dTag (s.dTag p) := by
  have hsame (n : Nat) (r : Bytes) : (((s.drew n).keepDigest r).drew 10).raised = s.raised ∧
      (((s.drew n).keepDigest r).drew 10).hostSide = s.hostSide := ⟨rfl, rfl⟩
  obtain ⟨-, heq⟩ | ⟨-, -, heq⟩ | ⟨-, -, ⟨-, heq⟩ | ⟨-, heq⟩⟩ := State.dTag_cases p s <;> rw [heq]
  · exact .enterCipher rfl rfl
  · exact .raise
  · exact .enterCipher (hsame _ _).1 (hsame _ _).2
  · exact .raise (hsame _ _).2

/-- D_CIPHER: the copy of the ciphertext before the first block changes CBUF and the draws alone. -/
theorem State.dCipher_leaves (hs : s.stage = Stage.dCipher.code) (h : s.dCipher p = .next t) : s.Leaves .dCipher t := by
  rw [State.dCipher] at h
  split at h
  · exact (State.ctrBlock_leaves (s := s.loadCiphertext p) (by decide) hs h).congr
  · exact State.ctrBlock_leaves (by decide) hs h

/-- E_EMIT writes nothing below OBUF. -/
theorem State.eEmit_leaves : s.Leaves .eEmit (s.eEmit p) := by
  have honly := State.eEmit_only p s
  refine .delivered (.inl rfl) (congrArg State.raised honly) (congrArg State.stage honly) (fun a ha => ?_)
    (congrArg State.turns honly :)
  rw [State.eEmit_mem]
  exact State.emitAll_read? p s a (.inl ha)

/-- D_COMMIT writes nothing below OBUF. -/
theorem State.dCommit_leaves : s.Leaves .dCommit s.dCommit :=
  .delivered (.inr rfl) rfl rfl (fun a ha => s.dCommit_read? a (.inl ha)) rfl

/-- Every step at a working stage. -/
theorem State.runStage_leaves (hworks : st.Works) (hs : s.stage = st.code) (h : s.runStage p st = .next t) :
    s.Leaves st t := by
  cases st with
  | idle => exact absurd rfl hworks.1
  | finish => exact absurd rfl hworks.2
  | eCheck =>
    cases h
    obtain ⟨-, heq⟩ | ⟨-, heq⟩ := State.eCheck_cases p s <;> rw [heq]
    · exact .goto
    · exact .raise
  | eCrc => cases h; exact .goto
  | eDeflate =>
    cases h
    obtain ⟨-, heq⟩ | ⟨-, heq⟩ := State.eDeflate_cases p s <;> rw [heq]
    · exact .raise
    · exact .goto
  | eSalt =>
    cases h
    obtain ⟨-, heq⟩ | ⟨-, heq⟩ := State.eSalt_cases p s <;> rw [heq]
    · exact .raise
    · exact .goto
  | eKdf => cases h; exact State.kdf_leaves (by decide) fun _ hraised hside => .enterCipher hraised hside
  | eCipher => exact State.ctrBlock_leaves (by decide) hs h
  | eHmac =>
    cases h
    obtain ⟨-, heq⟩ | ⟨-, heq⟩ := State.eHmac_cases p s <;> rw [heq]
    · exact .raise
    · exact .goto
  | eEmit => cases h; exact State.eEmit_leaves
  | dCheck =>
    cases h
    obtain ⟨-, heq⟩ | ⟨-, heq⟩ := State.dCheck_cases p s <;> rw [heq]
    · exact .goto
    · exact .raise
  | dFormat =>
    cases h
    obtain ⟨-, heq⟩ | ⟨-, -, heq⟩ | ⟨-, -, heq⟩ := State.dFormat_cases p s hs <;> rw [heq]
    · exact .raise
    · exact .raise
    · exact State.checkLfh_leaves.congr
  | dKdf =>
    cases h
    have hkdf := State.kdf_leaves (p := p) (s := (s.drew 16).setSalt (s.container p 45 16)) (st := .dKdf) (by decide)
      fun _ hraised hside => .goto hraised hside
    exact hkdf.congr
  | dPvv =>
    cases h
    obtain ⟨-, heq⟩ | ⟨-, heq⟩ := State.dPvv_cases p s <;> rw [heq]
    · exact .goto
    · exact .raise
  | dTag => cases h; exact State.dTag_leaves
  | dCipher => exact State.dCipher_leaves hs h
  | dInflate =>
    cases h
    obtain ⟨-, heq⟩ | ⟨-, -, heq⟩ | ⟨-, -, heq⟩ := State.dInflate_cases p s <;> rw [heq]
    · exact .raise
    · exact .raise
    · exact .goto
  | dCrc =>
    cases h
    obtain ⟨-, heq⟩ | ⟨-, heq⟩ := State.dCrc_cases p s <;> rw [heq]
    · exact .goto
    · exact .raise
  | dCommit => cases h; exact State.dCommit_leaves

end Leaves

/-- An engine step is made at IDLE, at FINISH or at a working stage. -/
theorem State.engine_cases {p : Platform} {s t : State} (h : s.engine p = .next t) :
    (s.stage = Stage.idle.code ∧ t = s) ∨ (s.stage = Stage.finish.code ∧ t = s.finish) ∨
      ∃ st : Stage, st.Works ∧ s.stage = st.code ∧ s.Leaves st t := by
  obtain ⟨st, hs, hrun⟩ := State.stage_of_engine h
  by_cases hidle : st = .idle
  · subst hidle
    cases hrun
    exact .inl ⟨hs, rfl⟩
  by_cases hfinish : st = .finish
  · subst hfinish
    cases hrun
    exact .inr (.inl ⟨hs, rfl⟩)
  · exact .inr (.inr ⟨st, ⟨hidle, hfinish⟩, hs, State.runStage_leaves ⟨hidle, hfinish⟩ hs hrun⟩)

/-- Settles O41: a kind raised in the step is one of the stage's own. -/
theorem eachStageRaisesItsOwnKinds : Obligations.EachStageRaisesItsOwnKinds := by
  intro p s t k hnone hstep hk
  obtain ⟨-, rfl⟩ | ⟨-, rfl⟩ | ⟨st, -, hs, hleaves⟩ := State.engine_cases hstep
  · rw [hnone] at hk
    cases hk
  · cases hk
  · cases hleaves with
    | wentOn hraised | repeated _ _ hraised =>
      rw [hraised, hnone] at hk
      cases hk
    | delivered _ hraised =>
      rw [hraised] at hk
      cases hk
    | raised k' hk' hraised hstage =>
      rw [hraised] at hk
      cases hk
      refine ⟨hstage, ?_⟩
      rw [hs]
      cases st with
      | idle | eCrc | eEmit | dCommit | finish => cases hk'
      | dTag =>
        obtain rfl | rfl : k = .hmac ∨ k = .tamper := by simpa [Stage.kinds] using hk'
        · decide
        · decide
      | _ =>
        cases List.mem_singleton.mp hk'
        decide

/-- Settles O42: `Leaves` says so of every working stage, and FINISH leaves the host buffers. -/
theorem onlyTwoStagesWriteTheHostBuffers : Obligations.OnlyTwoStagesWriteTheHostBuffers := by
  intro p s t hstep
  obtain ⟨-, rfl⟩ | ⟨-, rfl⟩ | ⟨st, -, hs, hleaves⟩ := State.engine_cases hstep
  · exact ⟨fun _ _ => rfl, fun _ _ => rfl⟩
  · exact ⟨fun _ _ => rfl, fun _ _ => rfl⟩
  · cases hleaves with
    | raised _ _ _ _ hside | wentOn _ _ hside | repeated _ _ _ _ hside =>
      have hmem : t.mem = s.mem := congrArg Prod.fst hside
      rw [hmem]
      exact ⟨fun _ _ => rfl, fun _ _ => rfl⟩
    | delivered hst _ _ hmem =>
      refine ⟨hmem, fun hemit hcommit => ?_⟩
      obtain rfl | rfl := hst
      · exact absurd hs hemit
      · exact absurd hs hcommit

/-! ### A command ends -/

/-- How many stages a command is from its end, FINISH included. -/
def Stage.distance : Stage → Nat
  | .idle => 0
  | .finish => 1
  | .eEmit | .dCommit => 2
  | .eHmac | .dCrc => 3
  | .eCipher | .dInflate => 4
  | .eKdf | .dCipher => 5
  | .eSalt | .dTag => 6
  | .eDeflate | .dPvv => 7
  | .eCrc | .dKdf => 8
  | .eCheck | .dFormat => 9
  | .dCheck => 10

/-- The blocks that a command at this stage may still repeat its cipher stage for, of at most `blocks`. -/
def State.blocksLeft (blocks : Nat) (s : State) (st : Stage) : Nat :=
  if st ∈ beforeCipherStages then blocks
  else if st ∈ [Stage.eCipher, Stage.dCipher] then blocks - s.bidx.toNat
  else 0

/-- A bound on the engine steps that a command at this stage has before it. -/
def State.stepsLeft (blocks : Nat) (s : State) (st : Stage) : Nat := st.distance + s.blocksLeft blocks st

/-- The stage after a working stage is one nearer to the end. -/
theorem Stage.distance_next {st : Stage} (h : st.Works) : st.next.distance < st.distance := by
  cases st with
  | idle => exact absurd rfl h.1
  | finish => exact absurd rfl h.2
  | _ => decide

/-- The cipher's blocks come after the stages before it and are gone behind it. -/
theorem State.blocksLeft_next (blocks : Nat) (s t : State) (st : Stage) :
    t.blocksLeft blocks st.next ≤ s.blocksLeft blocks st := by
  have hbefore : st.next ∈ beforeCipherStages ∨ st.next ∈ [Stage.eCipher, Stage.dCipher] → st ∈ beforeCipherStages := by
    cases st <;> decide
  simp only [State.blocksLeft]
  split_ifs with hnext hst hcipher hst' <;> grind

/-- A working stage has FINISH before it. -/
theorem Stage.one_lt_distance {st : Stage} (h : st.Works) : 1 < st.distance := by
  cases st with
  | idle => exact absurd rfl h.1
  | finish => exact absurd rfl h.2
  | _ => decide

/-- A step at a working stage brings a command nearer to its end. -/
theorem State.Leaves.stepsLeft_lt {s t : State} {st : Stage} {blocks : Nat} (hworks : st.Works) (h : s.Leaves st t)
    (hblocks : st = .eCipher ∨ st = .dCipher → s.clen.toNat ≤ 16 * blocks) :
    ∃ st', st' ≠ .idle ∧ t.stage = st'.code ∧ t.stepsLeft blocks st' < s.stepsLeft blocks st := by
  have hfinish : t.stepsLeft blocks .finish < s.stepsLeft blocks st := by
    have := Stage.one_lt_distance hworks
    exact Nat.lt_add_right _ this
  cases h with
  | raised _ _ _ hstage | delivered _ _ hstage => exact ⟨.finish, by decide, hstage, hfinish⟩
  | wentOn _ hstage =>
    have hnext : st.next ≠ .idle := by
      cases st with
      | idle => exact absurd rfl hworks.1
      | finish => exact absurd rfl hworks.2
      | _ => decide
    exact ⟨st.next, hnext, hstage,
      Nat.add_lt_add_of_lt_of_le (Stage.distance_next hworks) (State.blocksLeft_next blocks s t st)⟩
  | repeated hst hleft _ hstage _ hbidx =>
    refine ⟨st, hworks.1, hstage, Nat.add_lt_add_left ?_ _⟩
    have hcipher : st ∉ beforeCipherStages ∧ st ∈ [Stage.eCipher, Stage.dCipher] := by
      obtain rfl | rfl := hst <;> decide
    have hfits := hblocks hst
    have hclen := s.clen.isLt
    rw [State.blockBase] at hleft
    rw [State.blocksLeft, State.blocksLeft, if_neg hcipher.1, if_neg hcipher.1, if_pos hcipher.2, if_pos hcipher.2, hbidx]
    bv_omega

/-- The blocks of a payload that fits CBUF (00_scope.md R11, 41_ctr_cipher.md R157). -/
def maxBlocks (p : Platform) : Nat := (p.cbufSize + 15) / 16

/-- A run of steps, one more at the front. -/
theorem run_succ {M : Host.Core} {s t : M.State} (h : M.step s = .next t) (k : Nat) : M.run (k + 1) s = M.run k t := by
  rw [Host.Core.run, h]

/-- From a good state in which a command runs, as many steps as are left bring it to its end. -/
theorem State.Inv.ends {s : State} (h : s.Inv Config.platform) {st : Stage} (hs : s.stage = st.code) (hst : st ≠ .idle)
    (hturns : s.turns = []) :
    ∃ (k : Nat) (t : State), k ≤ s.stepsLeft (maxBlocks Config.platform) st ∧ Sys2Proof.core.run k s = .next t ∧
      t.busy = false ∧ t.done = true := by
  induction hm : s.stepsLeft (maxBlocks Config.platform) st using Nat.strong_induction_on generalizing s st with
  | _ m ih =>
    subst hm
    have hmoves : s.EngineMoves [] := .inr ⟨hturns, rfl, h.busy_of_stage hs hst⟩
    obtain ⟨t, hstep, hinv⟩ := h.engine Config.platform_bounded
    have hrun : Machine.step s = .next t := by
      rw [step_engine hmoves, State.setTurns_self hturns, State.engineTurn_eq_engine, hstep]
    obtain ⟨hidle, -⟩ | ⟨hfinish, rfl⟩ | ⟨st', hworks, hs', hleaves⟩ := State.engine_cases hstep
    · exact absurd (Stage.code_inj (hs.symm.trans hidle)) hst
    · cases Stage.code_inj (hs.symm.trans hfinish)
      exact ⟨1, s.finish, Nat.le_add_right 1 _, run_succ (M := Sys2Proof.core) hrun 0, rfl, rfl⟩
    · cases Stage.code_inj (hs.symm.trans hs')
      have hblocks (hcipher : st = .eCipher ∨ st = .dCipher) :
          s.clen.toNat ≤ 16 * maxBlocks Config.platform := by
        have hfits := (h.ready hs).payload_fits Config.platform_bounded hcipher
        rw [maxBlocks]
        omega
      obtain ⟨st', hst', hstage, hlt⟩ := hleaves.stepsLeft_lt hworks hblocks
      obtain ⟨k, u, hk, hend, hdone⟩ := ih _ hlt hinv hstage hst' (hleaves.turns.trans hturns) rfl
      exact ⟨k + 1, u, by omega, (run_succ (M := Sys2Proof.core) hrun k).trans hend, hdone⟩

/-- Settles O44: no stage is further than ten stages and the blocks of a full CBUF from the end. -/
theorem everyCommandEnds : Obligations.EveryCommandEnds := by
  intro s h hb hturns
  obtain ⟨st, hs⟩ := Stage.exists_of_le h.stageLegal
  have hst : st ≠ .idle := by
    rintro rfl
    have hstage := h.busyStage
    rw [hb, hs] at hstage
    cases hstage
  obtain ⟨k, t, hk, hend⟩ := h.ends hs hst hturns
  refine ⟨k, t, hk.trans (Nat.add_le_add ?_ ?_), hend⟩
  · cases st <;> decide
  · rw [State.blocksLeft]
    split_ifs
    · exact Nat.le_refl _
    · exact Nat.sub_le _ _
    · exact Nat.zero_le _

end Sys2Proof.Machine

/-! PROOFS. The records at E_EMIT, field by field (30_encoding.md R95, R99, R101, R103), and the transaction records of the host's
accesses (R113). -/

namespace Sys2Proof.Machine

/-! ### One write of a record -/

/-- What one write into the host buffers leaves, said at once: the state, the bytes and the frame. -/
theorem State.putHost_spec (s : State) (a : Nat) (bs : Bytes) :
    s.putHost a bs = { s with mem := (s.putHost a bs).mem } ∧ (s.putHost a bs).Holds a bs ∧
      ∀ b, b < a ∨ a + bs.length ≤ b → (s.putHost a bs).mem.read? b = s.mem.read? b :=
  ⟨rfl, s.putHost_holds a bs, s.putHost_read? a bs⟩

/-- The shared fields at their addresses (30_encoding.md R95, R101). -/
theorem State.holds_sharedFields {p : Platform} {t : State} {a : Nat} {crc : BitVec 32} {clen ilen : Word}
    (h : t.Holds a (sharedFields p crc clen.toNat ilen.toNat)) :
    t.Holds a [0x01, 0x00] ∧ t.Holds (a + 2) [0x63, 0x00] ∧ t.Holds (a + 4) (le16 p.mtime) ∧
      t.Holds (a + 6) (le16 p.mdate) ∧ t.Holds (a + 8) (le32 crc) ∧ t.Holds (a + 12) (le32 (clen + 28)) ∧
      t.Holds (a + 16) (le32 ilen) ∧ t.Holds (a + 20) [0x04, 0x00] ∧ t.Holds (a + 22) [0x0B, 0x00] := by
  have hclen : BitVec.ofNat 32 (clen.toNat + 28) = clen + 28 := ofNat_toNat_add clen 28
  have hilen : BitVec.ofNat 32 ilen.toNat = ilen := by rw [BitVec.ofNat_toNat, BitVec.setWidth_eq]
  simp only [sharedFields, List.append_assoc, State.holds_append, length_le16, length_le32, Nat.add_assoc,
    Nat.reduceAdd, hclen, hilen] at h
  exact h

/-- Settles O15: one write of the header, whose fields stand one behind the other. -/
theorem lfhIsWrittenAtEmit : Obligations.LfhIsWrittenAtEmit := by
  intro s hstage
  obtain ⟨honly, hholds, hframe⟩ :=
    s.putHost_spec (obufBase + 0) (lfhBytes Config.platform s.crcr s.clen.toNat s.ilen.toNat)
  rw [length_lfhBytes] at hframe
  simp only [lfhBytes, List.append_assoc, State.holds_append, length_le16, length_le32, Nat.add_assoc,
    Nat.reduceAdd] at hholds
  obtain ⟨hsig, hversion, hshared⟩ := hholds
  obtain ⟨hflag, hmethod, hmtime, hmdate, hcrc, hcsize, husize, hname, hextra⟩ := State.holds_sharedFields hshared
  exact ⟨_, execLfh_eEmit hstage, honly, hsig, hversion, hflag, hmethod, hmtime, hmdate, hcrc, hcsize, husize, hname,
    hextra, hframe⟩

/-- Settles O16: the central copy lies behind the local one, so both are there after both writes. -/
theorem aeExtraIsWrittenAtEmit : Obligations.AeExtraIsWrittenAtEmit := by
  intro s hstage field central
  have hfield : aeExtraBytes = field := aeExtraBytes_eq
  have hlength : field.length = 11 := rfl
  have hexec : exec .aeExtra s = .next ((s.putHost (obufBase + 34) field).putHost central field) := by
    rw [← hfield]
    exact execAeExtra_eEmit hstage
  clear_value field
  obtain ⟨-, hlocal, hlocalFrame⟩ := s.putHost_spec (obufBase + 34) field
  obtain ⟨-, hcentral, hcentralFrame⟩ := (s.putHost (obufBase + 34) field).putHost_spec central field
  have hkept := hlocal.putHost (b := central) (ys := field) (.inl (by omega))
  refine ⟨_, hexec, State.putHost_putHost_eq .., hkept, hcentral, fun a ha hc => ?_⟩
  exact (hcentralFrame a (by omega)).trans (hlocalFrame a (by omega))

/-- Settles O17, as O15. -/
theorem cfhIsWrittenAtEmit : Obligations.CfhIsWrittenAtEmit := by
  intro s hstage c
  obtain ⟨honly, hholds, hframe⟩ := s.putHost_spec c (cfhBytes Config.platform s.crcr s.clen.toNat s.ilen.toNat)
  have hexec : exec .cfh s = .next (s.putHost c (cfhBytes Config.platform s.crcr s.clen.toNat s.ilen.toNat)) :=
    execCfh_eEmit hstage
  clear_value c
  rw [length_cfhBytes] at hframe
  generalize s.putHost c (cfhBytes Config.platform s.crcr s.clen.toNat s.ilen.toNat) = t at *
  simp only [cfhBytes, List.append_assoc, State.holds_append, length_le16, length_le32, length_sharedFields,
    ByteReg.length_toList, Nat.add_assoc, Nat.reduceAdd, aeExtraBytes_eq] at hholds
  obtain ⟨hsig, hmadeBy, hneeded, hshared, hcomment, hdisk, hattr, hexternal, hoffset, hname, hfield⟩ := hholds
  obtain ⟨hflag, hmethod, hmtime, hmdate, hcrc, hcsize, husize, hnameLen, hextraLen⟩ := State.holds_sharedFields hshared
  refine ⟨t, hexec, honly, hsig, hmadeBy, hneeded, hflag, hmethod, hmtime, hmdate, hcrc, hcsize, husize,
    hnameLen, hextraLen, hcomment, hdisk, hattr, hexternal, hoffset, hname, hfield, hframe⟩

/-- Settles O18, as O15. -/
theorem eocdIsWrittenAtEmit : Obligations.EocdIsWrittenAtEmit := by
  intro s hstage e
  have hoffset : BitVec.ofNat 32 (s.clen.toNat + 73) = s.clen + 73 := ofNat_toNat_add s.clen 73
  obtain ⟨honly, hholds, hframe⟩ := s.putHost_spec e (eocdBytes s.clen.toNat)
  rw [length_eocdBytes] at hframe
  simp only [eocdBytes, List.append_assoc, State.holds_append, length_le16, length_le32, Nat.add_assoc,
    Nat.reduceAdd, hoffset] at hholds
  obtain ⟨hsig, hdisk, hcentralDisk, hhere, htotal, hsize, hstart, hcomment⟩ := hholds
  exact ⟨_, execEocd_eEmit hstage, honly, hsig, hdisk, hcentralDisk, hhere, htotal, hsize, hstart, hcomment, hframe⟩

/-! ### Transaction records -/

/-- Different values have different hexadecimal digits. -/
theorem hexDigit_inj {x y : BitVec 4} (h : hexDigit x = hexDigit y) : x = y := by
  revert x y
  decide

/-- A word is made of its eight groups of four bits. -/
theorem eq_of_nibbles {v w : Word} (h : ∀ i, i < 8 → v.extractLsb' (4 * i) 4 = w.extractLsb' (4 * i) 4) : v = w := by
  refine BitVec.eq_of_getLsbD_eq fun i hi => ?_
  have hbit := congrArg (fun x : BitVec 4 => x.getLsbD (i % 4)) (h (i / 4) (by omega))
  simpa [BitVec.getLsbD_extractLsb', Nat.mod_lt, Nat.div_add_mod] using hbit

/-- The eight digits of a word determine it. -/
theorem hexWord_inj {v w : Word} (h : hexWord v = hexWord w) : v = w := by
  simp only [hexWord, List.cons.injEq, and_true] at h
  obtain ⟨h7, h6, h5, h4, h3, h2, h1, h0⟩ := h
  refine eq_of_nibbles fun i hi => ?_
  interval_cases i
  · exact hexDigit_inj h0
  · exact hexDigit_inj h1
  · exact hexDigit_inj h2
  · exact hexDigit_inj h3
  · exact hexDigit_inj h4
  · exact hexDigit_inj h5
  · exact hexDigit_inj h6
  · exact hexDigit_inj h7

/-- A legal width is determined by its digit. -/
theorem sizeDigit_inj {m n : Nat} (hm : legalWidth m = true) (hn : legalWidth n = true)
    (h : sizeDigit m = sizeDigit n) : m = n := by
  have hvalue := hexDigit_inj h
  obtain rfl | rfl | rfl := (legalWidth_iff m).mp hm <;> obtain rfl | rfl | rfl := (legalWidth_iff n).mp hn
  all_goals first | rfl | exact absurd hvalue (by decide)

/-- The letter of an access's direction. -/
def BusOp.letter (op : BusOp) : Char := if op.isWrite then 'W' else 'R'

/-- A record is its direction, width, address and data, in columns (30_encoding.md R113). -/
theorem Access.record_eq (x : Access) :
    x.record =
      x.op.letter :: ' ' :: sizeDigit x.op.size :: ' ' :: (hexWord x.op.addr ++ ' ' :: hexWord x.carried) := by
  obtain ⟨op, okay, data⟩ := x
  cases op <;> rfl

/-- Accesses with one record agree in all that it says. -/
theorem Access.agree_of_record {x y : Access} (hx : legalWidth x.op.size = true) (hy : legalWidth y.op.size = true)
    (h : x.record = y.record) :
    x.op.isWrite = y.op.isWrite ∧ x.op.size = y.op.size ∧ x.op.addr = y.op.addr ∧ x.carried = y.carried := by
  rw [Access.record_eq, Access.record_eq] at h
  simp only [List.cons.injEq, true_and] at h
  obtain ⟨hletter, hsize, hrest⟩ := h
  have hlen : (hexWord x.op.addr).length = (hexWord y.op.addr).length := rfl
  obtain ⟨haddr, hdata⟩ := List.append_inj hrest hlen
  refine ⟨?_, sizeDigit_inj hx hy hsize, hexWord_inj haddr, hexWord_inj (List.cons.inj hdata).2⟩
  simp only [BusOp.letter] at hletter
  revert hletter
  cases x.op.isWrite <;> cases y.op.isWrite <;> decide

/-- Lists of accesses with one encoding have one length and agree item by item. -/
theorem encodeProgram_inj {xs ys : List Access} (hxs : ∀ x ∈ xs, legalWidth x.op.size = true)
    (hys : ∀ y ∈ ys, legalWidth y.op.size = true) (h : encodeProgram xs = encodeProgram ys) :
    xs.length = ys.length ∧ ∀ (i : Nat) (x y : Access), xs[i]? = some x → ys[i]? = some y →
      x.op.isWrite = y.op.isWrite ∧ x.op.size = y.op.size ∧ x.op.addr = y.op.addr ∧ x.carried = y.carried := by
  have hlength : xs.length = ys.length := by simpa [encodeProgram] using congrArg List.length h
  refine ⟨hlength, fun i x y hx hy => ?_⟩
  have hrecord : x.record = y.record := by
    have hitem := congrArg (fun l : List (List Char) => l[i]?) h
    simpa [encodeProgram, hx, hy] using hitem
  exact Access.agree_of_record (hxs x (List.mem_of_getElem? hx)) (hys y (List.mem_of_getElem? hy)) hrecord

/-- A step in which the host issues a bus operation performs that access. -/
theorem last_step_bus {s t : State} {ts : List Turn} {op : BusOp} {rest : List HostOp} (hmoves : s.HostMoves ts)
    (hhost : s.host = .bus op :: rest) (hstep : step s = .next t) : ∃ x, t.last = some x ∧ x.op = op := by
  rw [step_host hmoves, State.hostTurn_bus (s := s.setTurns ts) hhost] at hstep
  exact last_access hstep

/-- A step in which the host polls performs one read of the word. -/
theorem last_step_poll {s t : State} {ts : List Turn} {a mask val : Word} {rest : List HostOp} (hmoves : s.HostMoves ts)
    (hhost : s.host = .poll a mask val :: rest) (hstep : step s = .next t) :
    ∃ x, t.last = some x ∧ x.op = .read a 4 := by
  rw [step_host hmoves, State.hostTurn_poll (s := s.setTurns ts) hhost] at hstep
  obtain ⟨u, hread⟩ | ⟨-, hread⟩ := (s.setTurns ts).access_next_or_fault (.read a 4)
  · rw [hread] at hstep
    cases hstep
    obtain ⟨x, hx, hop⟩ := last_access hread
    refine ⟨x, ?_, hop⟩
    split_ifs <;> exact hx
  · rw [hread] at hstep
    cases hstep

/-- Settles O4: a record's columns determine what they say, and a step puts the record of the access it performs in front. -/
theorem transactionRecordsAreUnambiguous : Obligations.TransactionRecordsAreUnambiguous := by
  refine ⟨fun x y hx hy h => ?_, by decide, fun xs ys hxs hys h => encodeProgram_inj hxs hys h, ?_, ?_, ?_⟩
  · obtain ⟨hwrite, hsize, haddr, hcarried⟩ := Access.agree_of_record hx hy h
    refine ⟨hwrite, hsize, haddr, fun hread => ?_, fun a n v b m w hxop hyop => ?_⟩
    · have hdata {z : Access} (hz : z.op.isWrite = false) : z.carried = z.data := by
        obtain ⟨op, okay, data⟩ := z
        cases op with
        | read => rfl
        | write => cases hz
      rwa [hdata hread, hdata (hwrite ▸ hread)] at hcarried
    · rwa [Access.carried, Access.carried, hxop, hyop] at hcarried
  · intro s t ts op rest k hmoves hhost hstep
    obtain ⟨x, hx, hop⟩ := last_step_bus hmoves hhost hstep
    exact ⟨x, hx, hop, State.programEncoding_access k (by rw [State.issues_host hmoves, hhost]; rfl) hstep hx⟩
  · intro s t ts a mask val rest k hmoves hhost hstep
    obtain ⟨x, hx, hop⟩ := last_step_poll hmoves hhost hstep
    exact ⟨x, hx, hop, State.programEncoding_access k (by rw [State.issues_host hmoves, hhost]; rfl) hstep hx⟩
  · intro s t ts b k hsilent hstep
    refine State.programEncoding_silent k ?_ hstep
    obtain hmoves | hstall | hreset | ⟨hmoves, hhost⟩ := hsilent
    · exact State.issues_engine hmoves
    · rw [State.issues, hstall]
    · rw [State.issues, hreset]
    · rw [State.issues_host hmoves, hhost]
      rfl

end Sys2Proof.Machine

/-! PROOFS. The remaining stages of ENCODE and DECODE, each from its cases and from what is held in the host buffers (42_encode.md
R172 to R175, 43_decode.md R202 to R208). -/

namespace Sys2Proof.Machine

/-! ### The plaintext's CRC and its compressed form -/

/-- Settles O22. -/
theorem crcIsTakenOverThePlaintext : Obligations.CrcIsTakenOverThePlaintext := by
  intro p s plain hstage hlen hholds
  have hplain : s.plaintext p = plain := State.plaintext_of_holds hholds hlen
  have hstep : s.engine p = .next (s.eCrc p) := State.engine_of_stage hstage
  rw [hstep, State.eCrc, hplain, hlen]
  rfl

/-- A length up to CBUF_SIZE fits CLEN (00_scope.md R11). -/
theorem toNat_ofNat_of_fits {p : Platform} (hp : p.Bounded) {n : Nat} (h : n ≤ p.obufSize) :
    (BitVec.ofNat 32 n).toNat = n := by
  have hle := hp.obuf_le
  rw [BitVec.toNat_ofNat, Nat.mod_eq_of_lt (by omega)]

/-- The compressed payload where E_DEFLATE stores it. -/
theorem State.storePacked_payload {p : Platform} (hp : p.Bounded) {s : State} (hw : s.cbuf.wf innerBlank = true) {r : Bytes}
    (hfits : r.length ≤ p.cbufSize) :
    (s.storePacked r).clen.toNat = r.length ∧ (s.storePacked r).payload = r ∧
      ∀ k, r.length ≤ k → (s.storePacked r).cbuf.inner k = s.cbuf.inner k := by
  have hclen : (s.storePacked r).clen.toNat = r.length := by
    have hobuf := hp.obuf_ge
    rw [State.storePacked_clen, toNat_ofNat_of_fits hp (by omega)]
  refine ⟨hclen, State.payload_of_putBytes hw rfl hclen, fun k hk => ?_⟩
  rw [State.storePacked_cbuf, Memory.inner_putBytes hw, if_neg (by omega)]

/-- E_DEFLATE over a plaintext that is held: Compression, or the provider's answer kept. -/
theorem State.eDeflate_of_holds {p : Platform} {s : State} {plain : Bytes} (hlen : plain.length = s.ilen.toNat)
    (hholds : s.Holds ibufBase plain) :
    let d := s.draws + plain.length
    let r := p.deflate d plain
    (p.fails d = true ∨ p.cbufSize < r.length → s.eDeflate p = (s.drew (plain.length + 1)).raise .compression) ∧
    (p.fails d = false → r.length ≤ p.cbufSize →
      s.eDeflate p = ((s.drew (plain.length + 1)).storePacked r).goto .eSalt) := by
  intro d r
  have hplain : s.plaintext p = plain := State.plaintext_of_holds hholds hlen
  have hcases := State.eDeflate_cases p s
  rw [hplain, ← hlen] at hcases
  obtain ⟨hbad, heq⟩ | ⟨⟨hanswers, hfits⟩, heq⟩ := hcases
  · refine ⟨fun _ => heq, fun hanswers hfits => ?_⟩
    obtain hfailed | hlong := hbad
    · exact absurd (hanswers.symm.trans hfailed) Bool.false_ne_true
    · exact absurd hfits (Nat.not_le.mpr hlong)
  · refine ⟨fun hbad => ?_, fun _ _ => heq⟩
    obtain hfailed | hlong := hbad
    · exact absurd (hanswers.symm.trans hfailed) Bool.false_ne_true
    · exact absurd hfits (Nat.not_le.mpr hlong)

/-- Settles O23. -/
theorem deflateFillsCbufOrRaises : Obligations.DeflateFillsCbufOrRaises := by
  intro p s plain hp hw hstage hlen hholds d r
  have hstep : s.engine p = .next (s.eDeflate p) := State.engine_of_stage hstage
  obtain ⟨hraises, hkeeps⟩ := State.eDeflate_of_holds (p := p) hlen hholds
  rw [hstep]
  constructor
  · intro hbad
    rw [hraises hbad]
    rfl
  · intro hanswers hfits
    rw [hkeeps hanswers hfits]
    exact ⟨_, rfl, rfl, State.storePacked_payload hp (s := s.drew (plain.length + 1)) hw hfits⟩

/-! ### The keys -/

/-- Key derivation over a password that is held: KeyDerivation, or the keys and their slices (40_key_derivation.md R140 to R144). -/
theorem State.kdf_of_holds {p : Platform} {s : State} {pw : Bytes} {after : State → State} (hlen : pw.length = s.pwlen.toNat)
    (hholds : s.Holds pbufBase pw) :
    let d := s.draws + pw.length
    let r := p.kdf pw s.salt.toList 1000 66
    (p.fails d = true ∨ r.length ≠ 66 → s.kdf p after = (s.drew (pw.length + 1)).raise .keyDerivation) ∧
    (p.fails d = false → r.length = 66 → s.kdf p after = after ((s.drew (pw.length + 1)).sliceKeys r)) := by
  intro d r
  have hpw : s.password p = pw := State.password_of_holds hholds hlen
  have hcases := State.kdf_cases p after s
  rw [hpw, ← hlen] at hcases
  obtain ⟨hbad, heq⟩ | ⟨hok, heq⟩ := hcases
  · exact ⟨fun _ => heq, fun hanswers hlen => absurd hbad ((not_failed_or_ne_iff ..).mpr ⟨hanswers, hlen⟩)⟩
  · exact ⟨fun hbad => absurd hbad ((not_failed_or_ne_iff ..).mpr hok), fun _ _ => heq⟩

/-- Settles O25. -/
theorem encodeDerivesItsKeys : Obligations.EncodeDerivesItsKeys := by
  intro p s pw hstage hlen hholds d r
  have hstep : s.engine p = .next (s.eKdf p) := State.engine_of_stage hstage
  obtain ⟨hraises, hderives⟩ :=
    State.kdf_of_holds (p := p) (after := fun s => s.enterCipher .eCipher) hlen hholds
  rw [hstep, State.eKdf]
  constructor
  · intro hbad
    rw [hraises hbad]
    rfl
  · intro hanswers hkeys
    rw [hderives hanswers hkeys]
    exact ⟨_, rfl, rfl, State.sliceKeys_toList (s.drew (pw.length + 1)) hkeys⟩

/-- The stored salt and the derived keys, as one update. -/
theorem State.setSalt_sliceKeys (s : State) (salt dk : Bytes) (n : Nat) :
    (((s.drew 16).setSalt salt).drew n).sliceKeys dk =
      { s with
        salt := ByteReg.ofBytes 16 salt, dk := ByteReg.ofBytes 66 dk, akey := ByteReg.ofBytes 32 (dk.take 32)
        hkey := ByteReg.ofBytes 32 ((dk.drop 32).take 32), pvv := ByteReg.ofBytes 2 ((dk.drop 64).take 2)
        draws := s.draws + 16 + n } := by
  cases s
  rfl

/-- Settles O26: the stored salt is read first, and the derivation leaves it. -/
theorem decodeDerivesItsKeys : Obligations.DecodeDerivesItsKeys := by
  intro p s salt pw hstage hsalt hsaltHeld hlen hholds d r
  have hstep : s.engine p = .next (s.dKdf p) := State.engine_of_stage hstage
  have hread : s.container p 45 16 = salt := State.container_of_holds hsaltHeld hsalt
  have hreg : (ByteReg.ofBytes 16 salt).toList = salt := ByteReg.toList_ofBytes hsalt
  obtain ⟨hraises, hderives⟩ :=
    State.kdf_of_holds (p := p) (s := (s.drew 16).setSalt salt) (after := fun s => s.goto .dPvv) hlen hholds
  rw [State.setSalt_salt, hreg] at hraises hderives
  rw [hstep, State.dKdf, hread]
  by_cases hbad : p.fails d = true ∨ r.length ≠ 66
  · rw [hraises hbad]
    exact ⟨_, rfl, hreg, fun _ => rfl,
      fun hanswers hkeys => absurd hbad ((not_failed_or_ne_iff ..).mpr ⟨hanswers, hkeys⟩)⟩
  · obtain ⟨hanswers, hkeys⟩ := (not_failed_or_ne_iff ..).mp hbad
    rw [hderives hanswers hkeys, State.setSalt_sliceKeys]
    exact ⟨_, rfl, hreg, fun h => absurd h hbad, fun _ _ => ⟨rfl, State.sliceKeys_toList s hkeys⟩⟩

/-! ### The checks of DECODE -/

/-- Settles O35. -/
theorem wrongPasswordIsRaisedOnMismatch : Obligations.WrongPasswordIsRaisedOnMismatch := by
  intro p s v hstage hlen hholds
  have hstep : s.engine p = .next (s.dPvv p) := State.engine_of_stage hstage
  have hread : s.container p 61 2 = v := State.container_of_holds hholds hlen
  rw [hstep]
  obtain ⟨hv, heq⟩ | ⟨hv, heq⟩ := State.dPvv_cases p s
  · rw [heq, if_pos (hread ▸ hv)]
    rfl
  · rw [heq, if_neg (hread ▸ hv)]
    rfl

/-- The digest and the draws of D_TAG, as one update. -/
theorem State.keepDigest_drew (s : State) (m n : Nat) (r : Bytes) :
    ((s.drew m).keepDigest r).drew n =
      { s with hmd := ByteReg.ofBytes 20 r, tagc := ByteReg.ofBytes 10 (r.take 10), draws := s.draws + m + n } := rfl

/-- Settles O36, by the cases of D_TAG; the stored ciphertext and the stored tag are held. -/
theorem tagIsVerifiedUnlessBypassed : Obligations.TagIsVerifiedUnlessBypassed := by
  intro p s c tag hstage hc htag hcHeld htagHeld r d
  have hstep : s.engine p = .next (s.dTag p) := State.engine_of_stage hstage
  have hread : s.container p 63 c.length = c := State.container_of_holds hcHeld rfl
  have hbypass : s.bypass p = true ↔ p.testHook = true ∧ s.tbyp = true := Bool.and_eq_true_iff
  have hcases := State.dTag_cases p s
  simp only [← hc, hread] at hcases
  let u := (s.drew (c.length + 1)).keepDigest r
  have hstored : u.container p (63 + c.length) 10 = tag := State.container_of_holds (s := u) htagHeld htag
  rw [hstep]
  obtain ⟨hon, heq⟩ | ⟨hoff, hbad, heq⟩ | ⟨hoff, hok, hcheck⟩ := hcases
  · rw [heq]
    have hon' := hbypass.mp hon
    exact ⟨fun _ => rfl, fun hoff => absurd hon' hoff, fun hoff => absurd hon' hoff⟩
  · rw [heq]
    refine ⟨fun hon => ?_, fun _ _ => rfl, fun _ hanswers hlen => ?_⟩
    · exact absurd (hoff.symm.trans (hbypass.mpr hon)) Bool.false_ne_true
    · exact absurd hbad ((not_failed_or_ne_iff ..).mpr ⟨hanswers, hlen⟩)
  · refine ⟨fun hon => ?_, fun _ hbad => absurd hbad ((not_failed_or_ne_iff ..).mpr hok), fun _ _ hlen => ?_⟩
    · exact absurd (hoff.symm.trans (hbypass.mpr hon)) Bool.false_ne_true
    · obtain ⟨hhmd, htagc⟩ : u.hmd.toList = r ∧ u.tagc.toList = r.take 10 := State.keepDigest_toList _ hlen
      obtain ⟨hsame, heq⟩ | ⟨hdiffer, heq⟩ := hcheck
      · have htag : r.take 10 = tag := htagc.symm.trans (hsame.trans hstored)
        rw [heq, State.keepDigest_drew]
        exact ⟨_, rfl, hhmd, htagc, (if_pos htag).symm⟩
      · have htag : r.take 10 ≠ tag := fun h => hdiffer (htagc.trans (h.trans hstored.symm))
        rw [heq, State.keepDigest_drew]
        exact ⟨_, rfl, hhmd, htagc, (if_neg htag).symm⟩

/-! ### The copy of the ciphertext -/

/-- D_CIPHER's copy, of a ciphertext that is held. -/
theorem State.loadCiphertext_of_holds {p : Platform} {s : State} {c : Bytes} (hw : s.cbuf.wf innerBlank = true)
    (hlen : c.length = s.clen.toNat) (hholds : s.Holds (ibufBase + 63) c) :
    s.loadCiphertext p = { s with cbuf := (s.loadCiphertext p).cbuf, draws := s.draws + c.length } ∧
      (s.loadCiphertext p).payload = c ∧
      ∀ k, c.length ≤ k → (s.loadCiphertext p).cbuf.inner k = s.cbuf.inner k := by
  have hread : s.container p 63 s.clen.toNat = c := State.container_of_holds hholds hlen.symm.symm
  have hload : s.loadCiphertext p = (s.drew c.length).putCbuf 0 c := by rw [State.loadCiphertext, hread, hlen]
  rw [hload]
  refine ⟨rfl, State.payload_of_putBytes hw rfl hlen.symm, fun k hk => ?_⟩
  rw [State.putCbuf_cbuf, State.drew_cbuf, Memory.inner_putBytes hw, if_neg (by omega)]

/-- Settles O37. -/
theorem decodeCopiesTheCiphertextFirst : Obligations.DecodeCopiesTheCiphertextFirst := by
  intro p s c hstage hbidx hw hlen hholds
  obtain ⟨honly, hpayload, hframe⟩ := State.loadCiphertext_of_holds (p := p) hw hlen hholds
  refine ⟨s.loadCiphertext p, honly, hpayload, hframe, ?_⟩
  have hstep : s.engine p = s.dCipher p := State.engine_of_stage hstage
  rw [hstep, State.dCipher, if_pos hbidx]

end Sys2Proof.Machine

/-! PROOFS. D_FORMAT as a whole, over a container that is held (43_decode.md R202 to R204, 30_encoding.md R109). -/

namespace Sys2Proof.Machine

section Format

variable {p : Platform} {s : State} {z : Bytes}

/-- A half word of the container that is held. -/
theorem State.rd16_container (h : s.Holds ibufBase z) {o n : Nat} (i : Nat) (hn : i + 2 ≤ n) (hl : o + n ≤ z.length) :
    rd16 (s.container p o n) i = rd16 z (o + i) := by
  rw [State.container_slice h hl, rd16_slice z o n i hn]

/-- A word of the container that is held. -/
theorem State.rd32_container (h : s.Holds ibufBase z) {o n : Nat} (i : Nat) (hn : i + 4 ≤ n) (hl : o + n ≤ z.length) :
    rd32 (s.container p o n) i = rd32 z (o + i) := by
  rw [State.container_slice h hl, rd32_slice z o n i hn]

/-- A byte of the container that is held. -/
theorem State.byteAt_container (h : s.Holds ibufBase z) {o n : Nat} (i : Nat) (hn : i < n) (hl : o + n ≤ z.length) :
    byteAt (s.container p o n) i = byteAt z (o + i) := by
  rw [State.container_slice h hl, byteAt_slice z o n i hn]

/-- D_FORMAT's last checks: the payload lies inside the container (43_decode.md R204). -/
theorem State.checkBounds_of_holds (h : s.Holds ibufBase z) (hlen : z.length = s.ilen.toNat) (hl : 73 ≤ z.length) :
    let cs := (rd32 z 18).toNat
    s.checkBounds p =
      if 28 ≤ cs ∧ 73 + (cs - 28) ≤ z.length then
        ((s.drew 12).setParsed (cs - 28) (rd32 z 14) (rd32 z 22)).goto .dKdf
      else (s.drew 12).raise .badFormat := by
  intro cs
  have hcases := State.checkBounds_cases p s
  simp only [State.rd32_container h 0 (by omega) (by omega : 14 + 12 ≤ z.length),
    State.rd32_container h 4 (by omega) (by omega : 14 + 12 ≤ z.length),
    State.rd32_container h 8 (by omega) (by omega : 14 + 12 ≤ z.length), Nat.reduceAdd, ← hlen] at hcases
  obtain ⟨hbad, heq⟩ | ⟨hok, heq⟩ := hcases
  · rw [heq, if_neg (by omega)]
  · rw [heq, if_pos hok]

/-- The checks of the AE extra field (30_encoding.md R109), then the last ones. -/
theorem State.checkAeExtra_of_holds (h : s.Holds ibufBase z) (hl : 73 ≤ z.length) :
    s.checkAeExtra p =
      if rd16 z 36 = 7 ∧ rd16 z 38 = 1 ∧ byteAt z 40 = 0x41 ∧ byteAt z 41 = 0x45 ∧ byteAt z 42 = 3 then
        (s.drew 7).checkBounds p
      else (s.drew 7).raise .badFormat := by
  have hcases := State.checkAeExtra_cases p s
  have hin : 36 + 7 ≤ z.length := by omega
  simp only [State.rd16_container h 0 (by omega) hin, State.rd16_container h 2 (by omega) hin,
    State.byteAt_container h 4 (by omega) hin, State.byteAt_container h 5 (by omega) hin,
    State.byteAt_container h 6 (by omega) hin, Nat.reduceAdd] at hcases
  obtain ⟨hok, heq⟩ | ⟨hbad, heq⟩ := hcases
  · rw [heq, if_pos hok]
  · rw [heq, if_neg hbad]

/-- The checks of the local file header (30_encoding.md R109), then the AE extra field's. -/
theorem State.checkLfh_of_holds (h : s.Holds ibufBase z) (hl : 73 ≤ z.length) :
    s.checkLfh p =
      if rd16 z 8 = 99 ∧ rd16 z 28 = 11 ∧ rd16 z 34 = 0x9901 then (s.drew 6).checkAeExtra p
      else (s.drew 6).raise .badFormat := by
  have hcases := State.checkLfh_cases p s
  have hread (n : Nat) {o : Nat} (hin : o + 2 ≤ z.length) : rd16 ((s.drew n).container p o 2) 0 = rd16 z o :=
    State.rd16_container (s := s.drew n) h 0 (Nat.le_refl _) hin
  have hmethod : rd16 (s.container p 8 2) 0 = rd16 z 8 := hread 0 (by omega)
  rw [hmethod, hread 2 (by omega), hread 4 (by omega)] at hcases
  obtain ⟨hok, heq⟩ | ⟨hbad, heq⟩ := hcases
  · rw [heq, if_pos hok]
  · rw [heq, if_neg hbad]

/-- D_FORMAT's first checks: the length floor and the signature (43_decode.md R202, R203). -/
theorem State.dFormat_of_holds (hstage : s.stage = Stage.dFormat.code) (h : s.Holds ibufBase z)
    (hlen : z.length = s.ilen.toNat) :
    s.dFormat p =
      if 73 ≤ z.length then
        if rd32 z 0 = 0x04034B50 then (s.drew 4).checkLfh p else (s.drew 4).raise .badFormat
      else s.raise .badFormat := by
  have hcases := State.dFormat_cases p s hstage
  rw [← hlen] at hcases
  obtain ⟨hshort, heq⟩ | ⟨hl, hsig, heq⟩ | ⟨hl, hsig, heq⟩ := hcases
  · rw [heq, if_neg (by omega)]
  · rw [State.rd32_container h 0 (by omega) (by omega)] at hsig
    rw [heq, if_pos hl, if_neg hsig]
  · rw [State.rd32_container h 0 (by omega) (by omega)] at hsig
    rw [heq, if_pos hl, if_pos hsig]

end Format

/-- Settles O34: the checks, one behind the other, are the conditions of the statement, and every failed one raises BadFormat. -/
theorem formatStageChecksTheContainer : Obligations.FormatStageChecksTheContainer := by
  intro p s z hstage hlen hholds cs
  have hstep : s.engine p = .next (s.dFormat p) := State.engine_of_stage hstage
  refine ⟨s.dFormat p, hstep, ?_⟩
  rw [State.dFormat_of_holds hstage hholds hlen]
  by_cases hl : 73 ≤ z.length
  case neg =>
    rw [if_neg hl, if_neg fun ⟨h, _⟩ => hl h]
    rfl
  rw [if_pos hl, State.checkLfh_of_holds (s := s.drew 4) hholds hl,
    State.checkAeExtra_of_holds (s := (s.drew 4).drew 6) hholds hl,
    State.checkBounds_of_holds (s := ((s.drew 4).drew 6).drew 7) hholds hlen hl]
  simp only [State.drew_drew]
  by_cases hsig : rd32 z 0 = 0x04034B50
  case neg =>
    rw [if_neg hsig, if_neg fun ⟨_, h, _⟩ => hsig h]
    rfl
  by_cases hlfh : rd16 z 8 = 99 ∧ rd16 z 28 = 11 ∧ rd16 z 34 = 0x9901
  case neg =>
    rw [if_pos hsig, if_neg hlfh, if_neg fun ⟨_, _, h8, h28, h34, _⟩ => hlfh ⟨h8, h28, h34⟩]
    rfl
  by_cases hextra : rd16 z 36 = 7 ∧ rd16 z 38 = 1 ∧ byteAt z 40 = 0x41 ∧ byteAt z 41 = 0x45 ∧ byteAt z 42 = 3
  case neg =>
    rw [if_pos hsig, if_pos hlfh, if_neg hextra, if_neg fun ⟨_, _, _, _, _, h36, h38, h40, h41, h42, _⟩ =>
      hextra ⟨h36, h38, h40, h41, h42⟩]
    rfl
  by_cases hbounds : 28 ≤ cs ∧ 73 + (cs - 28) ≤ z.length
  case neg =>
    rw [if_pos hsig, if_pos hlfh, if_pos hextra, if_neg hbounds, if_neg fun ⟨_, _, _, _, _, _, _, _, _, _, hcs⟩ =>
      hbounds hcs]
    rfl
  obtain ⟨h8, h28, h34⟩ := hlfh
  obtain ⟨h36, h38, h40, h41, h42⟩ := hextra
  rw [if_pos hsig, if_pos ⟨h8, h28, h34⟩, if_pos ⟨h36, h38, h40, h41, h42⟩, if_pos hbounds,
    if_pos ⟨hl, hsig, h8, h28, h34, h36, h38, h40, h41, h42, hbounds⟩]
  rfl

end Sys2Proof.Machine

/-! PROOFS. The cipher: one block, the stage as a whole by induction over its blocks, and that it undoes itself (41_ctr_cipher.md
R153 to R159). -/

namespace Sys2Proof.Machine

/-! ### One block -/

/-- The engine step of a cipher stage is CTR_BLOCK, in D_CIPHER after the first block. -/
theorem State.engine_cipher {p : Platform} {s : State} {here next : Stage} (hpair : CipherPair here next)
    (hs : s.stage = here.code) (hlater : here = .dCipher → s.bidx ≠ 0) : s.engine p = s.ctrBlock p next := by
  rw [State.engine_of_stage hs]
  obtain ⟨rfl, rfl⟩ | ⟨rfl, rfl⟩ := hpair
  · rfl
  · show s.dCipher p = _
    rw [State.dCipher, if_neg (hlater rfl)]

/-- CTR_BLOCK with a block left and an answer: the block, and on to the next stage after the last one. -/
theorem State.ctrBlock_of_answers {p : Platform} {s : State} (next : Stage) (hleft : s.blockBase < s.clen.toNat)
    (hctr : s.ctr ≠ BitVec.allOnes 64) (hanswers : p.fails s.draws = false) :
    s.ctrBlock p next =
      .next (if s.clen.toNat ≤ s.blockBase + 16 then (s.afterBlock p).goto next else s.afterBlock p) := by
  obtain ⟨hdone, -⟩ | ⟨-, hwrap, -⟩ | ⟨-, -, hfails, -⟩ | ⟨-, -, -, ⟨hlast, heq⟩ | ⟨hmore, heq⟩⟩ :=
    State.ctrBlock_cases p next s
  · exact absurd hdone (Nat.not_le.mpr hleft)
  · exact absurd hwrap hctr
  · exact absurd (hanswers.symm.trans hfails) Bool.false_ne_true
  · rw [heq, if_pos hlast]
  · rw [heq, if_neg (Nat.not_le.mpr hmore)]

/-- Settles O28: the two stages make the same step, CTR_BLOCK, of which these are the cases with a block left. -/
theorem oneBlockOfTheCipher : Obligations.OneBlockOfTheCipher := by
  intro p s here next hpair hs hw hleft hctr c base ks
  have hstep : s.engine p = s.ctrBlock p next := by
    obtain hpair | ⟨hhere, hnext, hbidx⟩ := hpair
    · exact State.engine_cipher (.inl hpair) hs fun h => absurd (hpair.1.symm.trans h) (by decide)
    · exact State.engine_cipher (.inr ⟨hhere, hnext⟩) hs fun _ => hbidx
  rw [hstep]
  constructor
  · intro hfails
    obtain ⟨hdone, -⟩ | ⟨-, hwrap, -⟩ | ⟨-, -, -, heq⟩ | ⟨-, -, hanswers, -⟩ := State.ctrBlock_cases p next s
    · exact absurd hdone (Nat.not_le.mpr hleft)
    · exact absurd hwrap hctr
    · rw [heq]
      rfl
    · exact absurd (hanswers.symm.trans hfails) Bool.false_ne_true
  · intro hanswers
    refine ⟨_, State.ctrBlock_of_answers next hleft hctr hanswers, ?_, ?_⟩
    · by_cases hlast : s.clen.toNat ≤ base + 16
      · have hlast' : s.clen.toNat ≤ s.blockBase + 16 := hlast
        rw [if_pos hlast', if_pos hlast]
        rfl
      · have hlast' : ¬s.clen.toNat ≤ s.blockBase + 16 := hlast
        rw [if_neg hlast', if_neg hlast, ← hs]
        rfl
    · intro k
      have hcbuf : (if s.clen.toNat ≤ s.blockBase + 16 then (s.afterBlock p).goto next else s.afterBlock p).cbuf =
          (s.afterBlock p).cbuf := by
        split_ifs <;> rfl
      rw [hcbuf]
      exact State.inner_afterBlock p s hw k

/-! ### The blocks of a payload -/

/-- The state after `j` blocks. -/
def State.afterBlocks (p : Platform) (s : State) : Nat → State
  | 0 => s
  | j + 1 => (s.afterBlocks p j).afterBlock p

/-- The blocks change CTR, KS, BIDX and CBUF, and draw once each. -/
theorem State.afterBlocks_only (p : Platform) (s : State) (j : Nat) :
    s.afterBlocks p j =
      { s with
        ctr := (s.afterBlocks p j).ctr, ks := (s.afterBlocks p j).ks, bidx := (s.afterBlocks p j).bidx
        cbuf := (s.afterBlocks p j).cbuf, draws := s.draws + j } := by
  induction j with
  | zero => rfl
  | succ j ih =>
    rw [State.afterBlocks]
    generalize s.afterBlocks p j = u at ih ⊢
    rw [ih]
    rfl

/-- A block below the number of blocks begins inside the payload (41_ctr_cipher.md R157). -/
theorem lt_blockCount_iff (j n : Nat) : j < blockCount n ↔ 16 * j < n := by
  rw [blockCount]
  omega

/-- What holds when the first block of a payload is about to be made: the first step of the stage is CTR_BLOCK in the state `u`, with
the counters at 0, and the AES provider answers every call. -/
structure CipherStart (p : Platform) (s u : State) (here next : Stage) : Prop where
  pair : CipherPair here next
  first : s.engine p = u.ctrBlock p next
  stage : u.stage = here.code
  ctr : u.ctr = 0
  bidx : u.bidx = 0
  wf : u.cbuf.wf innerBlank = true
  answers : ∀ j, j < blockCount u.clen.toNat → p.fails (u.draws + j) = false

section Blocks

variable {p : Platform} {s u : State} {here next : Stage}

/-- The blocks keep CBUF in canonical form. -/
theorem CipherStart.wf_afterBlocks (h : CipherStart p s u here next) (j : Nat) :
    (u.afterBlocks p j).cbuf.wf innerBlank = true := by
  induction j with
  | zero => exact h.wf
  | succ j ih => exact Memory.wf_putBytes ih _ _

theorem State.afterBlocks_clen (p : Platform) (u : State) (j : Nat) : (u.afterBlocks p j).clen = u.clen :=
  (congrArg State.clen (u.afterBlocks_only p j) :)

theorem State.afterBlocks_draws (p : Platform) (u : State) (j : Nat) : (u.afterBlocks p j).draws = u.draws + j :=
  (congrArg State.draws (u.afterBlocks_only p j) :)

theorem State.afterBlocks_stage (p : Platform) (u : State) (j : Nat) : (u.afterBlocks p j).stage = u.stage :=
  (congrArg State.stage (u.afterBlocks_only p j) :)

theorem State.afterBlocks_akey (p : Platform) (u : State) (j : Nat) : (u.afterBlocks p j).akey = u.akey :=
  (congrArg State.akey (u.afterBlocks_only p j) :)

/-- The counters count the blocks (41_ctr_cipher.md R154). -/
theorem CipherStart.counters (h : CipherStart p s u here next) {j : Nat} (hj : j ≤ blockCount u.clen.toNat) :
    (u.afterBlocks p j).ctr.toNat = j ∧ (u.afterBlocks p j).bidx.toNat = j := by
  induction j with
  | zero => exact ⟨congrArg BitVec.toNat h.ctr, congrArg BitVec.toNat h.bidx⟩
  | succ j ih =>
    obtain ⟨hctr, hbidx⟩ := ih (by omega)
    have hleft : (u.afterBlocks p j).blockBase < (u.afterBlocks p j).clen.toNat := by
      rw [State.blockBase, hbidx, State.afterBlocks_clen, ← lt_blockCount_iff]
      omega
    have hnext := State.afterBlock_counters p hleft (hctr.trans hbidx.symm)
    rwa [hbidx] at hnext

/-- CTR_BLOCK after `j` blocks, with one left. -/
theorem CipherStart.block (h : CipherStart p s u here next) {j : Nat} (hj : j < blockCount u.clen.toNat) :
    (u.afterBlocks p j).ctrBlock p next =
      .next (if blockCount u.clen.toNat ≤ j + 1 then (u.afterBlocks p (j + 1)).goto next
        else u.afterBlocks p (j + 1)) := by
  obtain ⟨hctr, hbidx⟩ := h.counters hj.le
  have hclen := u.clen.isLt
  have hin := (lt_blockCount_iff j _).mp hj
  have hbase : (u.afterBlocks p j).blockBase = 16 * j := by rw [State.blockBase, hbidx]
  have hwrap : (u.afterBlocks p j).ctr ≠ BitVec.allOnes 64 := by
    intro heq
    rw [heq, BitVec.toNat_allOnes] at hctr
    omega
  have hlast : 16 * j + 16 < u.clen.toNat ↔ j + 1 < blockCount u.clen.toNat := by
    rw [lt_blockCount_iff]
    omega
  rw [State.ctrBlock_of_answers next (by rw [hbase, State.afterBlocks_clen]; exact hin) hwrap
    (by rw [State.afterBlocks_draws]; exact h.answers j hj), hbase, State.afterBlocks_clen]
  simp only [← Nat.not_lt, hlast]
  rfl

/-- Behind the first block the engine step is CTR_BLOCK in either stage. -/
theorem CipherStart.engine_later (h : CipherStart p s u here next) {j : Nat} (hj : j + 1 ≤ blockCount u.clen.toNat) :
    (u.afterBlocks p (j + 1)).engine p = (u.afterBlocks p (j + 1)).ctrBlock p next := by
  refine State.engine_cipher h.pair ((u.afterBlocks_stage p (j + 1)).trans h.stage) fun _ heq => ?_
  have hcount := (h.counters hj).2
  rw [heq] at hcount
  cases hcount

/-- Before the last block the stage is kept. -/
theorem CipherStart.steps_within (h : CipherStart p s u here next) {j : Nat} (hj : j + 1 < blockCount u.clen.toNat) :
    s.engineSteps p (j + 1) = .next (u.afterBlocks p (j + 1)) := by
  induction j with
  | zero =>
    have hblock := h.block (j := 0) (by omega)
    rw [if_neg (by omega)] at hblock
    exact State.engineSteps_succ 0 (h.first.trans hblock)
  | succ j ih =>
    rw [State.engineSteps_add (j + 1) 1 (ih (by omega))]
    have hstep := h.engine_later (j := j) (by omega)
    rw [h.block (by omega), if_neg (by omega)] at hstep
    exact State.engineSteps_succ 0 hstep

/-- After the steps of the stage every block is made and the stage is left (41_ctr_cipher.md R157). -/
theorem CipherStart.steps (h : CipherStart p s u here next) :
    s.engineSteps p (cipherSteps u.clen.toNat) = .next ((u.afterBlocks p (blockCount u.clen.toNat)).goto next) := by
  cases hcount : blockCount u.clen.toNat with
  | zero =>
    have hclen : u.clen.toNat = 0 := by
      rw [blockCount] at hcount
      omega
    have hnone : u.ctrBlock p next = .next (u.goto next) := by
      rw [State.ctrBlock, if_pos (by rw [hclen]; exact Nat.zero_le _)]
    rw [cipherSteps, hcount]
    exact State.engineSteps_succ 0 (h.first.trans hnone)
  | succ m =>
    have hsteps : cipherSteps u.clen.toNat = m + 1 := by rw [cipherSteps, hcount]; omega
    have hblock := h.block (j := m) (by omega)
    rw [if_pos (by omega)] at hblock
    rw [hsteps]
    cases m with
    | zero => exact State.engineSteps_succ 0 (h.first.trans hblock)
    | succ j =>
      rw [State.engineSteps_add (j + 1) 1 (h.steps_within (by omega))]
      exact State.engineSteps_succ 0 ((h.engine_later (by omega)).trans hblock)

/-- The keystream block of the block behind `j` blocks. -/
theorem CipherStart.nextKeystream (h : CipherStart p s u here next) {j : Nat} (hj : j ≤ blockCount u.clen.toNat) :
    (u.afterBlocks p j).nextKeystream p = p.aes u.akey.toList (counterBlock (BitVec.ofNat 64 (j + 1))) := by
  have hctr : (u.afterBlocks p j).ctr + 1 = BitVec.ofNat 64 (j + 1) := by
    have hcount := (h.counters hj).1
    generalize (u.afterBlocks p j).ctr = c at hcount ⊢
    rw [← hcount, BitVec.ofNat_add, BitVec.ofNat_toNat, BitVec.setWidth_eq]
    rfl
  rw [State.nextKeystream, State.afterBlocks_akey, hctr]

/-- The bytes of CBUF after `j` blocks: those before the end of block `j` and of the payload XORed with the keystream. -/
theorem CipherStart.inner_afterBlocks (h : CipherStart p s u here next) {j : Nat} (hj : j ≤ blockCount u.clen.toNat)
    (k : Nat) :
    (u.afterBlocks p j).cbuf.inner k =
      if k < 16 * j ∧ k < u.clen.toNat then u.cbuf.inner k ^^^ keystreamByte p u.akey.toList k else u.cbuf.inner k := by
  induction j with
  | zero => rw [if_neg (by omega)]; rfl
  | succ j ih =>
    have hbase : (u.afterBlocks p j).blockBase = 16 * j := by
      rw [State.blockBase, (h.counters (by omega)).2]
    rw [State.afterBlocks, State.inner_afterBlock p _ (h.wf_afterBlocks j), hbase, State.afterBlocks_clen,
      h.nextKeystream (by omega), ih (by omega)]
    by_cases hin : 16 * j ≤ k ∧ k < 16 * j + 16 ∧ k < u.clen.toNat
    · obtain ⟨hlow, hhigh, hk⟩ := hin
      have hdiv : k / 16 = j := by omega
      have hmod : k % 16 = k - 16 * j := by omega
      rw [if_pos ⟨hlow, hhigh, hk⟩, if_neg (by omega), if_pos (by omega), keystreamByte, hdiv, hmod]
    · rw [if_neg hin]
      exact ite_congr (propext (by omega)) (fun _ => rfl) (fun _ => rfl)

/-- The cipher stage as a whole. -/
theorem CipherStart.stage_run (h : CipherStart p s u here next) :
    ∃ t : State, s.engineSteps p (cipherSteps u.clen.toNat) = .next t ∧
      t = { u with
            ctr := t.ctr, ks := t.ks, bidx := t.bidx, cbuf := t.cbuf, stage := next.code
            draws := u.draws + blockCount u.clen.toNat } ∧
      t.ctr.toNat = blockCount u.clen.toNat ∧ t.bidx.toNat = blockCount u.clen.toNat ∧
      t.payload = cipherBytes p u.akey.toList u.payload ∧
      ∀ k, u.clen.toNat ≤ k → t.cbuf.inner k = u.cbuf.inner k := by
  obtain ⟨hctr, hbidx⟩ := h.counters (Nat.le_refl _)
  have hinner := h.inner_afterBlocks (Nat.le_refl _)
  have honly := u.afterBlocks_only p (blockCount u.clen.toNat)
  have hclen := u.afterBlocks_clen p (blockCount u.clen.toNat)
  refine ⟨_, h.steps, ?_, hctr, hbidx, ?_, fun k hk => ?_⟩
  · exact congrArg (fun v : State => v.goto next) honly
  · refine bytes_ext ?_ fun k hk => ?_
    · rw [State.length_payload, State.goto_clen, hclen, cipherBytes, List.length_map, List.length_range,
        State.length_payload]
    · rw [State.length_payload, State.goto_clen, hclen] at hk
      have hlast : k < 16 * blockCount u.clen.toNat := by
        rw [blockCount]
        omega
      rw [State.byteAt_payload _ k (by rwa [State.goto_clen, hclen]), State.goto_cbuf, hinner, if_pos ⟨hlast, hk⟩,
        cipherBytes, byteAt_map_range _ _ _ (by rwa [State.length_payload]), State.byteAt_payload _ k hk]
  · rw [State.goto_cbuf, hinner, if_neg (by omega)]

end Blocks

/-- E_CIPHER at its first block. -/
theorem State.eCipher_start {p : Platform} {s : State} (hs : s.stage = Stage.eCipher.code) (hctr : s.ctr = 0)
    (hbidx : s.bidx = 0) (hw : s.cbuf.wf innerBlank = true)
    (hanswers : ∀ j, j < blockCount s.clen.toNat → p.fails (s.draws + j) = false) :
    CipherStart p s s .eCipher .eHmac :=
  ⟨.inl ⟨rfl, rfl⟩, State.engine_cipher (.inl ⟨rfl, rfl⟩) hs (fun h => absurd h (by decide)), hs, hctr, hbidx, hw,
    hanswers⟩

/-- D_CIPHER at its first block, which comes after the copy of the ciphertext. -/
theorem State.dCipher_start {p : Platform} {s : State} (hs : s.stage = Stage.dCipher.code) (hctr : s.ctr = 0)
    (hbidx : s.bidx = 0) (hw : s.cbuf.wf innerBlank = true) (hanswers : ∀ d, p.fails d = false) :
    CipherStart p s (s.loadCiphertext p) .dCipher .dInflate := by
  have hstep : s.engine p = s.dCipher p := State.engine_of_stage hs
  refine ⟨.inr ⟨rfl, rfl⟩, ?_, hs, hctr, hbidx, Memory.wf_putBytes hw _ _, fun j _ => hanswers _⟩
  rw [hstep, State.dCipher, if_pos hbidx]

/-- Settles O29, by induction over the blocks (`CipherStart.steps`, `CipherStart.inner_afterBlocks`). -/
theorem cipherStageXorsTheKeystream : Obligations.CipherStageXorsTheKeystream := by
  intro p s hs hctr hbidx hw hanswers n
  have hstart := State.eCipher_start hs hctr hbidx hw hanswers
  refine ⟨fun j hj => ?_, hstart.stage_run⟩
  cases j with
  | zero => exact ⟨s, rfl, hs⟩
  | succ j =>
    have hj' : j + 1 < blockCount s.clen.toNat := by
      have hsteps : j + 1 < max 1 (blockCount s.clen.toNat) := hj
      omega
    exact ⟨_, hstart.steps_within hj', (s.afterBlocks_stage p (j + 1)).trans hs⟩

/-! ### Encryption and decryption -/

@[simp] theorem length_cipherBytes (p : Platform) (key bs : Bytes) : (cipherBytes p key bs).length = bs.length := by
  simp [cipherBytes]

/-- The cipher undoes itself (41_ctr_cipher.md R159). -/
theorem cipherBytes_cipherBytes (p : Platform) (key bs : Bytes) :
    cipherBytes p key (cipherBytes p key bs) = bs := by
  refine bytes_ext (by simp) fun k hk => ?_
  rw [length_cipherBytes, length_cipherBytes] at hk
  rw [cipherBytes, byteAt_map_range _ _ _ (by rwa [length_cipherBytes]), cipherBytes, byteAt_map_range _ _ _ hk,
    BitVec.xor_assoc, BitVec.xor_self, BitVec.xor_zero]

/-- D_CIPHER as a whole: the payload is the decrypted ciphertext that is held. -/
theorem State.dCipher_run {p : Platform} {s : State} {c : Bytes} (hs : s.stage = Stage.dCipher.code) (hctr : s.ctr = 0)
    (hbidx : s.bidx = 0) (hw : s.cbuf.wf innerBlank = true) (hanswers : ∀ d, p.fails d = false)
    (hlen : c.length = s.clen.toNat) (hholds : s.Holds (ibufBase + 63) c) :
    ∃ t : State, s.engineSteps p (cipherSteps s.clen.toNat) = .next t ∧
      t = { s with
            ctr := t.ctr, ks := t.ks, bidx := t.bidx, cbuf := t.cbuf, stage := Stage.dInflate.code
            draws := t.draws } ∧
      t.payload = cipherBytes p s.akey.toList c := by
  obtain ⟨-, hpayload, -⟩ := State.loadCiphertext_of_holds (p := p) hw hlen hholds
  obtain ⟨t, hrun, honly, -, -, hcipher, -⟩ := (State.dCipher_start hs hctr hbidx hw hanswers).stage_run
  rw [hpayload] at hcipher
  refine ⟨t, hrun, ?_, hcipher⟩
  rw [honly]
  rfl

/-- Settles O30. -/
theorem decryptionUndoesEncryption : Obligations.DecryptionUndoesEncryption := by
  intro p s t s' hanswers hs hctr hbidx hw hrun hs' hctr' hbidx' hw' hkey hclen hholds
  obtain ⟨t', hrun', honly, -, -, hpayload, -⟩ :=
    (State.eCipher_start hs hctr hbidx hw fun j _ => hanswers _).stage_run
  obtain rfl : t = t' := Host.Outcome.next.inj (hrun.symm.trans hrun')
  have hlen : t.payload.length = s'.clen.toNat := by rw [hpayload, length_cipherBytes, State.length_payload, hclen]
  obtain ⟨u, hback, hback', hplain⟩ := State.dCipher_run hs' hctr' hbidx' hw' hanswers hlen hholds
  rw [hclen] at hback
  refine ⟨u, hback, (congrArg State.stage hback' :), ?_⟩
  rw [hplain, hpayload, hkey, cipherBytes_cipherBytes]

end Sys2Proof.Machine

/-! PROOFS. ENCODE as a whole: its stages one behind the other (42_encode.md R170). -/

namespace Sys2Proof.Machine

/-- Runs of engine steps, one behind the other. -/
theorem State.engineSteps_trans {p : Platform} {s t : State} {j k : Nat} {r : Result}
    (h : s.engineSteps p j = .next t) (h' : t.engineSteps p k = r) : s.engineSteps p (j + k) = r :=
  (State.engineSteps_add j k h).trans h'

/-- One engine step as a run. -/
theorem State.engineSteps_one {p : Platform} {s t : State} (h : s.engine p = .next t) : s.engineSteps p 1 = .next t :=
  State.engineSteps_succ 0 h

/-- Operands that are neither empty nor longer than their buffers are in order. -/
theorem State.operandsOk_of_lengths {p : Platform} {s : State} {input pw : Bytes} (hinput : input.length = s.ilen.toNat)
    (hinput' : input ≠ []) (hibuf : input.length ≤ p.ibufSize) (hpw : pw.length = s.pwlen.toNat) (hpw' : pw ≠ [])
    (hpbuf : pw.length ≤ p.pbufSize) : s.operandsOk p = true := by
  have hne {bs : Bytes} {v : Word} (hlen : bs.length = v.toNat) (hbs : bs ≠ []) : v ≠ 0 := by
    rintro rfl
    exact hbs (List.eq_nil_of_length_eq_zero hlen)
  exact (State.operandsOk_iff p s).mpr ⟨hne hinput hinput', hne hpw hpw', by omega, by omega⟩

section Encode

variable {p : Platform} {s : State}

/-- E_CHECK, E_CRC and E_DEFLATE: the plaintext's CRC in CRCR and its compressed form in CBUF. -/
theorem State.encode_packs {plain : Bytes} (hp : p.Bounded) (hanswers : ∀ d, p.fails d = false)
    (hs : s.stage = Stage.eCheck.code) (hw : s.cbuf.wf innerBlank = true) (hok : s.operandsOk p = true)
    (hlen : plain.length = s.ilen.toNat) (hholds : s.Holds ibufBase plain)
    (hfits : (p.deflate (s.draws + 2 * plain.length) plain).length ≤ p.cbufSize) :
    ∃ t : State, s.engineSteps p 3 = .next t ∧
      t = { s with
            crcr := p.crc plain, cbuf := t.cbuf, clen := t.clen, stage := Stage.eSalt.code
            draws := s.draws + 2 * plain.length + 1 } ∧
      t.cbuf.wf innerBlank = true ∧
      t.clen.toNat = (p.deflate (s.draws + 2 * plain.length) plain).length ∧
      t.payload = p.deflate (s.draws + 2 * plain.length) plain := by
  have hcheck : s.engine p = .next (s.goto .eCrc) := by
    rw [State.engine_firstStage (.inl ⟨rfl, rfl⟩) hs, hok]
    rfl
  obtain ⟨u, hu, hcrc⟩ : ∃ u : State,
      u = { s with crcr := p.crc plain, stage := Stage.eDeflate.code, draws := s.draws + plain.length } ∧
      (s.goto .eCrc).engine p = .next u :=
    ⟨_, rfl, crcIsTakenOverThePlaintext p (s.goto .eCrc) plain rfl hlen hholds⟩
  have hdraws : u.draws + plain.length = s.draws + 2 * plain.length := by
    rw [hu]
    show s.draws + plain.length + plain.length = _
    omega
  have hdeflate : u.engine p = .next (u.eDeflate p) :=
    State.engine_of_stage (s := u) (st := .eDeflate) (by rw [hu])
  have hkeeps := (State.eDeflate_of_holds (p := p) (s := u) (plain := plain) (by rw [hu]; exact hlen)
    (hholds.of_mem (by rw [hu]))).2
  rw [hdraws] at hkeeps
  rw [hkeeps (hanswers _) hfits] at hdeflate
  have huw : u.cbuf.wf innerBlank = true := by rw [hu]; exact hw
  obtain ⟨hclen, hpayload, -⟩ := State.storePacked_payload hp (s := u.drew (plain.length + 1)) huw hfits
  refine ⟨_, State.engineSteps_trans (State.engineSteps_one hcheck)
    (State.engineSteps_trans (State.engineSteps_one hcrc) (State.engineSteps_one hdeflate)), ?_,
    Memory.wf_putBytes huw _ _, hclen, hpayload⟩
  rw [← hdraws, hu]
  rfl

/-- E_SALT and E_KDF: the salt in SALT and the keys in their registers. -/
theorem State.encode_keys {pw : Bytes} (hanswers : ∀ d, p.fails d = false) (hs : s.stage = Stage.eSalt.code)
    (hlen : pw.length = s.pwlen.toNat) (hholds : s.Holds pbufBase pw) {salt dk : Bytes} (hsalt : p.rng s.draws 16 = salt)
    (hsaltLen : salt.length = 16) (hdk : p.kdf pw salt 1000 66 = dk) (hdkLen : dk.length = 66) :
    ∃ t : State, s.engineSteps p 2 = .next t ∧
      t = { s with
            salt := t.salt, dk := t.dk, akey := t.akey, hkey := t.hkey, pvv := t.pvv, ctr := 0, bidx := 0
            stage := Stage.eCipher.code, draws := t.draws } ∧
      t.salt.toList = salt ∧ t.akey.toList = dk.take 32 ∧ t.hkey.toList = (dk.drop 32).take 32 ∧
      t.pvv.toList = dk.drop 64 := by
  subst hsalt hdk
  obtain ⟨u, hdraw, hu, husalt⟩ := (saltIsDrawnOrRaises p s hs).2 (hanswers _) hsaltLen
  have hderives := (encodeDerivesItsKeys p u pw (by rw [hu]) (by rw [hu]; exact hlen) (hholds.of_mem (by rw [hu]))).2
  rw [husalt] at hderives
  obtain ⟨t, hkdf, ht, -, hakey, hhkey, hpvv⟩ := hderives (hanswers _) hdkLen
  refine ⟨t, State.engineSteps_trans (State.engineSteps_one hdraw) (State.engineSteps_one hkdf), ?_, ?_, hakey, hhkey,
    hpvv⟩
  · rw [ht, hu]
  · rw [ht, husalt]

/-- FINISH behind a stage that has delivered: the command has ended without an error, with OLEN and the memory as they are. -/
theorem State.finish_run (hs : s.stage = Stage.finish.code) (hraised : s.raised = none) :
    ∃ t : State, s.engineSteps p 1 = .next t ∧ t.busy = false ∧ t.done = true ∧ t.err = 0 ∧ t.olen = s.olen ∧ t.Wiped ∧
      t.mem = s.mem := by
  have hstep : s.engine p = .next s.finish := State.engine_of_stage hs
  obtain ⟨herr, holen⟩ := State.finish_of_success hraised
  exact ⟨s.finish, State.engineSteps_one hstep, rfl, rfl, herr, holen, s.finish_wiped, rfl⟩

/-- E_HMAC, E_EMIT and FINISH: the container in OBUF, and the command has ended. -/
theorem State.encode_seals {body : Bytes} (hp : p.Bounded) (hanswers : ∀ d, p.fails d = false)
    (hs : s.stage = Stage.eHmac.code) (hfits : s.clen.toNat ≤ p.cbufSize) (hbody : s.payload = body) {mac : Bytes}
    (hmac : p.hmac s.hkey.toList body = mac) (hmacLen : mac.length = 20) :
    ∃ t : State, s.engineSteps p 3 = .next t ∧ t.busy = false ∧ t.done = true ∧ t.err = 0 ∧
      t.olen.toNat = s.clen.toNat + 156 ∧ t.Wiped ∧
      t.Holds obufBase (containerBytes p s.crcr s.ilen.toNat s.salt.toList s.pvv.toList body (mac.take 10)) ∧
      ∀ a, a < obufBase ∨ obufBase + (s.clen.toNat + 156) ≤ a → t.mem.read? a = s.mem.read? a := by
  subst hbody hmac
  obtain ⟨u, htag, hu, -, htagc⟩ := (tagIsTakenOverTheCiphertext p s hs).2 (hanswers _) hmacLen
  obtain ⟨v, hemit, hv, holen, hholds, hframe⟩ :=
    emitWritesTheContainer p u hp (by rw [hu]) (by rw [hu]; exact hfits)
  obtain ⟨t, hfinish, hbusy, hdone, herr, holen', hwiped, hmem⟩ :=
    State.finish_run (p := p) (s := v) (by rw [hv]) (by rw [hv])
  rw [htagc] at hholds
  rw [hu] at holen hholds hframe
  refine ⟨t, State.engineSteps_trans (State.engineSteps_one htag)
    (State.engineSteps_trans (State.engineSteps_one hemit) hfinish), hbusy, hdone, herr, ?_, hwiped, hholds.of_mem hmem,
    fun a ha => ?_⟩
  · rw [holen', holen]
  · rw [hmem, hframe a ha]

/-- Settles O45: the stages of ENCODE, one behind the other. -/
theorem encodeMakesTheContainer : Obligations.EncodeMakesTheContainer := by
  intro p s plain pw hp hanswers hs hw hlen hplain hplainFits hholds hpwLen hpw hpwFits hpwHolds d packed salt dk body mac
    hfits hsalt hdk hmac
  have hok := State.operandsOk_of_lengths hlen hplain hplainFits hpwLen hpw hpwFits
  obtain ⟨t1, hpack, h1, hw1, hclen, hpayload⟩ := State.encode_packs hp hanswers hs hw hok hlen hholds hfits
  obtain ⟨t2, hkeys, h2, hsaltReg, hakey, hhkey, hpvv⟩ :=
    State.encode_keys (p := p) (s := t1) (pw := pw) (salt := salt) (dk := dk) hanswers (by rw [h1])
      (by rw [h1]; exact hpwLen) (hpwHolds.of_mem (by rw [h1])) (by rw [h1]) hsalt rfl hdk
  have hclen2 : t2.clen = t1.clen := (congrArg State.clen h2 :)
  have hpayload2 : t2.payload = packed := (congrArg State.payload h2).trans hpayload
  obtain ⟨t3, hcipher, h3, -, -, hbody, -⟩ :=
    (State.eCipher_start (p := p) (s := t2) (by rw [h2]) (by rw [h2]) (by rw [h2]) (by rw [h2]; exact hw1)
      fun j _ => hanswers _).stage_run
  rw [hpayload2, hakey] at hbody
  rw [hclen2, hclen] at hcipher
  have hclen3 : t3.clen.toNat = packed.length := by rw [h3, ← hclen, ← hclen2]
  obtain ⟨t, hseal, hbusy, hdone, herr, holen, hwiped, hcontainer, hframe⟩ :=
    State.encode_seals (p := p) (s := t3) (mac := mac) hp hanswers (by rw [h3]) (by rw [hclen3]; exact hfits) hbody
      (by rw [h3, hhkey]) hmac
  have hmem : t3.mem = s.mem := by rw [h3, h2, h1]
  have hcrcr : t3.crcr = p.crc plain := by rw [h3, h2, h1]
  have hilen : t3.ilen.toNat = plain.length := by rw [h3, h2, h1, hlen]
  have hsalt3 : t3.salt.toList = salt := by rw [h3, hsaltReg]
  have hpvv3 : t3.pvv.toList = dk.drop 64 := by rw [h3, hpvv]
  have hsteps : 8 + cipherSteps packed.length = 3 + (2 + (cipherSteps packed.length + 3)) := by omega
  rw [hcrcr, hilen, hsalt3, hpvv3] at hcontainer
  rw [hclen3] at holen hframe
  rw [hmem] at hframe
  rw [hsteps]
  exact ⟨t, State.engineSteps_trans hpack (State.engineSteps_trans hkeys (State.engineSteps_trans hcipher hseal)), hbusy,
    hdone, herr, holen, hwiped, hcontainer, hframe⟩

end Encode

end Sys2Proof.Machine

/-! PROOFS. DECODE as a whole: its stages one behind the other, over the container ENCODE makes (43_decode.md R200). -/

namespace Sys2Proof.Machine

section Decode

variable {p : Platform} {s : State}

/-- A container passes every check of D_FORMAT, and its length fields say how long it is (30_encoding.md R94, R109). -/
theorem container_passes_checks (hp : p.Bounded) {crc : BitVec 32} {usize : Nat} {salt pvv cipher tag z : Bytes}
    (hsalt : salt.length = 16) (hpvv : pvv.length = 2) (htag : tag.length = 10) (hfits : cipher.length ≤ p.cbufSize)
    (hz : z = containerBytes p crc usize salt pvv cipher tag) :
    73 ≤ z.length ∧ rd32 z 0 = 0x04034B50 ∧ rd16 z 8 = 99 ∧ rd16 z 28 = 11 ∧ rd16 z 34 = 0x9901 ∧ rd16 z 36 = 7 ∧
      rd16 z 38 = 1 ∧ byteAt z 40 = 0x41 ∧ byteAt z 41 = 0x45 ∧ byteAt z 42 = 3 ∧ 28 ≤ (rd32 z 18).toNat ∧
      73 + ((rd32 z 18).toNat - 28) ≤ z.length := by
  subst hz
  obtain ⟨hlen, h0, -, -, h8, -, -, -, h18, -, -, h28, -, hextra, -⟩ :=
    containerLayout p crc usize salt pvv cipher tag hsalt hpvv htag
  have hobuf := hp.obuf_ge
  have hsize := congrArg BitVec.toNat h18
  rw [toNat_ofNat_of_fits hp (by omega)] at hsize
  generalize containerBytes p crc usize salt pvv cipher tag = z at *
  have hextra' : (z.drop 34).take 11 = aeExtraBytes := hextra
  have hrd16 (i : Nat) (hi : i + 2 ≤ 11) : rd16 z (34 + i) = rd16 aeExtraBytes i := by
    rw [← hextra', rd16_slice z 34 11 i hi]
  have hbyte (i : Nat) (hi : i < 11) : byteAt z (34 + i) = byteAt aeExtraBytes i := by
    rw [← hextra', byteAt_slice z 34 11 i hi]
  rw [hsize]
  exact ⟨by omega, h0, h8, h28, hrd16 0 (by decide), hrd16 2 (by decide), hrd16 4 (by decide), hbyte 6 (by decide),
    hbyte 7 (by decide), hbyte 8 (by decide), by omega, by omega⟩

/-- D_CHECK and D_FORMAT over a container: its lengths and its CRC in CLEN, USZ and CRCR. -/
theorem State.decode_parses (hp : p.Bounded) {crc : BitVec 32} {usize : Nat} {salt pvv cipher tag z : Bytes}
    (hsalt : salt.length = 16) (hpvv : pvv.length = 2) (htag : tag.length = 10) (hfits : cipher.length ≤ p.cbufSize)
    (hz : z = containerBytes p crc usize salt pvv cipher tag) (hs : s.stage = Stage.dCheck.code)
    (hok : s.operandsOk p = true) (hlen : z.length = s.ilen.toNat) (hholds : s.Holds ibufBase z) :
    ∃ t : State, s.engineSteps p 2 = .next t ∧
      t = { s with
            clen := t.clen, crcr := crc, usz := BitVec.ofNat 32 usize, stage := Stage.dKdf.code, draws := t.draws } ∧
      t.clen.toNat = cipher.length := by
  have hcheck : s.engine p = .next (s.goto .dFormat) := by
    rw [State.engine_firstStage (.inr ⟨rfl, rfl⟩) hs, hok]
    rfl
  obtain ⟨t, hformat, ht⟩ := formatStageChecksTheContainer p (s.goto .dFormat) z rfl hlen hholds
  rw [if_pos (container_passes_checks hp hsalt hpvv htag hfits hz)] at ht
  obtain ⟨-, -, -, -, -, -, -, hcrc, hsize, husize, -⟩ :=
    containerLayout p crc usize salt pvv cipher tag hsalt hpvv htag
  have hobuf := hp.obuf_ge
  have hpayload : (rd32 z 18).toNat - 28 = cipher.length := by
    rw [hz, hsize, toNat_ofNat_of_fits hp (by omega), Nat.add_sub_cancel]
  rw [hpayload, hz, hcrc, husize] at ht
  have hclen : t.clen.toNat = cipher.length := by rw [ht, toNat_ofNat_of_fits hp (by omega)]
  refine ⟨t, State.engineSteps_trans (State.engineSteps_one hcheck) (State.engineSteps_one hformat), ?_, hclen⟩
  rw [ht]
  rfl

/-- D_TAG over the tag of the stored ciphertext goes on to the cipher, checked or bypassed. -/
theorem State.dTag_passes {c : Bytes} (hanswers : ∀ d, p.fails d = false) (hs : s.stage = Stage.dTag.code)
    (hlen : c.length = s.clen.toNat) (hholds : s.Holds (ibufBase + 63) c) {mac : Bytes}
    (hmac : p.hmac s.hkey.toList c = mac) (hmacLen : mac.length = 20)
    (htag : s.Holds (ibufBase + (63 + c.length)) (mac.take 10)) :
    ∃ t : State, s.engine p = .next t ∧
      t = { s with
            hmd := t.hmd, tagc := t.tagc, ctr := 0, bidx := 0, stage := Stage.dCipher.code, draws := t.draws } := by
  subst hmac
  obtain ⟨hbypassed, -, hchecked⟩ := tagIsVerifiedUnlessBypassed p s c _ hs hlen (by simp [hmacLen]) hholds htag
  by_cases hbypass : p.testHook = true ∧ s.tbyp = true
  · exact ⟨_, hbypassed hbypass, rfl⟩
  · obtain ⟨t, hstep, -, -, ht⟩ := hchecked hbypass (hanswers _) hmacLen
    rw [if_pos rfl] at ht
    refine ⟨t, hstep, ?_⟩
    rw [ht]

/-- D_KDF, D_PVV and D_TAG over a container made with this password: AES's key in AKEY, and on to the cipher. -/
theorem State.decode_verifies {pw salt c : Bytes} (hanswers : ∀ d, p.fails d = false) (hs : s.stage = Stage.dKdf.code)
    (hpwLen : pw.length = s.pwlen.toNat) (hpw : s.Holds pbufBase pw) (hsaltLen : salt.length = 16)
    (hsalt : s.Holds (ibufBase + 45) salt) {dk : Bytes} (hdk : p.kdf pw salt 1000 66 = dk) (hdkLen : dk.length = 66)
    (hpvv : s.Holds (ibufBase + 61) (dk.drop 64)) (hlen : c.length = s.clen.toNat) (hholds : s.Holds (ibufBase + 63) c)
    {mac : Bytes} (hmac : p.hmac ((dk.drop 32).take 32) c = mac) (hmacLen : mac.length = 20)
    (htag : s.Holds (ibufBase + (63 + c.length)) (mac.take 10)) :
    ∃ t : State, s.engineSteps p 3 = .next t ∧
      t = { s with
            salt := t.salt, dk := t.dk, akey := t.akey, hkey := t.hkey, pvv := t.pvv, hmd := t.hmd, tagc := t.tagc
            ctr := 0, bidx := 0, stage := Stage.dCipher.code, draws := t.draws } ∧
      t.akey.toList = dk.take 32 := by
  subst hdk
  obtain ⟨u, hkdf, -, -, hderives⟩ := decodeDerivesItsKeys p s salt pw hs hsaltLen hsalt hpwLen hpw
  obtain ⟨hu, -, hakey, hhkey, hpvvReg⟩ := hderives (hanswers _) hdkLen
  have hmem : u.mem = s.mem := by rw [hu]
  obtain ⟨v, hv, hpass⟩ :
      ∃ v : State, v = { u with stage := Stage.dTag.code, draws := u.draws + 2 } ∧ u.engine p = .next v := by
    have hstep := wrongPasswordIsRaisedOnMismatch p u _ (by rw [hu]) (by simp [hdkLen]) (hpvv.of_mem hmem)
    rw [if_pos hpvvReg.symm] at hstep
    exact ⟨_, rfl, hstep⟩
  have hmem' : v.mem = s.mem := by rw [hv, hmem]
  obtain ⟨t, hstep, ht⟩ := State.dTag_passes (p := p) (s := v) (c := c) (mac := mac) hanswers (by rw [hv])
    (by rw [hv, hu]; exact hlen) (hholds.of_mem hmem') (by rw [hv, hhkey]; exact hmac) hmacLen (htag.of_mem hmem')
  refine ⟨t, State.engineSteps_trans (State.engineSteps_one hkdf)
    (State.engineSteps_trans (State.engineSteps_one hpass) (State.engineSteps_one hstep)), ?_, ?_⟩
  · rw [ht, hv, hu]
  · rw [ht, hv, hakey]

/-- D_INFLATE, D_CRC, D_COMMIT and FINISH: the plaintext in OBUF, and the command has ended. -/
theorem State.decode_delivers {plain : Bytes} (hanswers : ∀ d, p.fails d = false) (hs : s.stage = Stage.dInflate.code)
    (hw : s.xbuf.wf innerBlank = true) (hlen : plain.length = s.usz.toNat) (hfits : plain.length ≤ p.obufSize)
    (hinflate : p.inflate s.payload plain.length = plain) (hcrc : p.crc plain = s.crcr) :
    ∃ t : State, s.engineSteps p 4 = .next t ∧ t.busy = false ∧ t.done = true ∧ t.err = 0 ∧
      t.olen.toNat = plain.length ∧ t.Wiped ∧ t.Holds obufBase plain ∧
      ∀ a, a < obufBase ∨ obufBase + plain.length ≤ a → t.mem.read? a = s.mem.read? a := by
  have hfill := (inflateFillsXbufOrRaises p s hs hw).2.2
  rw [← hlen, hinflate] at hfill
  obtain ⟨u, hinflated, hu, huplain, -⟩ := hfill hfits (hanswers _) rfl
  obtain ⟨v, hv, hchecked⟩ :
      ∃ v : State, v = { u with stage := Stage.dCommit.code } ∧ u.engine p = .next v := by
    have hstep := (plaintextIsCheckedThenCommitted p u).1 (by rw [hu])
    have hmatch : p.crc u.inflated = u.crcr := by rw [huplain, hcrc, hu]
    rw [if_pos hmatch] at hstep
    exact ⟨_, rfl, hstep⟩
  have hvplain : v.inflated = plain := (congrArg State.inflated hv).trans huplain
  have husz : v.usz = s.usz := by rw [hv, hu]
  have hmem : v.mem = s.mem := by rw [hv, hu]
  obtain ⟨w, hcommit, hw', hholds, hframe⟩ := (plaintextIsCheckedThenCommitted p v).2 (by rw [hv])
  rw [hvplain] at hholds
  rw [husz, ← hlen, hmem] at hframe
  obtain ⟨t, hfinish, hbusy, hdone, herr, holen, hwiped, hmem'⟩ :=
    State.finish_run (p := p) (s := w) (by rw [hw']) (by rw [hw'])
  refine ⟨t, State.engineSteps_trans (State.engineSteps_one hinflated) (State.engineSteps_trans
    (State.engineSteps_one hchecked) (State.engineSteps_trans (State.engineSteps_one hcommit) hfinish)), hbusy, hdone, herr,
    ?_, hwiped, hholds.of_mem hmem', fun a ha => ?_⟩
  · rw [holen, hw', husz, hlen]
  · rw [hmem', hframe a ha]

/-- Settles O46: the stages of DECODE, one behind the other; the cipher undoes ENCODE's, and the law of 00_scope.md R13 gives the
plaintext. -/
theorem decodeRecoversThePlaintext : Obligations.DecodeRecoversThePlaintext := by
  intro p s plain pw salt packed z hp hanswers hinflate hplainFits dk body mac hsalt hdk hmac hfits hz hs hw hxw hlen hzFits
    hholds hpwLen hpw hpwFits hpwHolds
  have hbodyLen : body.length = packed.length := length_cipherBytes p _ packed
  have hpvvLen : (dk.drop 64).length = 2 := by simp [hdk]
  have htagLen : (mac.take 10).length = 10 := by simp [hmac]
  obtain ⟨hzLen, hlayout⟩ := containerLayout p (p.crc plain) plain.length salt _ body _ hsalt hpvvLen htagLen
  obtain ⟨-, -, -, -, -, -, -, -, -, -, -, -, -, hsaltAt, hpvvAt, hbodyAt, htagAt, -⟩ := hlayout
  rw [← hz] at hzLen hsaltAt hpvvAt hbodyAt htagAt
  have hzNe : z ≠ [] := List.ne_nil_of_length_pos (by omega)
  have hok := State.operandsOk_of_lengths hlen hzNe hzFits hpwLen hpw hpwFits
  obtain ⟨t1, hparse, h1, hclen⟩ :=
    State.decode_parses hp hsalt hpvvLen htagLen (by omega) hz hs hok hlen hholds
  have hmem1 : t1.mem = s.mem := by rw [h1]
  have hholds1 : t1.Holds ibufBase z := hholds.of_mem hmem1
  have hbodyHeld : t1.Holds (ibufBase + 63) body := hholds1.part 63 rfl hbodyAt
  obtain ⟨t2, hverify, h2, hakey⟩ :=
    State.decode_verifies (p := p) (s := t1) (pw := pw) (c := body) (mac := mac) hanswers (by rw [h1])
      (by rw [h1]; exact hpwLen) (hpwHolds.of_mem hmem1) hsalt (hholds1.part 45 rfl (by rw [hsalt]; exact hsaltAt)) rfl hdk
      (hholds1.part 61 rfl (by rw [hpvvLen]; exact hpvvAt)) hclen.symm hbodyHeld rfl hmac
      (hholds1.part (63 + body.length) rfl (by rw [htagLen]; exact htagAt))
  have hmem2 : t2.mem = t1.mem := by rw [h2]
  have hclen2 : t2.clen.toNat = packed.length := by rw [h2, hclen, hbodyLen]
  obtain ⟨t3, hcipher, h3, hpayload⟩ :=
    State.dCipher_run (p := p) (s := t2) (c := body) (by rw [h2]) (by rw [h2]) (by rw [h2])
      (by rw [h2, h1]; exact hw) hanswers (by rw [hclen2, hbodyLen]) (hbodyHeld.of_mem hmem2)
  rw [hclen2] at hcipher
  have hpacked : t3.payload = packed := by rw [hpayload, hakey]; exact cipherBytes_cipherBytes p _ packed
  have husz : plain.length = t3.usz.toNat := by
    rw [h3, h2, h1]
    exact (toNat_ofNat_of_fits hp hplainFits).symm
  obtain ⟨t, hdeliver, hbusy, hdone, herr, holen, hwiped, hplain, hframe⟩ :=
    State.decode_delivers (p := p) (s := t3) (plain := plain) hanswers (by rw [h3]) (by rw [h3, h2, h1]; exact hxw) husz
      hplainFits (by rw [hpacked]; exact hinflate) (by rw [h3, h2, h1])
  have hmem3 : t3.mem = s.mem := by rw [h3, hmem2, hmem1]
  have hsteps : 9 + cipherSteps packed.length = 2 + (3 + (cipherSteps packed.length + 4)) := by omega
  rw [hmem3] at hframe
  rw [hsteps]
  exact ⟨t, State.engineSteps_trans hparse (State.engineSteps_trans hverify (State.engineSteps_trans hcipher hdeliver)),
    hbusy, hdone, herr, holen, hwiped, hplain, hframe⟩

end Decode

end Sys2Proof.Machine
